-- ==== Sys2Proof/Word.lean ====
section
/-! DEFINITION. The words of the ZVAU (00_scope R7, R9): 32-bit registers, bytes of memory, and complex values. -/

namespace Sys2Proof

/-- A 32-bit register of the block, and a memory address (00_scope R6: `P_ADDR_BITS` = 32). -/
abbrev Word := BitVec 32

/-- One byte of memory. -/
abbrev Byte := BitVec 8

/-- A complex value `(re, im)` of signed integers, of no fixed width (00_scope R9). -/
structure Cplx where
  re : Int
  im : Int
  deriving DecidableEq, Repr

/-- A complex16 value (FixedComplex16): two 16-bit components (00_scope R9). -/
structure C16 where
  re : BitVec 16
  im : BitVec 16
  deriving DecidableEq, Repr, Inhabited

/-- The signed value of a complex16. -/
def C16.toCplx (v : C16) : Cplx := ⟨v.re.toInt, v.im.toInt⟩

/-- `|v|²` of a complex16, as an exact integer (42_fft R197). -/
def C16.normSq (v : C16) : Int := v.re.toInt ^ 2 + v.im.toInt ^ 2

/-- The component-wise sum (00_scope R9). -/
def Cplx.add (a b : Cplx) : Cplx := ⟨a.re + b.re, a.im + b.im⟩

/-- The component-wise difference (00_scope R9). -/
def Cplx.sub (a b : Cplx) : Cplx := ⟨a.re - b.re, a.im - b.im⟩

/-- A function of integers applied to each component. -/
def Cplx.map (f : Int → Int) (a : Cplx) : Cplx := ⟨f a.re, f a.im⟩

/-- The two directions of a transform (42_fft R191). -/
inductive FftDir where
  | fwd
  | inv
  deriving DecidableEq, Repr

/-- The two trellis variants (43_viterbi R213, R214). -/
inductive VitVariant where
  | generic
  | sig
  deriving DecidableEq, Repr

/-- The trellis path-metric state, an OPEN type (00_scope R6, 43_viterbi R218).
DESIGN CHOICE (log 7, safe): any finite state has a code among the natural numbers, so a number holds it;
the engines that read and write it are opaque, and nothing else looks at it. -/
structure Metrics where
  code : Nat
  deriving DecidableEq, Repr, Inhabited

end Sys2Proof
end

