-- ==== Sys2Proof/Machine/Input.lean ====
section
/-! DEFINITION. What reaches the unit from outside (00_scope R3; 30_encoding R87, R89; 70 R272): the host's accesses and
the power-on reset, as plain data. -/

namespace Sys2Proof.Machine

/-- The width of a host access of the register block (10_state R33). -/
inductive AccessSize where
  | byte
  | half
  | word
  deriving DecidableEq, Repr

/-- One input of a launch. The host's accesses are one sequence (60 R247), and each takes effect before the next (70 R282). -/
inductive Input where
  /-- `R(addr - P_BASE)`: the host reads the block at a platform address (30_encoding R89). -/
  | readBlock (addr : Nat) (size : AccessSize)
  /-- `W(addr - P_BASE, v)`: the host writes the block at a platform address (30_encoding R89). -/
  | writeBlock (addr : Nat) (size : AccessSize) (v : Word)
  /-- The host reads one byte of the platform memory (20_memory R64; log 11), at any address (log 22). -/
  | loadMem (addr : Word)
  /-- The host writes one byte of the platform memory (20_memory R64; log 11), at any address (log 22). -/
  | storeMem (addr : Word) (b : Byte)
  /-- The platform applies the power-on reset (70 R272; log 13). -/
  | powerOnReset
  deriving DecidableEq, Repr

end Sys2Proof.Machine
end

