-- ==== Sys2Proof/Syntax.lean ====
section
/-! DEFINITION. The 42 commands of ZVAU-1 (30_encoding R82). A command word holds no operand (30_encoding R84), so no
constructor has a field. -/

namespace Sys2Proof

/-- One constructor per row of the opcode map (30_encoding R82), in its order. -/
inductive Instr where
  | vaddI16 | vaddI32 | vaddC16 | vaddC32
  | vsubI16 | vsubI32 | vsubC16 | vsubC32
  | vmulC16 | vmulC32
  | vcmulC16 | vcmulC32
  | vcmulwC16
  | vsumI16 | vsumI32 | vsumC16 | vsumC32
  | vhaddI32 | vhaddC16
  | vshlI16 | vshlI32 | vshlC16 | vshlC32
  | vshrI16 | vshrI32 | vshrC16 | vshrC32
  | vpackC16
  | vcastC8
  | vand | vor | vxor | vandn
  | vand8 | vor8 | vxor8 | vandn8
  | fftC16 | ifftC16
  | vitInit | vitInitsig | vitDecode
  deriving DecidableEq, Repr

end Sys2Proof
end

