-- ==== Sys2Proof/WellFormed.lean ====
section
/-! DEFINITION. Well-formedness. An `Instr` has no field, so every one is well-formed; what can be ill-formed is a
command word (30_encoding R80, R81, R86) and a host access (10_state R33). Each check is a Bool of its own. -/

namespace Sys2Proof

/-- OP, bits [7:0] of a command word (30_encoding R80). -/
def cmdOp (c : Word) : BitVec 8 := c.extractLsb' 0 8

/-- TYPE, bits [10:8] (30_encoding R80). -/
def cmdType (c : Word) : BitVec 3 := c.extractLsb' 8 3

/-- RSV, bits [31:11] (30_encoding R80). -/
def cmdRsv (c : Word) : BitVec 21 := c.extractLsb' 11 21

/-- RSV must be 0 (30_encoding R80). -/
def rsvClear (c : Word) : Bool := cmdRsv c == 0

/-- TYPE values 6 and 7 are reserved (30_encoding R81, R86). -/
def typeAssigned (c : Word) : Bool := (cmdType c).toNat < 6

/-- The OP values that 30_encoding R86 does not reserve. -/
def opAssigned (c : Word) : Bool :=
  let op := (cmdOp c).toNat
  (0x01 ≤ op && op ≤ 0x0B) || (0x10 ≤ op && op ≤ 0x17) || (0x20 ≤ op && op ≤ 0x21) || (0x30 ≤ op && op ≤ 0x32)

/-- The TYPE values listed for each assigned OP (30_encoding R81, R82). -/
def typesOf (op : Nat) : List Nat :=
  if op = 0x01 ∨ op = 0x02 ∨ op = 0x06 ∨ op = 0x08 ∨ op = 0x09 then [1, 2, 3, 4]
  else if op = 0x03 ∨ op = 0x04 then [3, 4]
  else if op = 0x07 then [2, 3]
  else if op = 0x05 ∨ op = 0x0A ∨ op = 0x20 ∨ op = 0x21 then [3]
  else if op = 0x0B then [5]
  else [0]

/-- The TYPE of a word is one listed for its OP (30_encoding R86). -/
def typeListed (c : Word) : Bool := (typesOf (cmdOp c).toNat).contains (cmdType c).toNat

/-- A command word none of whose parts is reserved (30_encoding R86). -/
def wordWellFormed (c : Word) : Bool := rsvClear c && typeAssigned c && opAssigned c && typeListed c

namespace Machine

/-- Only 32-bit accesses of the block are defined (10_state R33). -/
def sizeIsWord (size : AccessSize) : Bool := size == .word

/-- The access lies in the 256 bytes of the block (20_memory R62). -/
def insideBlock (base addr : Nat) : Bool := base ≤ addr && addr < base + 256

/-- The access is aligned to 4 bytes within the block (10_state R33). -/
def wordAligned (base addr : Nat) : Bool := (addr - base) % 4 == 0

/-- An input that the spec has a step for, with the block at `base`. -/
def Input.wellFormed (base : Nat) : Input → Bool
  | .readBlock addr size => insideBlock base addr && sizeIsWord size && wordAligned base addr
  | .writeBlock addr size _ => insideBlock base addr && sizeIsWord size && wordAligned base addr
  | .loadMem _ => true
  | .storeMem _ _ => true
  | .powerOnReset => true

end Machine

end Sys2Proof
end

