-- ==== Sys2Proof/Decode.lean ====
section
/-! DEFINITION. Decoding a command word (30_encoding R80, R82, R85), and the encoder. The decoder reads the OP and TYPE
columns of 30_encoding R82, the encoder writes its CMD word column. -/

namespace Sys2Proof

/-- Why a word is no command. Each is ERR_ILLEGAL to the host (30_encoding R85, R86). -/
inductive DecodeError where
  /-- Bits [31:11] are not 0. -/
  | reservedBits
  /-- The OP has no row. -/
  | reservedOp
  /-- The OP has rows, none with this TYPE. -/
  | typeNotListed
  deriving DecidableEq, Repr

/-- One row of the opcode map: OP, TYPE and the command (30_encoding R82). -/
structure OpRow where
  op : BitVec 8
  ty : BitVec 3
  instr : Instr
  deriving DecidableEq, Repr

/-- Rows of family VA: add, sub, multiply (30_encoding R82). -/
def opRowsArith : List OpRow := [
  ⟨0x01#8, 1#3, .vaddI16⟩,
  ⟨0x01#8, 2#3, .vaddI32⟩,
  ⟨0x01#8, 3#3, .vaddC16⟩,
  ⟨0x01#8, 4#3, .vaddC32⟩,
  ⟨0x02#8, 1#3, .vsubI16⟩,
  ⟨0x02#8, 2#3, .vsubI32⟩,
  ⟨0x02#8, 3#3, .vsubC16⟩,
  ⟨0x02#8, 4#3, .vsubC32⟩,
  ⟨0x03#8, 3#3, .vmulC16⟩,
  ⟨0x03#8, 4#3, .vmulC32⟩,
  ⟨0x04#8, 3#3, .vcmulC16⟩,
  ⟨0x04#8, 4#3, .vcmulC32⟩,
  ⟨0x05#8, 3#3, .vcmulwC16⟩]

/-- Rows of family VA: reductions, shifts, pack, cast (30_encoding R82). -/
def opRowsArith2 : List OpRow := [
  ⟨0x06#8, 1#3, .vsumI16⟩,
  ⟨0x06#8, 2#3, .vsumI32⟩,
  ⟨0x06#8, 3#3, .vsumC16⟩,
  ⟨0x06#8, 4#3, .vsumC32⟩,
  ⟨0x07#8, 2#3, .vhaddI32⟩,
  ⟨0x07#8, 3#3, .vhaddC16⟩,
  ⟨0x08#8, 1#3, .vshlI16⟩,
  ⟨0x08#8, 2#3, .vshlI32⟩,
  ⟨0x08#8, 3#3, .vshlC16⟩,
  ⟨0x08#8, 4#3, .vshlC32⟩,
  ⟨0x09#8, 1#3, .vshrI16⟩,
  ⟨0x09#8, 2#3, .vshrI32⟩,
  ⟨0x09#8, 3#3, .vshrC16⟩,
  ⟨0x09#8, 4#3, .vshrC32⟩,
  ⟨0x0A#8, 3#3, .vpackC16⟩,
  ⟨0x0B#8, 5#3, .vcastC8⟩]

/-- Rows of families BL, FT and VD (30_encoding R82). -/
def opRowsOther : List OpRow := [
  ⟨0x10#8, 0#3, .vand⟩,
  ⟨0x11#8, 0#3, .vor⟩,
  ⟨0x12#8, 0#3, .vxor⟩,
  ⟨0x13#8, 0#3, .vandn⟩,
  ⟨0x14#8, 0#3, .vand8⟩,
  ⟨0x15#8, 0#3, .vor8⟩,
  ⟨0x16#8, 0#3, .vxor8⟩,
  ⟨0x17#8, 0#3, .vandn8⟩,
  ⟨0x20#8, 3#3, .fftC16⟩,
  ⟨0x21#8, 3#3, .ifftC16⟩,
  ⟨0x30#8, 0#3, .vitInit⟩,
  ⟨0x31#8, 0#3, .vitInitsig⟩,
  ⟨0x32#8, 0#3, .vitDecode⟩]

/-- The opcode map (30_encoding R82). -/
def opcodeMap : List OpRow := opRowsArith ++ opRowsArith2 ++ opRowsOther

/-- Decode a command word (30_encoding R85). -/
def decode (c : Word) : Except DecodeError Instr :=
  if cmdRsv c ≠ 0 then .error .reservedBits
  else match opcodeMap.find? (fun r => r.op == cmdOp c && r.ty == cmdType c) with
    | some r => .ok r.instr
    | none => if opcodeMap.any (fun r => r.op == cmdOp c) then .error .typeNotListed else .error .reservedOp

/-- The CMD word of a command (30_encoding R82). -/
def encode : Instr → Word
  | .vaddI16 => 0x00000101#32
  | .vaddI32 => 0x00000201#32
  | .vaddC16 => 0x00000301#32
  | .vaddC32 => 0x00000401#32
  | .vsubI16 => 0x00000102#32
  | .vsubI32 => 0x00000202#32
  | .vsubC16 => 0x00000302#32
  | .vsubC32 => 0x00000402#32
  | .vmulC16 => 0x00000303#32
  | .vmulC32 => 0x00000403#32
  | .vcmulC16 => 0x00000304#32
  | .vcmulC32 => 0x00000404#32
  | .vcmulwC16 => 0x00000305#32
  | .vsumI16 => 0x00000106#32
  | .vsumI32 => 0x00000206#32
  | .vsumC16 => 0x00000306#32
  | .vsumC32 => 0x00000406#32
  | .vhaddI32 => 0x00000207#32
  | .vhaddC16 => 0x00000307#32
  | .vshlI16 => 0x00000108#32
  | .vshlI32 => 0x00000208#32
  | .vshlC16 => 0x00000308#32
  | .vshlC32 => 0x00000408#32
  | .vshrI16 => 0x00000109#32
  | .vshrI32 => 0x00000209#32
  | .vshrC16 => 0x00000309#32
  | .vshrC32 => 0x00000409#32
  | .vpackC16 => 0x0000030A#32
  | .vcastC8 => 0x0000050B#32
  | .vand => 0x00000010#32
  | .vor => 0x00000011#32
  | .vxor => 0x00000012#32
  | .vandn => 0x00000013#32
  | .vand8 => 0x00000014#32
  | .vor8 => 0x00000015#32
  | .vxor8 => 0x00000016#32
  | .vandn8 => 0x00000017#32
  | .fftC16 => 0x00000320#32
  | .ifftC16 => 0x00000321#32
  | .vitInit => 0x00000030#32
  | .vitInitsig => 0x00000031#32
  | .vitDecode => 0x00000032#32

/-- The command that the decoder reads from a word of the opcode table, `none` where it refuses. A command is one
32-bit word written to CMD whole (30_encoding R80), so bit k of the word is bit k of the table's numbering. -/
def decodeTableWord (nbits w : Nat) : Option Instr :=
  match decode (BitVec.ofNat 32 (w % 2 ^ nbits)) with
  | .ok i => some i
  | .error _ => none

end Sys2Proof
end

