-- ==== Sys2Proof/Machine/Catalog.lean ====
section
/-! DEFINITION. The catalog of transform sizes (42_fft R190). -/

namespace Sys2Proof.Machine

/-- The powers of two of the catalog (42_fft R190). -/
def catalogPowers : List Nat := [16, 32, 64, 128, 256, 512, 1024, 2048]

/-- The LTE-compatible sizes of the catalog (42_fft R190). -/
def catalogLte : List Nat :=
  [12, 24, 36, 48, 60, 72, 96, 108, 120, 144, 180, 192] ++
  [216, 240, 288, 300, 324, 360, 384, 432, 480, 540, 576, 600] ++
  [648, 720, 768, 864, 900, 960, 972, 1080, 1152, 1200]

/-- CATALOG, the supported transform sizes (42_fft R190). -/
def catalog : List Nat := catalogPowers ++ catalogLte

/-- Whether a size is in CATALOG (42_fft R190, R194). -/
def inCatalog (n : Nat) : Bool := catalog.contains n

end Sys2Proof.Machine
end

