-- ==== Sys2Proof/Config.lean ====
section
/-! DEFINITION. What an implementation fixes and what the spec leaves open (00_scope R6): constants, and opaque
parameters that no proof can evaluate. The parameters a platform fixes (P_BASE, P_MEM_ADMIT, P_VIT_RATES) are data of
State (Machine/State.lean), so that a claim quantifies over them. -/

namespace Sys2Proof.Config

/-- `P_ADDR_BITS`: the width of a memory byte address (00_scope R6). -/
def addrBits : Nat := 32

/-- The size of the address space, 2^`P_ADDR_BITS` bytes (20_memory R50). -/
def addrSpace : Nat := 4294967296

/-- `P_LANE_BITS`: informative, no result depends on it (00_scope R6, 40_vector_arith R132). -/
def laneBits : Nat := 128

/-- `P_VIT_CONTEXTS`: one decoder context (00_scope R6, 43_viterbi R210). -/
def vitContexts : Nat := 1

/-- The ID register's constant (10_state R22). -/
def idValue : Word := 0x5A520007#32

/-- What a byte of memory that no entry lists reads as.
DESIGN CHOICE (log 9): memory at launch is the model's argument (70 R274), any list of entries; this is only the
value that the list leaves unsaid. Unsafe for a claim about a run from `State.reset`, safe for one about every state. -/
def unlistedByte : Byte := 0

/-- `P_FFT`, `P_FFT_RT_SCALE` and `P_FFT_TOL` together with the properties of 42_fft R197, and no others.
FFT-DET holds because the engine is a function. -/
structure FftEngines where
  /-- `P_FFT(dir, n)` (42_fft R191). -/
  engine : FftDir → (n : Nat) → (Fin n → C16) → Fin n → C16
  /-- `P_FFT_RT_SCALE(n)`, the round-trip scale c(n). -/
  scale : Nat → ℚ
  /-- `P_FFT_TOL(n)`, the round-trip tolerance. -/
  tol : Nat → ℚ
  /-- FFT-ZERO-64. -/
  zero64 : engine .fwd 64 (fun _ => ⟨0, 0⟩) = fun _ => ⟨0, 0⟩
  /-- FFT-IMPULSE: the bins of an impulse have one magnitude. -/
  impulse : ∀ n, Machine.inCatalog n = true → ∀ i j : Fin n,
    (engine .fwd n (fun k => if k.val = 0 then ⟨1, 0⟩ else ⟨0, 0⟩) i).normSq =
    (engine .fwd n (fun k => if k.val = 0 then ⟨1, 0⟩ else ⟨0, 0⟩) j).normSq
  /-- FFT-ROUNDTRIP, for each component. -/
  roundTrip : ∀ n, Machine.inCatalog n = true → ∀ (x : Fin n → C16) (j : Fin n),
    |((engine .inv n (engine .fwd n x) j).re.toInt : ℚ) - scale n * ((x j).re.toInt : ℚ)| ≤ tol n ∧
    |((engine .inv n (engine .fwd n x) j).im.toInt : ℚ) - scale n * ((x j).im.toInt : ℚ)| ≤ tol n

/-- A value of the type, which shows that the properties of 42_fft R197 contradict nothing. It is NOT the engine:
`freeFft` is opaque and no proof can tell which value it has. -/
def FftEngines.someEngines : FftEngines where
  engine := fun _ _ _ _ => ⟨0, 0⟩
  scale := fun _ => 0
  tol := fun _ => 0
  zero64 := rfl
  impulse := fun _ _ _ _ => rfl
  roundTrip := fun _ _ _ _ => by simp

/-- The OPEN transforms (00_scope R6), opaque and without a body. -/
opaque freeFft [Inhabited FftEngines] : FftEngines

/-- The transforms of this machine. -/
def fftEngines : FftEngines := @freeFft ⟨FftEngines.someEngines⟩

/-- `P_FFT(dir, n)` (42_fft R191). -/
def fft (dir : FftDir) (n : Nat) (x : Fin n → C16) : Fin n → C16 := fftEngines.engine dir n x

/-- `P_VIT_INIT`, `P_VIT_STEP` and `P_VIT_ENC` together with the properties of 43_viterbi R219 and R221, and no
others. VIT-DET holds because they are functions. -/
structure VitEngines where
  /-- `P_VIT_INIT(variant, rate, frameLength)` (43_viterbi R218). -/
  init : VitVariant → Word → Nat → Metrics
  /-- `P_VIT_STEP(variant, rate, frameLength, consumed, metrics, sym)` (43_viterbi R219). -/
  step : VitVariant → Word → Nat → Nat → Metrics → List Int → Metrics × List Bool
  /-- `P_VIT_ENC(variant, rate, b)`, the int8 symbols as bytes (43_viterbi R220). -/
  enc : VitVariant → Word → List Bool → List Byte
  /-- VIT-LEN. -/
  bitsFit : ∀ v r F c m sym, 1 ≤ sym.length → c + sym.length ≤ F → (step v r F c m sym).2.length < 4294967296
  /-- VIT-ROUNDTRIP-1: one frame decoded in one chunk gives back the bits encoded. -/
  roundTrip : ∀ v r b, 1 ≤ (enc v r b).length → (enc v r b).length < 4294967296 →
    (step v r (enc v r b).length 0 (init v r (enc v r b).length) ((enc v r b).map BitVec.toInt)).2 = b

/-- A value of the type, which shows that the properties of 43_viterbi R219 and R221 contradict nothing. It is NOT
the decoder: `freeVit` is opaque. -/
def VitEngines.someEngines : VitEngines where
  init := fun _ _ _ => ⟨0⟩
  step := fun _ _ _ _ _ _ => (⟨0⟩, [])
  enc := fun _ _ _ => []
  bitsFit := fun _ _ _ _ _ _ _ _ => by simp
  roundTrip := fun _ _ _ h _ => by simp at h

/-- The OPEN trellis (00_scope R6), opaque and without a body. -/
opaque freeVit [Inhabited VitEngines] : VitEngines

/-- The trellis of this machine. -/
def vitEngines : VitEngines := @freeVit ⟨VitEngines.someEngines⟩

/-- `P_VIT_INIT` (43_viterbi R218). -/
def vitInit (v : VitVariant) (rate : Word) (frameLength : Nat) : Metrics := vitEngines.init v rate frameLength

/-- `P_VIT_STEP` (43_viterbi R219). -/
def vitStep (v : VitVariant) (rate : Word) (frameLength consumed : Nat) (m : Metrics) (sym : List Int) :
    Metrics × List Bool :=
  vitEngines.step v rate frameLength consumed m sym

/-- `P_VIT_ENC` (43_viterbi R220). -/
def vitEnc (v : VitVariant) (rate : Word) (b : List Bool) : List Byte := vitEngines.enc v rate b

/-- The path metrics after a reset, which the spec leaves unspecified (70 R270, 93 I13): a free value for each reset,
numbered by `State.freeCount` (log 8). -/
opaque freeMetrics : Nat → Metrics

end Sys2Proof.Config
end

