-- ==== Sys2Proof/Machine/State.lean ====
section
/-! DEFINITION. The state of the unit, its memory, its platform and its host (10_state; 20_memory R50; 00_scope R6). -/

namespace Sys2Proof.Machine

/-- The error codes of STATUS.LASTERR (60_exceptions R240); no other value is ever written to it. -/
inductive ErrCode where
  | ok
  | illegal
  | range
  | bus
  | fftSize
  | vitState
  | vitOverrun
  | vitRate
  | vitFrame
  deriving DecidableEq, Repr

/-- The states of the Viterbi context (10_state R36). -/
inductive VState where
  | uninitialized
  | ready
  | decoding
  | terminal
  deriving DecidableEq, Repr

/-- The one Viterbi decoder context (10_state R38, 43_viterbi R210). -/
structure VitContext where
  vstate : VState
  vsig : Bool
  frameLength : Word
  consumed : Word
  rate : Word
  metrics : Metrics
  deriving DecidableEq, Repr

/-- Memory: the listed bytes, addresses strictly rising, none equal to what an unlisted address reads as. -/
abbrev Memory := List Host.Cell

/-- One entry of the platform's set `P_MEM_ADMIT` (00_scope R6; log 2). -/
inductive AdmitRange where
  /-- Every range inside `lo .. hi-1`. -/
  | window (lo hi : Nat)
  /-- The one range of `size` bytes at `addr`. -/
  | exactly (addr size : Nat)
  deriving DecidableEq, Repr

/-- The parameters of 00_scope R6 that a platform fixes (70 R275). No step changes them. -/
structure Platform where
  /-- `P_BASE` is 256 times this number: the block is 256-byte aligned (00_scope R6; log 3). -/
  basePage : Nat
  /-- `P_MEM_ADMIT` (20_memory R56; log 2). -/
  admitted : List AdmitRange
  /-- `P_VIT_RATES`; an entry 0 is never accepted (43_viterbi R212; log 4). -/
  rates : List Word
  deriving DecidableEq, Repr

/-- The whole state. STATUS, VFRAME, VCONS and VRATE are views of `err`, `lastErr` and `ctx` (10_state R24, R31);
ID is a constant and CTRL stores nothing (10_state R22, R23). -/
structure State where
  cmd : Word
  srca : Word
  srcb : Word
  dst : Word
  dst2 : Word
  len : Word
  shift : Word
  arg : Word
  res0 : Word
  res1 : Word
  /-- STATUS.ERR (10_state R24). -/
  err : Bool
  /-- STATUS.LASTERR (10_state R24). -/
  lastErr : ErrCode
  ctx : VitContext
  mem : Memory
  platform : Platform
  /-- The launch's inputs, in the host's order (70 R273; log 1). -/
  inputs : List Input
  /-- The index of the next input (10_state R20). -/
  pos : Nat
  /-- What the host's reads returned, oldest first (log 10). -/
  readData : List Word
  /-- How many free metrics values resets have used (log 8). -/
  freeCount : Nat
  deriving DecidableEq, Repr

/-- The machine never stops with a fault: every failing command completes with a code in STATUS (60_exceptions R242, R245). -/
inductive Fault where
  deriving DecidableEq, Repr

/-- Why a step has no meaning. Every reason is safe: the model stops where the spec has no step. -/
inductive Refusal where
  /-- A command that the model has no meaning for, by its mnemonic; raised by an arm of `exec` (no arm does). Safe. -/
  | notModelled (mnemonic : String)
  /-- A host access whose address is not in the block; raised by `blockOffset`. Safe. -/
  | outsideBlock
  /-- A byte or halfword access of the block (10_state R33: "it is refused"); raised by `blockOffset`. Safe. -/
  | subWordAccess
  /-- A misaligned access of the block (10_state R33: "it is refused"); raised by `blockOffset`. Safe. -/
  | misalignedAccess
  deriving DecidableEq, Repr

/-- What a step answers. -/
abbrev Result := Host.Outcome State Fault Refusal

/-- The Viterbi context after a reset (70 R270), with the unspecified metrics given. -/
def VitContext.reset (m : Metrics) : VitContext where
  vstate := .uninitialized
  vsig := false
  frameLength := 0
  consumed := 0
  rate := 0
  metrics := m

/-- The platform that `State.reset` stands on. DESIGN CHOICE (logs 2, 3, 4): the spec leaves these three OPEN; a launch
sets them, and a claim quantifies over them. The block at 0 lies inside the admitted window (log 22). -/
def Platform.reset : Platform where
  basePage := 0
  admitted := [.window 0 Config.addrSpace]
  rates := [1, 2, 3]

/-- The machine right after reset (70 R270), with no input waiting (log 1), nothing listed in memory (log 9), and the
metrics a free value (log 8). -/
def State.reset : State where
  cmd := 0
  srca := 0
  srcb := 0
  dst := 0
  dst2 := 0
  len := 0
  shift := 0
  arg := 0
  res0 := 0
  res1 := 0
  err := false
  lastErr := .ok
  ctx := VitContext.reset (Config.freeMetrics 0)
  mem := []
  platform := Platform.reset
  inputs := []
  pos := 0
  readData := []
  freeCount := 1

end Sys2Proof.Machine
end

