-- ==== Sys2Proof/Machine/Width.lean ====
section
/-! DEFINITION. The width primitives of 00_scope R8, on integers of no fixed width. -/

namespace Sys2Proof.Machine

/-- `wrap_N(v)`: the integer congruent to v modulo 2^N in the signed N-bit range (00_scope R8). -/
def wrap (N : Nat) (v : Int) : Int := Int.bmod v (2 ^ N)

/-- `uwrap_N(v)` = v mod 2^N (00_scope R8). -/
def uwrap (N : Nat) (v : Int) : Nat := (v % (2 ^ N : Int)).toNat

/-- `sat_N(v)`: signed saturation (00_scope R8). -/
def sat (N : Nat) (v : Int) : Int := min (max v (-(2 ^ (N - 1) : Int))) (2 ^ (N - 1) - 1)

/-- `sext_N(v)`: the low N bits of v, read as two's complement (00_scope R8). -/
def sext (N : Nat) (v : Int) : Int := wrap N v

/-- `zext_N(v)`: the low N bits of v, read as unsigned (00_scope R8). -/
def zext (N : Nat) (v : Int) : Nat := uwrap N v

/-- `asr(v, k)` = floor(v / 2^k), for every k (00_scope R8). `Int.shiftRight` floors, and is evaluated without the
power 2^k, which a k near 2^32 would make too long to write. -/
def asr (v : Int) (k : Nat) : Int := v >>> k

/-- `shl_N(v, k)` = wrap_N(v * 2^k), which is 0 for k ≥ N (00_scope R8). -/
def shl (N : Nat) (v : Int) (k : Nat) : Int := if N ≤ k then 0 else wrap N (v * 2 ^ k)

/-- The complex product, exact (40_vector_arith R109). -/
def cmul (x y : Cplx) : Cplx := ⟨x.re * y.re - x.im * y.im, x.re * y.im + x.im * y.re⟩

/-- x times the conjugate of y, exact (40_vector_arith R109). -/
def ccmul (x y : Cplx) : Cplx := ⟨x.re * y.re + x.im * y.im, x.im * y.re - x.re * y.im⟩

end Sys2Proof.Machine
end

