-- ==== Sys2Proof/Machine/Ops.lean ====
section
/-! DEFINITION. The named operations over memory and registers, the buffer checks, and the one procedure every command
runs through, with its two ends: `raise` and `succeed` (00_scope R10 to R12; 20_memory; 60_exceptions). -/

namespace Sys2Proof.Machine

/-! ## Memory -/

/-- The byte at an address (20_memory R50). -/
def Memory.read : Memory → Nat → Byte
  | [], _ => Config.unlistedByte
  | (a', b') :: rest, a => if a = a' then b' else Memory.read rest a

/-- Store one byte, keeping the list canonical. -/
def Memory.write : Memory → Nat → Byte → Memory
  | [], a, b => if b = Config.unlistedByte then [] else [(a, b)]
  | (a', b') :: rest, a, b =>
    if a < a' then (if b = Config.unlistedByte then (a', b') :: rest else (a, b) :: (a', b') :: rest)
    else if a = a' then (if b = Config.unlistedByte then rest else (a, b) :: rest)
    else (a', b') :: Memory.write rest a b

/-- Store bytes at ascending addresses (20_memory R58). -/
def Memory.writeBytes : Memory → Nat → List Byte → Memory
  | m, _, [] => m
  | m, a, b :: bs => Memory.writeBytes (m.write a b) (a + 1) bs

/-- The n bytes at addresses a to a+n-1. -/
def Memory.readBytes (m : Memory) (a n : Nat) : List Byte := (List.range n).map fun j => m.read (a + j)

/-- The unsigned little-endian value of bytes (20_memory R52). -/
def leValue : List Byte → Nat
  | [] => 0
  | b :: bs => b.toNat + 256 * leValue bs

/-- `MemRead(addr, n)` (00_scope R10). -/
def Memory.memRead (m : Memory) (a n : Nat) : Nat := leValue (m.readBytes a n)

/-- The n bytes that `MemWrite(addr, n, v)` stores: byte j is (v >> 8j) mod 256 (00_scope R10). -/
def leBytes (n : Nat) (v : Int) : List Byte := (List.range n).map fun (j : Nat) => BitVec.ofInt 8 (asr v (8 * j))

/-- `MemWrite(addr, n, v)` (00_scope R10). -/
def Memory.memWrite (m : Memory) (a n : Nat) (v : Int) : Memory := m.writeBytes a (leBytes n v)

/-- Addresses strictly rise from one above `lo` on. -/
def Memory.risesFrom : Nat → Memory → Bool
  | _, [] => true
  | lo, (a, _) :: rest => lo ≤ a && Memory.risesFrom (a + 1) rest

/-- The canonical form: addresses strictly rising and below 2^32, no entry equal to an unlisted byte. -/
def Memory.wf (m : Memory) : Bool :=
  Memory.risesFrom 0 m && m.all fun c => c.1 < Config.addrSpace && c.2 != Config.unlistedByte

/-! ## Buffers -/

/-- `buf(a, n)`: the n bytes from address a on (20_memory R51). -/
structure Buf where
  addr : Nat
  size : Nat
  deriving DecidableEq, Repr

/-- An output buffer with the bytes a command writes to it. -/
structure OutBuf where
  buf : Buf
  data : List Byte
  deriving DecidableEq, Repr

/-- What one entry of the admitted set says of the range of n bytes at a. -/
def AdmitRange.admits : AdmitRange → Nat → Nat → Bool
  | .window lo hi, a, n => lo ≤ a && a + n ≤ hi
  | .exactly addr size, a, n => addr == a && size == n

/-- `P_MEM_ADMIT(a, n)` (00_scope R6). -/
def Platform.memAdmit (p : Platform) (a n : Nat) : Bool := p.admitted.any fun r => r.admits a n

/-- The buffer is not empty and runs past the top of the address space (20_memory R55). -/
def Buf.outOfRange (b : Buf) : Bool := 0 < b.size && Config.addrSpace < b.addr + b.size

/-- The buffer is not empty and the platform has not admitted it (20_memory R56). -/
def Buf.notAdmitted (p : Platform) (b : Buf) : Bool := 0 < b.size && !p.memAdmit b.addr b.size

/-- `CheckBuffers` (20_memory R68): the code it raises, every range before any admission. -/
def checkBuffers (p : Platform) (bs : List Buf) : Option ErrCode :=
  if bs.any Buf.outOfRange then some .range
  else if bs.any (Buf.notAdmitted p) then some .bus
  else none

/-! ## The two ends of a command, and the clearing of an error -/

/-- `raise Error(code)`: the one way an error is taken. Nothing but STATUS changes (00_scope R11, 60_exceptions R242). -/
def raise (code : ErrCode) (s : State) : State := { s with err := true, lastErr := code }

/-- `succeed` (00_scope R11): ERR stays as it was. -/
def succeed (s : State) : State := { s with lastErr := .ok }

/-- CTRL.CLRERR, the clearing of an error; the unit has no return from a trap (10_state R23, 60_exceptions R246). -/
def clearError (s : State) : State := { s with err := false, lastErr := .ok }

/-! ## The four phases of a command -/

/-- The writes of the commit phase: DST, then DST2 (20_memory R58). -/
def commit (m : Memory) : List OutBuf → Memory
  | [] => m
  | o :: rest => commit (m.writeBytes o.buf.addr o.data) rest

/-- The error a command reports, the first in the order of 60_exceptions R243 (after ERR_ILLEGAL, which no decoded
command raises): its own checks, its input buffers, its output buffers. -/
def firstError (p : Platform) (own : Option ErrCode) (ins outs : List Buf) : Option ErrCode :=
  match own with
  | some c => some c
  | none =>
    match checkBuffers p ins with
    | some c => some c
    | none => checkBuffers p outs

/-- Every command (00_scope R12): the checks; the outputs, which its meaning computes from the snapshot `s`; the writes
to memory; the register updates `upd`; `succeed`. -/
def runPhases (own : Option ErrCode) (ins : List Buf) (outs : List OutBuf) (upd : State → State) (s : State) : Result :=
  match firstError s.platform own ins (outs.map OutBuf.buf) with
  | some c => .next (raise c s)
  | none => .next (succeed (upd { s with mem := commit s.mem outs }))

/-! ## Reset -/

/-- The effect of a reset, soft or power-on, on a state (70 R270, R271): every piece of the unit's state; memory, the
platform and the host's side are not the unit's (70 R274). -/
def resetUnit (s : State) : State :=
  { State.reset with
    ctx := VitContext.reset (Config.freeMetrics s.freeCount)
    mem := s.mem
    platform := s.platform
    inputs := s.inputs
    pos := s.pos
    readData := s.readData
    freeCount := s.freeCount + 1 }

end Sys2Proof.Machine
end

