-- ==== Sys2Proof/Machine/Operands.lean ====
section
/-! DEFINITION. Operands: the registers a command reads (30_encoding R84), the element types (00_scope R9), the elements
of a buffer (20_memory R53) and the buffers of each operand form (30_encoding R83). -/

namespace Sys2Proof.Machine

/-! ## Registers, read unsigned and whole (30_encoding R84) -/

/-- L = u(x[LEN]) (10_state R27). -/
def State.opLen (s : State) : Nat := s.len.toNat

/-- k = u(x[SHIFT]) (10_state R28). -/
def State.opShift (s : State) : Nat := s.shift.toNat

/-- The buffer of n bytes at SRCA. -/
def State.bufA (s : State) (n : Nat) : Buf := ⟨s.srca.toNat, n⟩

/-- The buffer of n bytes at SRCB. -/
def State.bufB (s : State) (n : Nat) : Buf := ⟨s.srcb.toNat, n⟩

/-- The buffer of n bytes at DST. -/
def State.bufD (s : State) (n : Nat) : Buf := ⟨s.dst.toNat, n⟩

/-- The buffer of n bytes at DST2. -/
def State.bufD2 (s : State) (n : Nat) : Buf := ⟨s.dst2.toNat, n⟩

/-! ## Element types -/

/-- An element type: sz(T), how an element at an address is read, and the bytes its store writes. -/
structure ElemType (α : Type) where
  size : Nat
  load : Memory → Nat → α
  bytes : α → List Byte

/-- The scalar type of n bytes, signed and little-endian (20_memory R53). -/
def scalarType (n : Nat) : ElemType Int where
  size := n
  load := fun m e => sext (8 * n) (m.memRead e n)
  bytes := fun v => leBytes n v

/-- The complex type with components of n bytes, re first (20_memory R53). -/
def complexType (n : Nat) : ElemType Cplx where
  size := 2 * n
  load := fun m e => ⟨sext (8 * n) (m.memRead e n), sext (8 * n) (m.memRead (e + n) n)⟩
  bytes := fun v => leBytes n v.re ++ leBytes n v.im

/-- `int8` (00_scope R9). -/
def int8 : ElemType Int := scalarType 1

/-- `int16` (00_scope R9). -/
def int16 : ElemType Int := scalarType 2

/-- `int32` (00_scope R9). -/
def int32 : ElemType Int := scalarType 4

/-- `complex8` (00_scope R9). -/
def complex8 : ElemType Cplx := complexType 1

/-- `complex16` (00_scope R9). -/
def complex16 : ElemType Cplx := complexType 2

/-- `complex32` (00_scope R9). -/
def complex32 : ElemType Cplx := complexType 4

/-- `LoadElem_T(a, i)` (20_memory R53). -/
def loadElem {α : Type} (T : ElemType α) (m : Memory) (a i : Nat) : α := T.load m (a + i * T.size)

/-- Elements 0 to L-1 of the buffer at a. -/
def loadElems {α : Type} (T : ElemType α) (m : Memory) (a L : Nat) : List α :=
  (List.range L).map fun i => loadElem T m a i

/-- The bytes that `StoreElem_T` writes for elements 0, 1, 2, … in ascending order (20_memory R53, R58). -/
def storeBytes {α : Type} (T : ElemType α) (vs : List α) : List Byte := vs.flatMap T.bytes

/-- The output buffer at DST for elements of type T. -/
def State.outD {α : Type} (s : State) (T : ElemType α) (vs : List α) (L : Nat) : OutBuf :=
  ⟨s.bufD (L * T.size), storeBytes T vs⟩

/-- The output buffer at DST2 for elements of type T. -/
def State.outD2 {α : Type} (s : State) (T : ElemType α) (vs : List α) (L : Nat) : OutBuf :=
  ⟨s.bufD2 (L * T.size), storeBytes T vs⟩

/-- x[NAME] <- uwrap_32(v) (00_scope R8, R10). -/
def wordOf (v : Int) : Word := BitVec.ofInt 32 v

/-! ## The elementwise procedure (40_vector_arith R100) -/

/-- `ELEMWISE(Ti, To, 2, f)`. -/
def elemwise2 {α β : Type} (Ti : ElemType α) (To : ElemType β) (f : α → α → Nat → β) (s : State) : Result :=
  let L := s.opLen
  runPhases none [s.bufA (L * Ti.size), s.bufB (L * Ti.size)]
    [s.outD To ((List.range L).map fun i =>
      f (loadElem Ti s.mem s.srca.toNat i) (loadElem Ti s.mem s.srcb.toNat i) s.opShift) L]
    id s

/-- `ELEMWISE(Ti, To, 1, f)`. -/
def elemwise1 {α β : Type} (Ti : ElemType α) (To : ElemType β) (f : α → Nat → β) (s : State) : Result :=
  let L := s.opLen
  runPhases none [s.bufA (L * Ti.size)]
    [s.outD To ((List.range L).map fun i => f (loadElem Ti s.mem s.srca.toNat i) s.opShift) L]
    id s

/-- The sum of all elements, in an accumulator of the element's type (40_vector_arith R115 to R118): `zero` and `add`
are those of the type, `res` gives the two result registers. -/
def sumElems {α : Type} (T : ElemType α) (zero : α) (add : α → α → α) (res : α → Word × Word) (s : State) : Result :=
  let r := res ((loadElems T s.mem s.srca.toNat s.opLen).foldl add zero)
  runPhases none [s.bufA (s.opLen * T.size)] [] (fun t => { t with res0 := r.1, res1 := r.2 }) s

/-- The 4-element horizontal add, its total in every lane (40_vector_arith R119, R120). LEN is not read. -/
def haddElems {α : Type} (T : ElemType α) (total : α → α → α → α → α) (s : State) : Result :=
  let x := fun i => loadElem T s.mem s.srca.toNat i
  let t := total (x 0) (x 1) (x 2) (x 3)
  runPhases none [s.bufA (4 * T.size)] [s.outD T [t, t, t, t] 4] id s

end Sys2Proof.Machine
end

