-- ==== Sys2Proof/Machine/Bitwise.lean ====
section
/-! DEFINITION. Family BL, bitwise vector logic (41_bitwise). The fast paths of 41_bitwise R179 cannot be seen, so no
length is special. -/

namespace Sys2Proof.Machine

/-- NB = ceil(L/8) bytes (41_bitwise R170). -/
def byteCount (bits : Nat) : Nat := (bits + 7) / 8

/-- A byte function over n byte pairs from SRCA and SRCB, to DST. -/
def bytewise (n : Nat) (g : Byte → Byte → Byte) (s : State) : Result :=
  runPhases none [s.bufA n, s.bufB n]
    [⟨s.bufD n, (List.range n).map fun j => g (s.mem.read (s.srca.toNat + j)) (s.mem.read (s.srcb.toNat + j))⟩] id s

/-- `BITWISE(g)`: LEN counts bits (41_bitwise R170). -/
def bitwiseLen (g : Byte → Byte → Byte) (s : State) : Result := bytewise (byteCount s.opLen) g s

/-- `BYTE1(g)`: one byte, LEN not read (41_bitwise, 8-bit forms). -/
def bitwiseOne (g : Byte → Byte → Byte) (s : State) : Result := bytewise 1 g s

/-- VAND (41_bitwise R171). -/
def execVand (s : State) : Result := bitwiseLen (fun a b => a &&& b) s

/-- VOR (41_bitwise R172). -/
def execVor (s : State) : Result := bitwiseLen (fun a b => a ||| b) s

/-- VXOR (41_bitwise R173). -/
def execVxor (s : State) : Result := bitwiseLen (fun a b => a ^^^ b) s

/-- VANDN (41_bitwise R174): b is inverted. -/
def execVandn (s : State) : Result := bitwiseLen (fun a b => a &&& ~~~b) s

/-- VAND8 (41_bitwise R175). -/
def execVand8 (s : State) : Result := bitwiseOne (fun a b => a &&& b) s

/-- VOR8 (41_bitwise R176). -/
def execVor8 (s : State) : Result := bitwiseOne (fun a b => a ||| b) s

/-- VXOR8 (41_bitwise R177). -/
def execVxor8 (s : State) : Result := bitwiseOne (fun a b => a ^^^ b) s

/-- VANDN8 (41_bitwise R178): b is inverted. -/
def execVandn8 (s : State) : Result := bitwiseOne (fun a b => a &&& ~~~b) s

end Sys2Proof.Machine
end

