-- ==== Sys2Proof/Machine/Fft.lean ====
section
/-! DEFINITION. Family FT, the transform dispatcher (42_fft). The engines are the opaque `Config.fft`. -/

namespace Sys2Proof.Machine

/-- A complex16 element of a buffer, as the 16-bit components the engines take. -/
def loadC16 (m : Memory) (a i : Nat) : C16 :=
  ⟨BitVec.ofNat 16 (m.memRead (a + i * 4) 2), BitVec.ofNat 16 (m.memRead (a + i * 4 + 2) 2)⟩

/-- A transform of LEN elements from SRCA to DST; the size is checked before any buffer (42_fft R192, R194). -/
def transform (dir : FftDir) (s : State) : Result :=
  let n := s.opLen
  let ys := Config.fft dir n fun j => loadC16 s.mem s.srca.toNat j.val
  runPhases (if inCatalog n then none else some .fftSize) [s.bufA (n * complex16.size)]
    [s.outD complex16 ((List.finRange n).map fun j => (ys j).toCplx) n] id s

/-- FFT.C16 (42_fft R192). -/
def execFftC16 (s : State) : Result := transform .fwd s

/-- IFFT.C16 (42_fft R193). -/
def execIfftC16 (s : State) : Result := transform .inv s

end Sys2Proof.Machine
end

