-- ==== Sys2Proof/Machine/Vector.lean ====
section
/-! DEFINITION. Family VA, vector arithmetic (40_vector_arith). -/

namespace Sys2Proof.Machine

/-! ## add and sub -/

/-- VADD.I16 (40_vector_arith R101). -/
def execVaddI16 (s : State) : Result := elemwise2 int16 int16 (fun a b _ => wrap 16 (a + b)) s

/-- VADD.I32 (40_vector_arith R102). -/
def execVaddI32 (s : State) : Result := elemwise2 int32 int32 (fun a b _ => wrap 32 (a + b)) s

/-- VADD.C16 (40_vector_arith R103). -/
def execVaddC16 (s : State) : Result := elemwise2 complex16 complex16 (fun a b _ => (a.add b).map (wrap 16)) s

/-- VADD.C32 (40_vector_arith R104). -/
def execVaddC32 (s : State) : Result := elemwise2 complex32 complex32 (fun a b _ => (a.add b).map (wrap 32)) s

/-- VSUB.I16 (40_vector_arith R105). -/
def execVsubI16 (s : State) : Result := elemwise2 int16 int16 (fun a b _ => wrap 16 (a - b)) s

/-- VSUB.I32 (40_vector_arith R106). -/
def execVsubI32 (s : State) : Result := elemwise2 int32 int32 (fun a b _ => wrap 32 (a - b)) s

/-- VSUB.C16 (40_vector_arith R107). -/
def execVsubC16 (s : State) : Result := elemwise2 complex16 complex16 (fun a b _ => (a.sub b).map (wrap 16)) s

/-- VSUB.C32 (40_vector_arith R108). -/
def execVsubC32 (s : State) : Result := elemwise2 complex32 complex32 (fun a b _ => (a.sub b).map (wrap 32)) s

/-! ## multiply: the exact product is shifted, then wrapped (40_vector_arith R131) -/

/-- Shift right arithmetically, then wrap to N bits. -/
def shiftWrap (N k : Nat) (v : Int) : Int := wrap N (asr v k)

/-- VMUL.C16 (40_vector_arith R110). -/
def execVmulC16 (s : State) : Result :=
  elemwise2 complex16 complex16 (fun x y k => (cmul x y).map (shiftWrap 16 k)) s

/-- VMUL.C32 (40_vector_arith R111). -/
def execVmulC32 (s : State) : Result :=
  elemwise2 complex32 complex32 (fun x y k => (cmul x y).map (shiftWrap 32 k)) s

/-- VCMUL.C16 (40_vector_arith R112). -/
def execVcmulC16 (s : State) : Result :=
  elemwise2 complex16 complex16 (fun x y k => (ccmul x y).map (shiftWrap 16 k)) s

/-- VCMUL.C32 (40_vector_arith R113). -/
def execVcmulC32 (s : State) : Result :=
  elemwise2 complex32 complex32 (fun x y k => (ccmul x y).map (shiftWrap 32 k)) s

/-- VCMULW.C16 (40_vector_arith R114): re to DST, im to DST2, as int32, unshifted. -/
def execVcmulwC16 (s : State) : Result :=
  let L := s.opLen
  let q := fun i => ccmul (loadElem complex16 s.mem s.srca.toNat i) (loadElem complex16 s.mem s.srcb.toNat i)
  runPhases none [s.bufA (L * complex16.size), s.bufB (L * complex16.size)]
    [s.outD int32 ((List.range L).map fun i => wrap 32 (q i).re) L,
     s.outD2 int32 ((List.range L).map fun i => wrap 32 (q i).im) L]
    id s

/-! ## sum and hadd -/

/-- RES0 and RES1 of a scalar sum (40_vector_arith R115). -/
def scalarResult (acc : Int) : Word × Word := (wordOf acc, 0)

/-- RES0 and RES1 of a complex sum (40_vector_arith R117). -/
def complexResult (acc : Cplx) : Word × Word := (wordOf acc.re, wordOf acc.im)

/-- VSUM.I16 (40_vector_arith R115). -/
def execVsumI16 (s : State) : Result := sumElems int16 0 (fun acc x => wrap 16 (acc + x)) scalarResult s

/-- VSUM.I32 (40_vector_arith R116). -/
def execVsumI32 (s : State) : Result := sumElems int32 0 (fun acc x => wrap 32 (acc + x)) scalarResult s

/-- VSUM.C16 (40_vector_arith R117). -/
def execVsumC16 (s : State) : Result :=
  sumElems complex16 ⟨0, 0⟩ (fun acc x => (acc.add x).map (wrap 16)) complexResult s

/-- VSUM.C32 (40_vector_arith R118). -/
def execVsumC32 (s : State) : Result :=
  sumElems complex32 ⟨0, 0⟩ (fun acc x => (acc.add x).map (wrap 32)) complexResult s

/-- VHADD.I32 (40_vector_arith R119). -/
def execVhaddI32 (s : State) : Result := haddElems int32 (fun a b c d => wrap 32 (a + b + c + d)) s

/-- VHADD.C16 (40_vector_arith R120). -/
def execVhaddC16 (s : State) : Result :=
  haddElems complex16 (fun a b c d => (((a.add b).add c).add d).map (wrap 16)) s

/-! ## shifts -/

/-- VSHL.I16 (40_vector_arith R121). -/
def execVshlI16 (s : State) : Result := elemwise1 int16 int16 (fun x k => shl 16 x k) s

/-- VSHL.I32 (40_vector_arith R122). -/
def execVshlI32 (s : State) : Result := elemwise1 int32 int32 (fun x k => shl 32 x k) s

/-- VSHL.C16 (40_vector_arith R123). -/
def execVshlC16 (s : State) : Result := elemwise1 complex16 complex16 (fun x k => x.map fun v => shl 16 v k) s

/-- VSHL.C32 (40_vector_arith R124). -/
def execVshlC32 (s : State) : Result := elemwise1 complex32 complex32 (fun x k => x.map fun v => shl 32 v k) s

/-- VSHR.I16 (40_vector_arith R125). -/
def execVshrI16 (s : State) : Result := elemwise1 int16 int16 (fun x k => asr x k) s

/-- VSHR.I32 (40_vector_arith R126). -/
def execVshrI32 (s : State) : Result := elemwise1 int32 int32 (fun x k => asr x k) s

/-- VSHR.C16 (40_vector_arith R127). -/
def execVshrC16 (s : State) : Result := elemwise1 complex16 complex16 (fun x k => x.map fun v => asr v k) s

/-- VSHR.C32 (40_vector_arith R128). -/
def execVshrC32 (s : State) : Result := elemwise1 complex32 complex32 (fun x k => x.map fun v => asr v k) s

/-! ## pack and cast -/

/-- VPACK.C16 (40_vector_arith R129). -/
def execVpackC16 (s : State) : Result := elemwise1 complex16 complex8 (fun x _ => x.map (sat 8)) s

/-- VCAST.C8 (40_vector_arith R130): the bytes of LEN complex8 elements, as they are. -/
def execVcastC8 (s : State) : Result :=
  let n := 2 * s.opLen
  runPhases none [s.bufA n] [⟨s.bufD n, s.mem.readBytes s.srca.toNat n⟩] id s

end Sys2Proof.Machine
end

