-- ==== Sys2Proof/Machine/Viterbi.lean ====
section
/-! DEFINITION. Family VD, the Viterbi decoder (43_viterbi). The trellis is the opaque `Config.vitInit` and
`Config.vitStep`. -/

namespace Sys2Proof.Machine

/-- Whether an identifier is in `P_VIT_RATES`, which never contains 0 (43_viterbi R212). -/
def Platform.acceptsRate (p : Platform) (r : Word) : Bool := r != 0 && p.rates.contains r

/-- The checks of an init (43_viterbi R212): the rate, then the frame length. -/
def vitInitCheck (s : State) : Option ErrCode :=
  if !s.platform.acceptsRate s.arg then some .vitRate
  else if s.opLen = 0 then some .vitFrame
  else none

/-- Whether a context was set by VIT.INITSIG (10_state R24). -/
def isSig : VitVariant → Bool
  | .generic => false
  | .sig => true

/-- The context at the start of a frame (43_viterbi R213, R214). -/
def vitFrameStart (v : VitVariant) (s : State) : VitContext where
  vstate := .ready
  vsig := isSig v
  frameLength := s.len
  consumed := 0
  rate := s.arg
  metrics := Config.vitInit v s.arg s.opLen

/-- An init of either variant; it is accepted in every state and replaces the whole context (43_viterbi R222). -/
def vitInitFrame (v : VitVariant) (s : State) : Result :=
  runPhases (vitInitCheck s) [] [] (fun t => { t with ctx := vitFrameStart v s }) s

/-- VIT.INIT (43_viterbi R213). -/
def execVitInit (s : State) : Result := vitInitFrame .generic s

/-- VIT.INITSIG (43_viterbi R214). -/
def execVitInitsig (s : State) : Result := vitInitFrame .sig s

/-- `pack8(bits, t)`: byte t of the packed bits, least significant bit first, unused bits 0 (43_viterbi R217). -/
def pack8 (bits : List Bool) (t : Nat) : Byte :=
  BitVec.ofNat 8 (((List.range 8).map fun i => if bits.getD (8 * t + i) false then 2 ^ i else 0).sum)

/-- The packed bytes of the decoded bits, ceil(nb/8) of them (43_viterbi R217). -/
def packBits (bits : List Bool) : List Byte := (List.range (byteCount bits.length)).map (pack8 bits)

/-- The checks of VIT.DECODE (43_viterbi R215): the state, then the frame's length, in exact integers. -/
def vitDecodeCheck (s : State) : Option ErrCode :=
  if s.ctx.vstate = .uninitialized ∨ s.ctx.vstate = .terminal then some .vitState
  else if s.ctx.frameLength.toNat < s.ctx.consumed.toNat + s.opLen then some .vitOverrun
  else none

/-- The variant that set a context (43_viterbi R215). -/
def VitContext.variant (c : VitContext) : VitVariant := if c.vsig then .sig else .generic

/-- The symbols of a chunk: L signed bytes from SRCA on (43_viterbi R216). -/
def vitSymbols (s : State) : List Int := loadElems int8 s.mem s.srca.toNat s.opLen

/-- The new metrics and the bits that a chunk releases (43_viterbi R215, R219). -/
def vitChunk (s : State) : Metrics × List Bool :=
  Config.vitStep s.ctx.variant s.ctx.rate s.ctx.frameLength.toNat s.ctx.consumed.toNat s.ctx.metrics (vitSymbols s)

/-- The context after a chunk of LEN symbols (43_viterbi R215). -/
def vitContextAfter (s : State) : VitContext :=
  let consumed := s.ctx.consumed + s.len
  { s.ctx with
    metrics := (vitChunk s).1
    consumed := consumed
    vstate := if consumed = s.ctx.frameLength then .terminal else .decoding }

/-- VIT.DECODE (43_viterbi R215). An empty chunk only clears RES0 and RES1 (43_viterbi R225). -/
def execVitDecode (s : State) : Result :=
  if s.opLen = 0 then
    runPhases (vitDecodeCheck s) [] [] (fun t => { t with res0 := 0, res1 := 0 }) s
  else
    let bits := (vitChunk s).2
    runPhases (vitDecodeCheck s) [s.bufA s.opLen] [⟨s.bufD (byteCount bits.length), packBits bits⟩]
      (fun t => { t with ctx := vitContextAfter s, res0 := BitVec.ofNat 32 bits.length, res1 := 0 }) s

end Sys2Proof.Machine
end

