-- ==== Sys2Proof/Machine/Dispatch.lean ====
section
/-! DEFINITION. One arm per command (30_encoding R82), each a direct call of its meaning. -/

namespace Sys2Proof.Machine

def exec (i : Instr) (s : State) : Host.Outcome State Fault Refusal :=
  match i with
  | .vaddI16 => Sys2Proof.Machine.execVaddI16 s
  | .vaddI32 => Sys2Proof.Machine.execVaddI32 s
  | .vaddC16 => Sys2Proof.Machine.execVaddC16 s
  | .vaddC32 => Sys2Proof.Machine.execVaddC32 s
  | .vsubI16 => Sys2Proof.Machine.execVsubI16 s
  | .vsubI32 => Sys2Proof.Machine.execVsubI32 s
  | .vsubC16 => Sys2Proof.Machine.execVsubC16 s
  | .vsubC32 => Sys2Proof.Machine.execVsubC32 s
  | .vmulC16 => Sys2Proof.Machine.execVmulC16 s
  | .vmulC32 => Sys2Proof.Machine.execVmulC32 s
  | .vcmulC16 => Sys2Proof.Machine.execVcmulC16 s
  | .vcmulC32 => Sys2Proof.Machine.execVcmulC32 s
  | .vcmulwC16 => Sys2Proof.Machine.execVcmulwC16 s
  | .vsumI16 => Sys2Proof.Machine.execVsumI16 s
  | .vsumI32 => Sys2Proof.Machine.execVsumI32 s
  | .vsumC16 => Sys2Proof.Machine.execVsumC16 s
  | .vsumC32 => Sys2Proof.Machine.execVsumC32 s
  | .vhaddI32 => Sys2Proof.Machine.execVhaddI32 s
  | .vhaddC16 => Sys2Proof.Machine.execVhaddC16 s
  | .vshlI16 => Sys2Proof.Machine.execVshlI16 s
  | .vshlI32 => Sys2Proof.Machine.execVshlI32 s
  | .vshlC16 => Sys2Proof.Machine.execVshlC16 s
  | .vshlC32 => Sys2Proof.Machine.execVshlC32 s
  | .vshrI16 => Sys2Proof.Machine.execVshrI16 s
  | .vshrI32 => Sys2Proof.Machine.execVshrI32 s
  | .vshrC16 => Sys2Proof.Machine.execVshrC16 s
  | .vshrC32 => Sys2Proof.Machine.execVshrC32 s
  | .vpackC16 => Sys2Proof.Machine.execVpackC16 s
  | .vcastC8 => Sys2Proof.Machine.execVcastC8 s
  | .vand => Sys2Proof.Machine.execVand s
  | .vor => Sys2Proof.Machine.execVor s
  | .vxor => Sys2Proof.Machine.execVxor s
  | .vandn => Sys2Proof.Machine.execVandn s
  | .vand8 => Sys2Proof.Machine.execVand8 s
  | .vor8 => Sys2Proof.Machine.execVor8 s
  | .vxor8 => Sys2Proof.Machine.execVxor8 s
  | .vandn8 => Sys2Proof.Machine.execVandn8 s
  | .fftC16 => Sys2Proof.Machine.execFftC16 s
  | .ifftC16 => Sys2Proof.Machine.execIfftC16 s
  | .vitInit => Sys2Proof.Machine.execVitInit s
  | .vitInitsig => Sys2Proof.Machine.execVitInitsig s
  | .vitDecode => Sys2Proof.Machine.execVitDecode s

end Sys2Proof.Machine
end

