-- ==== Sys2Proof/Machine/Flags.lean ====
section
/-! DEFINITION. STATUS and its fields (10_state R24, R36; 60_exceptions R240). The unit has no condition codes. -/

namespace Sys2Proof.Machine

/-- The 8-bit value of a code (60_exceptions R240). -/
def ErrCode.byte : ErrCode → BitVec 8
  | .ok => 0x00
  | .illegal => 0x01
  | .range => 0x02
  | .bus => 0x03
  | .fftSize => 0x10
  | .vitState => 0x20
  | .vitOverrun => 0x21
  | .vitRate => 0x22
  | .vitFrame => 0x23

/-- The 2-bit value of VSTATE (10_state R36). -/
def VState.bits : VState → BitVec 2
  | .uninitialized => 0
  | .ready => 1
  | .decoding => 2
  | .terminal => 3

/-- STATUS: [31:19] 0, [18] VSIG, [17:16] VSTATE, [15:8] LASTERR, [7:1] 0, [0] ERR (10_state R24). -/
def statusWord (s : State) : Word :=
  0#13 ++ BitVec.ofBool s.ctx.vsig ++ s.ctx.vstate.bits ++ s.lastErr.byte ++ 0#7 ++ BitVec.ofBool s.err

end Sys2Proof.Machine
end

