-- ==== Sys2Proof/Machine/HostPort.lean ====
section
/-! DEFINITION. The host register port (10_state R21 to R35). -/

namespace Sys2Proof.Machine

/-- `P_BASE` (00_scope R6). -/
def Platform.base (p : Platform) : Nat := 256 * p.basePage

/-- The offset in the block of an access, or why the spec has no step for it (10_state R33; log 14). -/
def blockOffset (base addr : Nat) (size : AccessSize) : Except Refusal Nat :=
  if !insideBlock base addr then .error .outsideBlock
  else if !sizeIsWord size then .error .subWordAccess
  else if !wordAligned base addr then .error .misalignedAccess
  else .ok (addr - base)

/-- The value a read of the block returns; reserved offsets and CTRL read 0 (10_state R21, R23, R32). -/
def readReg (s : State) (off : Nat) : Word :=
  match off with
  | 0x00 => Config.idValue
  | 0x04 => 0
  | 0x08 => statusWord s
  | 0x0C => s.cmd
  | 0x10 => s.srca
  | 0x14 => s.srcb
  | 0x18 => s.dst
  | 0x1C => s.dst2
  | 0x20 => s.len
  | 0x24 => s.shift
  | 0x28 => s.arg
  | 0x2C => s.res0
  | 0x30 => s.res1
  | 0x34 => s.ctx.frameLength
  | 0x38 => s.ctx.consumed
  | 0x3C => s.ctx.rate
  | _ => 0

/-- A write of CTRL: SRST wins over CLRERR (10_state R23). -/
def writeCtrl (v : Word) (s : State) : State :=
  if v.getLsbD 0 then resetUnit s
  else if v.getLsbD 1 then clearError s
  else s

/-- A write of a register other than CMD; read-only registers and reserved offsets ignore it (10_state R21, R32). -/
def writeReg (s : State) (off : Nat) (v : Word) : State :=
  match off with
  | 0x04 => writeCtrl v s
  | 0x10 => { s with srca := v }
  | 0x14 => { s with srcb := v }
  | 0x18 => { s with dst := v }
  | 0x1C => { s with dst2 := v }
  | 0x20 => { s with len := v }
  | 0x24 => { s with shift := v }
  | 0x28 => { s with arg := v }
  | _ => s

/-- The offset of CMD (10_state R21). -/
def cmdOffset : Nat := 0x0C

/-- A read answers the host; it has no side effect on the unit (10_state R35). -/
def returnToHost (s : State) (v : Word) : State := { s with readData := s.readData ++ [v] }

end Sys2Proof.Machine
end

