-- ==== Sys2Proof/Machine/Command.lean ====
section
/-! DEFINITION. What one input does: a CMD write runs a command, every other access is the port's or the platform's
(10_state R25; 20_memory R64; 70 R282). -/

namespace Sys2Proof.Machine

/-- A write of c to CMD: CMD holds c, legal or not; then the command it decodes to runs, or ERR_ILLEGAL is raised
(10_state R25, 30_encoding R85). -/
def writeCmd (c : Word) (s : State) : Result :=
  let s1 := { s with cmd := c }
  match decode c with
  | .ok i => exec i s1
  | .error _ => .next (raise .illegal s1)

/-- The effect of one input. DESIGN CHOICE (log 22, unsafe): a `loadMem` or `storeMem` at an address of the block,
`P_BASE` to `P_BASE` + 255, is served from memory like any other; the spec does not say whether memory lies there. -/
def perform (a : Input) (s : State) : Result :=
  match a with
  | .readBlock addr size =>
    match blockOffset s.platform.base addr size with
    | .ok off => .next (returnToHost s (readReg s off))
    | .error r => .refused r
  | .writeBlock addr size v =>
    match blockOffset s.platform.base addr size with
    | .ok off => if off = cmdOffset then writeCmd v s else .next (writeReg s off v)
    | .error r => .refused r
  | .loadMem addr => .next (returnToHost s ((s.mem.read addr.toNat).setWidth 32))
  | .storeMem addr b => .next { s with mem := s.mem.write addr.toNat b }
  | .powerOnReset => .next (resetUnit s)

/-- The next input of the launch (10_state R20). -/
def nextInput (s : State) : Option Input := s.inputs[s.pos]?

/-- The position moves past one input (10_state R20). -/
def advance (s : State) : State := { s with pos := s.pos + 1 }

/-- The input that writes a command word to CMD. -/
def cmdWrite (p : Platform) (c : Word) : Input := .writeBlock (p.base + cmdOffset) .word c

/-- Put an input where the next step takes its input from. -/
def placeInput (s : State) (a : Input) : State :=
  { s with
    inputs := s.inputs.take s.pos ++ a :: s.inputs.drop (s.pos + 1)
    pos := (s.inputs.take s.pos).length }

/-- The start of a launch: reset, with the platform, the memory and the host's accesses given (70 R273). -/
def launch (p : Platform) (m : Memory) (inputs : List Input) : State :=
  { State.reset with platform := p, mem := m, inputs := inputs }

end Sys2Proof.Machine
end

