-- ==== Sys2Proof/Machine/Step.lean ====
section
/-! DEFINITION. One step: the next input takes effect (70 R282). -/

namespace Sys2Proof.Machine

/-- One step. With no input left the unit is idle and keeps all its state (60_exceptions R254; log 12). -/
def step (s : State) : Result :=
  match nextInput s with
  | some a => perform a (advance s)
  | none => .next s

/-- The state with a command word as the host's next access: the unit fetches nothing from memory (20_memory R66), its
commands are the host's CMD writes (10_state R20; log 1). -/
def State.withFetchWord (s : State) (nbits w : Nat) : State :=
  placeInput s (cmdWrite s.platform (BitVec.ofNat 32 (w % 2 ^ nbits)))

end Sys2Proof.Machine
end

