-- ==== Sys2Proof/Machine/Program.lean ====
section
/-! DEFINITION. Host programs: the statements of the assembly, their encoding as accesses, the pseudo-instructions, and
a run (30_encoding R87 to R89; 70 R273, R282). The text of a statement is Machine/Assembly.lean. -/

namespace Sys2Proof.Machine

/-- The sixteen registers of the block (10_state R21). -/
inductive RegName where
  | id
  | ctrl
  | status
  | cmd
  | srca
  | srcb
  | dst
  | dst2
  | len
  | shift
  | arg
  | res0
  | res1
  | vframe
  | vcons
  | vrate
  deriving DecidableEq, Repr

/-- The byte offset of a register in the block (10_state R21). -/
def RegName.offset : RegName → Nat
  | .id => 0x00
  | .ctrl => 0x04
  | .status => 0x08
  | .cmd => 0x0C
  | .srca => 0x10
  | .srcb => 0x14
  | .dst => 0x18
  | .dst2 => 0x1C
  | .len => 0x20
  | .shift => 0x24
  | .arg => 0x28
  | .res0 => 0x2C
  | .res1 => 0x30
  | .vframe => 0x34
  | .vcons => 0x38
  | .vrate => 0x3C

/-- A statement of a host program (30_encoding R87). -/
inductive HostStmt where
  /-- `wr NAME, v` -/
  | wr (r : RegName) (v : Word)
  /-- `rd NAME` -/
  | rd (r : RegName)
  /-- A bare mnemonic: `wr CMD`, the command's word. -/
  | command (i : Instr)
  deriving DecidableEq, Repr

/-- The access that a statement is: W(off, v) or R(off) (30_encoding R89). -/
def HostStmt.access (p : Platform) : HostStmt → Input
  | .wr r v => .writeBlock (p.base + r.offset) .word v
  | .rd r => .readBlock (p.base + r.offset) .word
  | .command i => .writeBlock (p.base + RegName.cmd.offset) .word (encode i)

/-- A host program as the accesses it is encoded as (30_encoding R89). -/
def encodeProgram (p : Platform) (prog : List HostStmt) : List Input := prog.map (HostStmt.access p)

/-- The value of a decimal literal of the assembly: -n stands for uwrap_32(-n) (30_encoding R87). -/
def literal (v : Int) : Word := wordOf v

/-- The registers that a pseudo-instruction writes, in the order of its operands (30_encoding R88). -/
def pseudoOperands : Instr → List RegName
  | .vaddI16 | .vaddI32 | .vaddC16 | .vaddC32 | .vsubI16 | .vsubI32 | .vsubC16 | .vsubC32 => [.dst, .srca, .srcb, .len]
  | .vmulC16 | .vmulC32 | .vcmulC16 | .vcmulC32 => [.dst, .srca, .srcb, .len, .shift]
  | .vcmulwC16 => [.dst, .dst2, .srca, .srcb, .len]
  | .vsumI16 | .vsumI32 | .vsumC16 | .vsumC32 => [.srca, .len]
  | .vhaddI32 | .vhaddC16 => [.dst, .srca]
  | .vshlI16 | .vshlI32 | .vshlC16 | .vshlC32 | .vshrI16 | .vshrI32 | .vshrC16 | .vshrC32 => [.dst, .srca, .len, .shift]
  | .vpackC16 | .vcastC8 => [.dst, .srca, .len]
  | .vand | .vor | .vxor | .vandn => [.dst, .srca, .srcb, .len]
  | .vand8 | .vor8 | .vxor8 | .vandn8 => [.dst, .srca, .srcb]
  | .fftC16 | .ifftC16 => [.dst, .srca, .len]
  | .vitInit | .vitInitsig => [.len, .arg]
  | .vitDecode => [.dst, .srca, .len]

/-- A pseudo-instruction with operands: the writes in order, then the command (30_encoding R88). -/
def pseudo (i : Instr) (operands : List Word) : List HostStmt :=
  List.zipWith HostStmt.wr (pseudoOperands i) operands ++ [.command i]

/-- `srst` (30_encoding R88). -/
def srstStmt : HostStmt := .wr .ctrl 1

/-- `clrerr` (30_encoding R88). -/
def clrerrStmt : HostStmt := .wr .ctrl 2

/-- `status` (30_encoding R88). -/
def statusStmt : HostStmt := .rd .status

/-- The steps of a run, one after another, up to the first that is refused (70 R282). -/
def runSteps : Nat → State → Result
  | 0, s => .next s
  | k + 1, s =>
    match step s with
    | .next t => runSteps k t
    | r => r

/-- A run: every access of the host, in order (70 R273, R282). -/
def runAll (s : State) : Result := runSteps (s.inputs.length - s.pos) s

end Sys2Proof.Machine
end

