-- ==== Sys2Proof/Machine/Assembly.lean ====
section
/-! DEFINITION. The text of the assembly: one statement on each line, comments, letter case, values (30_encoding R87), and
the pseudo-instructions (R88). What the spec leaves open of the text (blanks, the case of a register's name) is log 19. -/

namespace Sys2Proof.Machine

/-- The mnemonics of family VA as the assembly spells them (30_encoding R82, R87). -/
def asmVector : List (String × Instr) := [
  ("vadd.i16", .vaddI16), ("vadd.i32", .vaddI32), ("vadd.c16", .vaddC16), ("vadd.c32", .vaddC32),
  ("vsub.i16", .vsubI16), ("vsub.i32", .vsubI32), ("vsub.c16", .vsubC16), ("vsub.c32", .vsubC32),
  ("vmul.c16", .vmulC16), ("vmul.c32", .vmulC32), ("vcmul.c16", .vcmulC16), ("vcmul.c32", .vcmulC32),
  ("vcmulw.c16", .vcmulwC16), ("vsum.i16", .vsumI16), ("vsum.i32", .vsumI32), ("vsum.c16", .vsumC16),
  ("vsum.c32", .vsumC32), ("vhadd.i32", .vhaddI32), ("vhadd.c16", .vhaddC16), ("vshl.i16", .vshlI16),
  ("vshl.i32", .vshlI32), ("vshl.c16", .vshlC16), ("vshl.c32", .vshlC32), ("vshr.i16", .vshrI16),
  ("vshr.i32", .vshrI32), ("vshr.c16", .vshrC16), ("vshr.c32", .vshrC32), ("vpack.c16", .vpackC16),
  ("vcast.c8", .vcastC8)]

/-- The mnemonics of the other families (30_encoding R82, R87). -/
def asmOther : List (String × Instr) := [
  ("vand", .vand), ("vor", .vor), ("vxor", .vxor), ("vandn", .vandn), ("vand8", .vand8), ("vor8", .vor8),
  ("vxor8", .vxor8), ("vandn8", .vandn8), ("fft.c16", .fftC16), ("ifft.c16", .ifftC16), ("vit.init", .vitInit),
  ("vit.initsig", .vitInitsig), ("vit.decode", .vitDecode)]

/-- Every command's mnemonic in lower case. -/
def asmCommands : List (String × Instr) := asmVector ++ asmOther

/-- The registers' names (10_state R21). -/
def asmRegisters : List (String × RegName) := [
  ("ID", .id), ("CTRL", .ctrl), ("STATUS", .status), ("CMD", .cmd), ("SRCA", .srca), ("SRCB", .srcb), ("DST", .dst),
  ("DST2", .dst2), ("LEN", .len), ("SHIFT", .shift), ("ARG", .arg), ("RES0", .res0), ("RES1", .res1),
  ("VFRAME", .vframe), ("VCONS", .vcons), ("VRATE", .vrate)]

/-- The entry of a table under a name. -/
def lookupName {α : Type} (table : List (String × α)) (name : List Char) : Option α :=
  (table.find? fun e => e.1.toList == name).map Prod.snd

/-- A blank within a line. -/
def isBlank (c : Char) : Bool := c == ' ' || c == '\t'

/-- The text without the blanks at its two ends. -/
def trimText (cs : List Char) : List Char := ((cs.dropWhile isBlank).reverse.dropWhile isBlank).reverse

/-- The parts of the text between commas, trimmed. -/
def splitCommas : List Char → List (List Char)
  | [] => [[]]
  | ',' :: cs => [] :: splitCommas cs
  | c :: cs =>
    match splitCommas cs with
    | part :: parts => (c :: part) :: parts
    | [] => [[c]]

/-- The value of one digit. -/
def digitValue (c : Char) : Option Nat :=
  if '0' ≤ c ∧ c ≤ '9' then some (c.toNat - '0'.toNat)
  else if 'a' ≤ c ∧ c ≤ 'f' then some (c.toNat - 'a'.toNat + 10)
  else if 'A' ≤ c ∧ c ≤ 'F' then some (c.toNat - 'A'.toNat + 10)
  else none

/-- The value of digits in a base, after those already read. -/
def digitsValue (base : Nat) : Nat → List Char → Option Nat
  | acc, [] => some acc
  | acc, c :: cs =>
    match digitValue c with
    | some d => if d < base then digitsValue base (acc * base + d) cs else none
    | none => none

/-- A number in a base, of at least one digit. -/
def readNat (base : Nat) (cs : List Char) : Option Nat := if cs = [] then none else digitsValue base 0 cs

/-- A value: hexadecimal, decimal or a negative decimal (30_encoding R87). -/
def readValue : List Char → Option Word
  | '-' :: cs => (readNat 10 cs).map fun n => literal (-(n : Int))
  | '0' :: 'x' :: cs => (readNat 16 cs).bind fun n => if n < 2 ^ 32 then some (literal n) else none
  | cs => (readNat 10 cs).bind fun n => if n < 2 ^ 32 then some (literal n) else none

/-- The values of a list of operands; none if one is no value. -/
def readValues : List (List Char) → Option (List Word)
  | [] => some []
  | cs :: rest =>
    match readValue cs, readValues rest with
    | some v, some vs => some (v :: vs)
    | _, _ => none

/-- A line's word, in lower case, and its operands. -/
def lineParts (body : List Char) : List Char × List (List Char) :=
  let rest := trimText (body.dropWhile fun c => !isBlank c)
  ((body.takeWhile fun c => !isBlank c).map Char.toLower, if rest = [] then [] else (splitCommas rest).map trimText)

/-- What the word and the operands of a line stand for: a base statement (30_encoding R87) or a pseudo-instruction (R88). -/
def readStatement (word : List Char) (ops : List (List Char)) : Option (List HostStmt) :=
  if word = "wr".toList then
    match ops with
    | [name, v] =>
      match lookupName asmRegisters name, readValue v with
      | some r, some x => some [.wr r x]
      | _, _ => none
    | _ => none
  else if word = "rd".toList then
    match ops with
    | [name] => (lookupName asmRegisters name).map fun r => [.rd r]
    | _ => none
  else if word = "srst".toList then (if ops = [] then some [srstStmt] else none)
  else if word = "clrerr".toList then (if ops = [] then some [clrerrStmt] else none)
  else if word = "status".toList then (if ops = [] then some [statusStmt] else none)
  else
    match lookupName asmCommands word with
    | none => none
    | some i =>
      if ops = [] then some [.command i]
      else
        match readValues ops with
        | some vs => if vs.length = (pseudoOperands i).length then some (pseudo i vs) else none
        | none => none

/-- One line: a comment runs from the semicolon on; an empty line is no statement (30_encoding R87). -/
def assembleLine (line : List Char) : Option (List HostStmt) :=
  let body := trimText (line.takeWhile fun c => c != ';')
  if body = [] then some [] else readStatement (lineParts body).1 (lineParts body).2

/-- A program's text, line by line; none if some line is no statement (30_encoding R87). -/
def assemble : List String → Option (List HostStmt)
  | [] => some []
  | line :: lines =>
    match assembleLine line.toList, assemble lines with
    | some a, some b => some (a ++ b)
    | _, _ => none

end Sys2Proof.Machine
end

