-- ==== Sys2Proof/Safety.lean ====
section
/-! DEFINITION. What counts as a safe state and a safe run, in the terms the claims use. -/

namespace Sys2Proof.Machine

/-- What VSTATE says of the rest of the context (10_state R36), and that an initialised context came from a checked
init (43_viterbi R211, R212). -/
def ctxOk (p : Platform) (c : VitContext) : Prop :=
  match c.vstate with
  | .uninitialized => c.vsig = false ∧ c.frameLength = 0 ∧ c.consumed = 0 ∧ c.rate = 0
  | .ready => c.consumed = 0 ∧ c.frameLength ≠ 0 ∧ p.acceptsRate c.rate = true
  | .decoding => 0 < c.consumed.toNat ∧ c.consumed.toNat < c.frameLength.toNat ∧ p.acceptsRate c.rate = true
  | .terminal => c.consumed = c.frameLength ∧ c.frameLength ≠ 0 ∧ p.acceptsRate c.rate = true

/-- The invariant of the machine: memory is canonical, the context is as VSTATE says, and a nonzero LASTERR comes with
the sticky ERR (10_state R24, R36). -/
structure Inv (s : State) : Prop where
  mem_wf : s.mem.wf = true
  ctx_ok : ctxOk s.platform s.ctx
  err_sticky : s.lastErr ≠ .ok → s.err = true

/-- A buffer passes both checks: it is empty, or it ends at or below 2^32 and the platform admits it (20_memory R55, R56). -/
def bufOk (p : Platform) (b : Buf) : Prop :=
  b.size = 0 ∨ (b.addr + b.size ≤ 2 ^ 32 ∧ p.memAdmit b.addr b.size = true)

/-- Every byte outside a buffer reads in `m'` as in `m` (20_memory R59). -/
def sameOutside (b : Buf) (m m' : Memory) : Prop :=
  ∀ a, (a < b.addr ∨ b.addr + b.size ≤ a) → m'.read a = m.read a

/-- `t` is `s` after a success that changed nothing but memory, and memory only inside the buffer `b`: the frame of a
command with one output buffer (10_state R30, R34; 20_memory R59; 43_viterbi R210). -/
def wroteOnly (b : Buf) (s t : State) : Prop :=
  t = { s with mem := t.mem, lastErr := .ok } ∧ sameOutside b s.mem t.mem

/-- The commands of family VD (43_viterbi). -/
def isViterbi : Instr → Bool
  | .vitInit | .vitInitsig | .vitDecode => true
  | _ => false

/-- The commands that write RES0 and RES1 on success: VSUM and VIT.DECODE (10_state R30). -/
def writesResults : Instr → Bool
  | .vsumI16 | .vsumI32 | .vsumC16 | .vsumC32 | .vitDecode => true
  | _ => false

/-- The operand registers (30_encoding R83). -/
inductive OperandReg where
  | srca
  | srcb
  | dst
  | dst2
  | len
  | shift
  | arg
  deriving DecidableEq, Repr

/-- The state with another value in an operand register. -/
def setOperand (r : OperandReg) (v : Word) (s : State) : State :=
  match r with
  | .srca => { s with srca := v }
  | .srcb => { s with srcb := v }
  | .dst => { s with dst := v }
  | .dst2 => { s with dst2 := v }
  | .len => { s with len := v }
  | .shift => { s with shift := v }
  | .arg => { s with arg := v }

/-- The registers a command reads, the column of 30_encoding R83. -/
def registersRead : Instr → List OperandReg
  | .vaddI16 | .vaddI32 | .vaddC16 | .vaddC32 | .vsubI16 | .vsubI32 | .vsubC16 | .vsubC32 => [.srca, .srcb, .dst, .len]
  | .vmulC16 | .vmulC32 | .vcmulC16 | .vcmulC32 => [.srca, .srcb, .dst, .len, .shift]
  | .vcmulwC16 => [.srca, .srcb, .dst, .dst2, .len]
  | .vsumI16 | .vsumI32 | .vsumC16 | .vsumC32 => [.srca, .len]
  | .vhaddI32 | .vhaddC16 => [.srca, .dst]
  | .vshlI16 | .vshlI32 | .vshlC16 | .vshlC32 | .vshrI16 | .vshrI32 | .vshrC16 | .vshrC32 => [.srca, .dst, .len, .shift]
  | .vpackC16 | .vcastC8 => [.srca, .dst, .len]
  | .vand | .vor | .vxor | .vandn => [.srca, .srcb, .dst, .len]
  | .vand8 | .vor8 | .vxor8 | .vandn8 => [.srca, .srcb, .dst]
  | .fftC16 | .ifftC16 => [.srca, .dst, .len]
  | .vitInit | .vitInitsig => [.len, .arg]
  | .vitDecode => [.srca, .dst, .len]

/-- The codes that a legal command may report, the column "raised by" of 60_exceptions R240. -/
def mayReport : Instr → List ErrCode
  | .fftC16 | .ifftC16 => [.fftSize, .range, .bus]
  | .vitInit | .vitInitsig => [.vitRate, .vitFrame]
  | .vitDecode => [.vitState, .vitOverrun, .range, .bus]
  | .vand8 | .vor8 | .vxor8 | .vandn8 => [.bus]
  | _ => [.range, .bus]

/-- "Flags: standard" and "Errors: standard" (40_vector_arith), for a command with own checks `own` and the buffers of
30_encoding R83. When the own checks and every buffer pass, the command completes and `post` holds of the states before
and after; when one fails, the command does nothing but report the first (60_exceptions R242, R243). -/
def runsStandard (i : Instr) (own : State → Option ErrCode) (ins outs : State → List Buf)
    (post : State → State → Prop) : Prop :=
  ∀ s, s.mem.wf = true →
    (own s = none → (∀ b ∈ ins s ++ outs s, bufOk s.platform b) → ∃ t, exec i s = .next t ∧ post s t) ∧
    (∀ c, firstError s.platform (own s) (ins s) (outs s) = some c → exec i s = .next (raise c s))

end Sys2Proof.Machine
end

