-- ==== Sys2Proof/Certificates/Slice0/Obligations.lean ====
section
/-! DEFINITION. The statements for the provers. Each docstring says which statement of the spec it formalises. -/

namespace Sys2Proof.Machine

/-! ## Words of the statements -/

/-- A command with no checks of its own. -/
def noCheck (_ : State) : Option ErrCode := none

/-- A command's whole rule: its word, and what it does ("Encoding", "Pseudocode", "Flags: standard" and "Errors:
standard" of 40_vector_arith's template). -/
def ruleOf (w : Word) (i : Instr) (own : State → Option ErrCode) (ins outs : State → List Buf)
    (post : State → State → Prop) : Prop :=
  decode w = .ok i ∧ runsStandard i own ins outs post

/-- The buffers of n bytes an element at SRCA and SRCB (30_encoding R83). -/
def inAB (n : Nat) (s : State) : List Buf := [s.bufA (s.len.toNat * n), s.bufB (s.len.toNat * n)]

/-- The buffer of n bytes an element at SRCA (30_encoding R83). -/
def inA (n : Nat) (s : State) : List Buf := [s.bufA (s.len.toNat * n)]

/-- The buffer of n bytes an element at DST (30_encoding R83). -/
def outOfD (n : Nat) (s : State) : List Buf := [s.bufD (s.len.toNat * n)]

/-- Element j of the first input. -/
def elemA {α : Type} (T : ElemType α) (s : State) (j : Nat) : α := loadElem T s.mem s.srca.toNat j

/-- Element j of the second input. -/
def elemB {α : Type} (T : ElemType α) (s : State) (j : Nat) : α := loadElem T s.mem s.srcb.toNat j

/-- DST holds `r s j` as its element j, for every j < LEN, and nothing else but LASTERR changed. -/
def resultD {α : Type} (T : ElemType α) (r : State → Nat → α) (s t : State) : Prop :=
  wroteOnly (s.bufD (s.len.toNat * T.size)) s t ∧
    ∀ j < s.len.toNat, loadElem T t.mem s.dst.toNat j = r s j

/-- The bytes of n at DST are `r s j`, and nothing else but LASTERR changed. -/
def resultBytes (n : State → Nat) (r : State → Nat → Byte) (s t : State) : Prop :=
  wroteOnly (s.bufD (n s)) s t ∧ ∀ j < n s, t.mem.read (s.dst.toNat + j) = r s j

/-- The input byte j at SRCA. -/
def byteA (s : State) (j : Nat) : Byte := s.mem.read (s.srca.toNat + j)

/-- The input byte j at SRCB. -/
def byteB (s : State) (j : Nat) : Byte := s.mem.read (s.srcb.toNat + j)

/-- ceil(LEN/8) (41_bitwise R170). -/
def lenBytes (s : State) : Nat := (s.len.toNat + 7) / 8

/-- A bitwise command over n bytes: byte j of DST is g of the bytes j of SRCA and SRCB (41_bitwise). -/
def bytesOf (w : Word) (i : Instr) (n : State → Nat) (g : Byte → Byte → Byte) : Prop :=
  ruleOf w i noCheck (fun s => [s.bufA (n s), s.bufB (n s)]) (fun s => [s.bufD (n s)])
    (resultBytes n fun s j => g (byteA s j) (byteB s j))

/-- The metrics replaced, everything else kept. -/
def withMetrics (m : Metrics) (s : State) : State := { s with ctx := { s.ctx with metrics := m } }

/-- The bits that a chunk of the LEN bytes at SRCA, read as int8, releases, with the new metrics (43_viterbi R215). -/
def chunkOf (s : State) : Metrics × List Bool :=
  Config.vitStep (if s.ctx.vsig then .sig else .generic) s.ctx.rate s.ctx.frameLength.toNat s.ctx.consumed.toNat
    s.ctx.metrics ((List.range s.len.toNat).map fun j => (byteA s j).toInt)

/-- Bit i of the bytes at an address is bit i of `bits`, least significant first, and 0 beyond them, up to the end of
the last byte (43_viterbi R217). -/
def holdsBits (m : Memory) (a : Nat) (bits : List Bool) : Prop :=
  ∀ i < 8 * ((bits.length + 7) / 8), (m.read (a + i / 8)).getLsbD (i % 8) = bits.getD i false

/-- What the registers of the block read as, by offset (10_state R21). -/
def registerMap (s : State) : List (Nat × Word) :=
  [(0x00, 0x5A520007), (0x04, 0), (0x08, statusWord s), (0x0C, s.cmd), (0x10, s.srca), (0x14, s.srcb), (0x18, s.dst),
   (0x1C, s.dst2), (0x20, s.len), (0x24, s.shift), (0x28, s.arg), (0x2C, s.res0), (0x30, s.res1),
   (0x34, s.ctx.frameLength), (0x38, s.ctx.consumed), (0x3C, s.ctx.rate)]

/-- The unit's state in `t` is that of 70 R270, with the metrics unspecified; memory, the platform and the host's side
are those of `s`. -/
def isReset (s t : State) : Prop :=
  t.cmd = 0 ∧ t.srca = 0 ∧ t.srcb = 0 ∧ t.dst = 0 ∧ t.dst2 = 0 ∧ t.len = 0 ∧ t.shift = 0 ∧ t.arg = 0 ∧
  t.res0 = 0 ∧ t.res1 = 0 ∧ t.err = false ∧ t.lastErr = .ok ∧ t.ctx.vstate = .uninitialized ∧ t.ctx.vsig = false ∧
  t.ctx.frameLength = 0 ∧ t.ctx.consumed = 0 ∧ t.ctx.rate = 0 ∧
  t.mem = s.mem ∧ t.platform = s.platform ∧ t.inputs = s.inputs ∧ t.readData = s.readData

/-- The host's next access writes v to the register at an offset. -/
def nextWrites (s : State) (off : Nat) (v : Word) : Prop :=
  nextInput s = some (.writeBlock (256 * s.platform.basePage + off) .word v)

/-- The host's next access reads the register at an offset. -/
def nextReads (s : State) (off : Nat) : Prop :=
  nextInput s = some (.readBlock (256 * s.platform.basePage + off) .word)

/-- The host's next input resets the unit: a CTRL write with bit 0 set, or the power-on reset. -/
def hostResets (s : State) : Prop :=
  nextInput s = some .powerOnReset ∨ ∃ v : Word, v.toNat % 2 = 1 ∧ nextWrites s 0x04 v

/-- The state with an operand register holding a value. -/
def storeReg (r : RegName) (v : Word) (s : State) : State :=
  match r with
  | .srca => { s with srca := v }
  | .srcb => { s with srcb := v }
  | .dst => { s with dst := v }
  | .dst2 => { s with dst2 := v }
  | .len => { s with len := v }
  | .shift => { s with shift := v }
  | .arg => { s with arg := v }
  | _ => s

end Sys2Proof.Machine

open Sys2Proof Sys2Proof.Machine

/-! ## Encoding -/

/-- The decoder and the encoder agree on every word (30_encoding R82: a word is legal exactly when it equals one CMD
value of the table). -/
def Obligations.DecodeEncodeAgree : Prop := ∀ (c : Word) (i : Instr), decode c = .ok i ↔ c = encode i

/-- The reserved space of 30_encoding R86 is what the decoder rejects: RSV not 0, TYPE 6 or 7, an OP of the reserved
ranges, or a TYPE not listed for the OP. -/
def Obligations.ReservedWordsRejected : Prop :=
  ∀ c : Word, (∃ e, decode c = .error e) ↔
    (c.toNat / 2 ^ 11 ≠ 0 ∨ 6 ≤ c.toNat / 2 ^ 8 % 8 ∨
      (let op := c.toNat % 2 ^ 8
       op = 0 ∨ (0x0C ≤ op ∧ op ≤ 0x0F) ∨ (0x18 ≤ op ∧ op ≤ 0x1F) ∨ (0x22 ≤ op ∧ op ≤ 0x2F) ∨ 0x33 ≤ op) ∨
      c.toNat / 2 ^ 8 % 8 ∉ typesOf (c.toNat % 2 ^ 8))

/-- A word of each family, and illegal words, as 30_encoding R82 and R86 give them. -/
def Obligations.TableWordsDecode : Prop :=
  decode 0x00000101#32 = .ok .vaddI16 ∧ decode 0x00000403#32 = .ok .vmulC32 ∧ decode 0x00000305#32 = .ok .vcmulwC16 ∧
  decode 0x0000050B#32 = .ok .vcastC8 ∧ decode 0x00000013#32 = .ok .vandn ∧ decode 0x00000321#32 = .ok .ifftC16 ∧
  decode 0x00000031#32 = .ok .vitInitsig ∧ decode 0x00000103#32 = .error .typeNotListed ∧
  decode 0x00000000#32 = .error .reservedOp ∧ decode 0x80000101#32 = .error .reservedBits

/-- A write of a legal word to CMD runs its command on the state in which CMD holds the word, the position past the
access (10_state R20, R25; 30_encoding R85). -/
def Obligations.StepRunsDecodedCommand : Prop :=
  ∀ (s : State) (c : Word) (i : Instr), nextWrites s 0x0C c → decode c = .ok i →
    step s = exec i { s with pos := s.pos + 1, cmd := c }

/-- A write of any other word to CMD raises ERR_ILLEGAL: CMD holds the word, nothing else changes (30_encoding R85;
60_exceptions R242). -/
def Obligations.IllegalWordRaises : Prop :=
  ∀ (s : State) (c : Word), nextWrites s 0x0C c → (∀ i, c ≠ encode i) →
    step s = .next { s with pos := s.pos + 1, cmd := c, err := true, lastErr := .illegal }

/-! ## Family VA -/

/-- 40_vector_arith R101 to R104: VADD adds element by element and wraps each component. -/
def Obligations.AddWraps : Prop :=
  ruleOf 0x00000101#32 .vaddI16 noCheck (inAB 2) (outOfD 2)
    (resultD int16 fun s j => wrap 16 (elemA int16 s j + elemB int16 s j)) ∧
  ruleOf 0x00000201#32 .vaddI32 noCheck (inAB 4) (outOfD 4)
    (resultD int32 fun s j => wrap 32 (elemA int32 s j + elemB int32 s j)) ∧
  ruleOf 0x00000301#32 .vaddC16 noCheck (inAB 4) (outOfD 4)
    (resultD complex16 fun s j =>
      let a := elemA complex16 s j
      let b := elemB complex16 s j
      ⟨wrap 16 (a.re + b.re), wrap 16 (a.im + b.im)⟩) ∧
  ruleOf 0x00000401#32 .vaddC32 noCheck (inAB 8) (outOfD 8)
    (resultD complex32 fun s j =>
      let a := elemA complex32 s j
      let b := elemB complex32 s j
      ⟨wrap 32 (a.re + b.re), wrap 32 (a.im + b.im)⟩)

/-- 40_vector_arith R105 to R108: VSUB subtracts SRCB's elements from SRCA's and wraps each component. -/
def Obligations.SubWraps : Prop :=
  ruleOf 0x00000102#32 .vsubI16 noCheck (inAB 2) (outOfD 2)
    (resultD int16 fun s j => wrap 16 (elemA int16 s j - elemB int16 s j)) ∧
  ruleOf 0x00000202#32 .vsubI32 noCheck (inAB 4) (outOfD 4)
    (resultD int32 fun s j => wrap 32 (elemA int32 s j - elemB int32 s j)) ∧
  ruleOf 0x00000302#32 .vsubC16 noCheck (inAB 4) (outOfD 4)
    (resultD complex16 fun s j =>
      let a := elemA complex16 s j
      let b := elemB complex16 s j
      ⟨wrap 16 (a.re - b.re), wrap 16 (a.im - b.im)⟩) ∧
  ruleOf 0x00000402#32 .vsubC32 noCheck (inAB 8) (outOfD 8)
    (resultD complex32 fun s j =>
      let a := elemA complex32 s j
      let b := elemB complex32 s j
      ⟨wrap 32 (a.re - b.re), wrap 32 (a.im - b.im)⟩)

/-- 40_vector_arith R109 to R111: VMUL forms the exact complex product, divides each component by 2^SHIFT rounding
down, then wraps. -/
def Obligations.MultiplyShiftsThenWraps : Prop :=
  ruleOf 0x00000303#32 .vmulC16 noCheck (inAB 4) (outOfD 4)
    (resultD complex16 fun s j =>
      let x := elemA complex16 s j
      let y := elemB complex16 s j
      ⟨wrap 16 ((x.re * y.re - x.im * y.im) / 2 ^ s.shift.toNat),
       wrap 16 ((x.re * y.im + x.im * y.re) / 2 ^ s.shift.toNat)⟩) ∧
  ruleOf 0x00000403#32 .vmulC32 noCheck (inAB 8) (outOfD 8)
    (resultD complex32 fun s j =>
      let x := elemA complex32 s j
      let y := elemB complex32 s j
      ⟨wrap 32 ((x.re * y.re - x.im * y.im) / 2 ^ s.shift.toNat),
       wrap 32 ((x.re * y.im + x.im * y.re) / 2 ^ s.shift.toNat)⟩)

/-- 40_vector_arith R109, R112, R113: VCMUL does the same with x times the conjugate of y. -/
def Obligations.ConjugateMultiplyShiftsThenWraps : Prop :=
  ruleOf 0x00000304#32 .vcmulC16 noCheck (inAB 4) (outOfD 4)
    (resultD complex16 fun s j =>
      let x := elemA complex16 s j
      let y := elemB complex16 s j
      ⟨wrap 16 ((x.re * y.re + x.im * y.im) / 2 ^ s.shift.toNat),
       wrap 16 ((x.im * y.re - x.re * y.im) / 2 ^ s.shift.toNat)⟩) ∧
  ruleOf 0x00000404#32 .vcmulC32 noCheck (inAB 8) (outOfD 8)
    (resultD complex32 fun s j =>
      let x := elemA complex32 s j
      let y := elemB complex32 s j
      ⟨wrap 32 ((x.re * y.re + x.im * y.im) / 2 ^ s.shift.toNat),
       wrap 32 ((x.im * y.re - x.re * y.im) / 2 ^ s.shift.toNat)⟩)

/-- 40_vector_arith R114, 20_memory R58: VCMULW leaves the imaginary parts, wrapped to 32 bits, at DST2, and the bytes
of the real parts at DST wherever DST2 does not overlap them. -/
def Obligations.ConjugateMultiplyWideSplits : Prop :=
  ruleOf 0x00000305#32 .vcmulwC16 noCheck (inAB 4)
    (fun s => [s.bufD (s.len.toNat * 4), s.bufD2 (s.len.toNat * 4)])
    (fun s t =>
      let x := elemA complex16 s
      let y := elemB complex16 s
      t = { s with mem := t.mem, lastErr := .ok } ∧
      (∀ a, (a < s.dst.toNat ∨ s.dst.toNat + s.len.toNat * 4 ≤ a) →
        (a < s.dst2.toNat ∨ s.dst2.toNat + s.len.toNat * 4 ≤ a) → t.mem.read a = s.mem.read a) ∧
      (∀ j < s.len.toNat,
        loadElem int32 t.mem s.dst2.toNat j = wrap 32 ((x j).im * (y j).re - (x j).re * (y j).im)) ∧
      (∀ j < s.len.toNat, ∀ k < 4,
        (s.dst.toNat + j * 4 + k < s.dst2.toNat ∨ s.dst2.toNat + s.len.toNat * 4 ≤ s.dst.toNat + j * 4 + k) →
        t.mem.read (s.dst.toNat + j * 4 + k) =
          BitVec.ofInt 8 (wrap 32 ((x j).re * (y j).re + (x j).im * (y j).im) / 2 ^ (8 * k))))

/-- 40_vector_arith R115, R116: a scalar VSUM adds the elements one after another into an accumulator of the element's
width, and puts it, sign-extended, in RES0, and 0 in RES1; nothing else changes but LASTERR. -/
def Obligations.SumScalar : Prop :=
  ruleOf 0x00000106#32 .vsumI16 noCheck (inA 2) (fun _ => [])
    (fun s t => t = { s with
      res0 := BitVec.ofInt 32 ((List.range s.len.toNat).foldl (fun acc j => wrap 16 (acc + elemA int16 s j)) 0)
      res1 := 0, lastErr := .ok }) ∧
  ruleOf 0x00000206#32 .vsumI32 noCheck (inA 4) (fun _ => [])
    (fun s t => t = { s with
      res0 := BitVec.ofInt 32 ((List.range s.len.toNat).foldl (fun acc j => wrap 32 (acc + elemA int32 s j)) 0)
      res1 := 0, lastErr := .ok })

/-- 40_vector_arith R117, R118: a complex VSUM does so for each component, re in RES0 and im in RES1. -/
def Obligations.SumComplex : Prop :=
  ruleOf 0x00000306#32 .vsumC16 noCheck (inA 4) (fun _ => [])
    (fun s t => t = { s with
      res0 := BitVec.ofInt 32 ((List.range s.len.toNat).foldl (fun acc j => wrap 16 (acc + (elemA complex16 s j).re)) 0)
      res1 := BitVec.ofInt 32 ((List.range s.len.toNat).foldl (fun acc j => wrap 16 (acc + (elemA complex16 s j).im)) 0)
      lastErr := .ok }) ∧
  ruleOf 0x00000406#32 .vsumC32 noCheck (inA 8) (fun _ => [])
    (fun s t => t = { s with
      res0 := BitVec.ofInt 32 ((List.range s.len.toNat).foldl (fun acc j => wrap 32 (acc + (elemA complex32 s j).re)) 0)
      res1 := BitVec.ofInt 32 ((List.range s.len.toNat).foldl (fun acc j => wrap 32 (acc + (elemA complex32 s j).im)) 0)
      lastErr := .ok })

/-- The inference the spec draws in 40_vector_arith ("The result equals wrap_16(sum of all x[i])", marked derived there):
after a successful VSUM, RES0 is the exact total of the elements wrapped to the accumulator's width, and for a complex
type RES0 and RES1 are so by components. -/
def Obligations.SumsAreWrappedTotals : Prop :=
  ∀ s t : State, t.lastErr = .ok →
    (exec .vsumI16 s = .next t → t.res0.toInt = wrap 16 ((List.range s.len.toNat).map (elemA int16 s)).sum) ∧
    (exec .vsumI32 s = .next t → t.res0.toInt = wrap 32 ((List.range s.len.toNat).map (elemA int32 s)).sum) ∧
    (exec .vsumC16 s = .next t →
      t.res0.toInt = wrap 16 ((List.range s.len.toNat).map fun j => (elemA complex16 s j).re).sum ∧
      t.res1.toInt = wrap 16 ((List.range s.len.toNat).map fun j => (elemA complex16 s j).im).sum) ∧
    (exec .vsumC32 s = .next t →
      t.res0.toInt = wrap 32 ((List.range s.len.toNat).map fun j => (elemA complex32 s j).re).sum ∧
      t.res1.toInt = wrap 32 ((List.range s.len.toNat).map fun j => (elemA complex32 s j).im).sum)

/-- 40_vector_arith R119, R120: VHADD writes the wrapped total of four elements to all four lanes; LEN is not read. -/
def Obligations.HaddBroadcasts : Prop :=
  ruleOf 0x00000207#32 .vhaddI32 noCheck (fun s => [s.bufA 16]) (fun s => [s.bufD 16])
    (fun s t => wroteOnly (s.bufD 16) s t ∧ ∀ j < 4, loadElem int32 t.mem s.dst.toNat j =
      wrap 32 (elemA int32 s 0 + elemA int32 s 1 + elemA int32 s 2 + elemA int32 s 3)) ∧
  ruleOf 0x00000307#32 .vhaddC16 noCheck (fun s => [s.bufA 16]) (fun s => [s.bufD 16])
    (fun s t => wroteOnly (s.bufD 16) s t ∧ ∀ j < 4, loadElem complex16 t.mem s.dst.toNat j =
      let x := elemA complex16 s
      ⟨wrap 16 ((x 0).re + (x 1).re + (x 2).re + (x 3).re), wrap 16 ((x 0).im + (x 1).im + (x 2).im + (x 3).im)⟩)

/-- 40_vector_arith R121 to R124: VSHL multiplies by 2^SHIFT and wraps, for every SHIFT. -/
def Obligations.ShiftLeftWraps : Prop :=
  ruleOf 0x00000108#32 .vshlI16 noCheck (inA 2) (outOfD 2)
    (resultD int16 fun s j => wrap 16 (elemA int16 s j * 2 ^ s.shift.toNat)) ∧
  ruleOf 0x00000208#32 .vshlI32 noCheck (inA 4) (outOfD 4)
    (resultD int32 fun s j => wrap 32 (elemA int32 s j * 2 ^ s.shift.toNat)) ∧
  ruleOf 0x00000308#32 .vshlC16 noCheck (inA 4) (outOfD 4)
    (resultD complex16 fun s j =>
      ⟨wrap 16 ((elemA complex16 s j).re * 2 ^ s.shift.toNat), wrap 16 ((elemA complex16 s j).im * 2 ^ s.shift.toNat)⟩) ∧
  ruleOf 0x00000408#32 .vshlC32 noCheck (inA 8) (outOfD 8)
    (resultD complex32 fun s j =>
      ⟨wrap 32 ((elemA complex32 s j).re * 2 ^ s.shift.toNat), wrap 32 ((elemA complex32 s j).im * 2 ^ s.shift.toNat)⟩)

/-- 40_vector_arith R125 to R128: VSHR is floor division by 2^SHIFT, for every SHIFT; the result fits unwrapped. -/
def Obligations.ShiftRightFloors : Prop :=
  ruleOf 0x00000109#32 .vshrI16 noCheck (inA 2) (outOfD 2)
    (resultD int16 fun s j => elemA int16 s j / 2 ^ s.shift.toNat) ∧
  ruleOf 0x00000209#32 .vshrI32 noCheck (inA 4) (outOfD 4)
    (resultD int32 fun s j => elemA int32 s j / 2 ^ s.shift.toNat) ∧
  ruleOf 0x00000309#32 .vshrC16 noCheck (inA 4) (outOfD 4)
    (resultD complex16 fun s j =>
      ⟨(elemA complex16 s j).re / 2 ^ s.shift.toNat, (elemA complex16 s j).im / 2 ^ s.shift.toNat⟩) ∧
  ruleOf 0x00000409#32 .vshrC32 noCheck (inA 8) (outOfD 8)
    (resultD complex32 fun s j =>
      ⟨(elemA complex32 s j).re / 2 ^ s.shift.toNat, (elemA complex32 s j).im / 2 ^ s.shift.toNat⟩)

/-- 40_vector_arith R129: VPACK clamps each component to -128 .. 127 and writes complex8. -/
def Obligations.PackSaturates : Prop :=
  ruleOf 0x0000030A#32 .vpackC16 noCheck (inA 4) (outOfD 2)
    (resultD complex8 fun s j =>
      ⟨min (max (elemA complex16 s j).re (-128)) 127, min (max (elemA complex16 s j).im (-128)) 127⟩)

/-- 40_vector_arith R130: VCAST copies 2*LEN bytes. -/
def Obligations.CastCopiesBytes : Prop :=
  ruleOf 0x0000050B#32 .vcastC8 noCheck (inA 2) (outOfD 2) (resultBytes (fun s => s.len.toNat * 2) byteA)

/-! ## Family BL -/

/-- 41_bitwise R170 to R174: the bit-length forms work on ceil(LEN/8) whole bytes, at every length. -/
def Obligations.BitwiseOverLength : Prop :=
  bytesOf 0x00000010#32 .vand lenBytes (fun a b => a &&& b) ∧
  bytesOf 0x00000011#32 .vor lenBytes (fun a b => a ||| b) ∧
  bytesOf 0x00000012#32 .vxor lenBytes (fun a b => a ^^^ b) ∧
  bytesOf 0x00000013#32 .vandn lenBytes (fun a b => a &&& ~~~b)

/-- 41_bitwise R175 to R178: the 8-bit forms work on one byte, whatever LEN holds. -/
def Obligations.BitwiseOverOneByte : Prop :=
  bytesOf 0x00000014#32 .vand8 (fun _ => 1) (fun a b => a &&& b) ∧
  bytesOf 0x00000015#32 .vor8 (fun _ => 1) (fun a b => a ||| b) ∧
  bytesOf 0x00000016#32 .vxor8 (fun _ => 1) (fun a b => a ^^^ b) ∧
  bytesOf 0x00000017#32 .vandn8 (fun _ => 1) (fun a b => a &&& ~~~b)

/-- 41_bitwise R179: each 8-bit form does what its bit-length form does with LEN from 1 to 8. -/
def Obligations.ByteFormsMatchLengthForms : Prop :=
  ∀ s : State, 1 ≤ s.len.toNat → s.len.toNat ≤ 8 →
    exec .vand8 s = exec .vand s ∧ exec .vor8 s = exec .vor s ∧ exec .vxor8 s = exec .vxor s ∧
    exec .vandn8 s = exec .vandn s

/-! ## Family FT -/

/-- 42_fft R190: CATALOG has exactly these 42 sizes. -/
def Obligations.CatalogSizes : Prop :=
  (∀ n, inCatalog n = true ↔
    n ∈ [12, 16, 24, 32, 36, 48, 60, 64, 72, 96, 108, 120, 128, 144, 180, 192, 216, 240, 256, 288, 300] ++
      [324, 360, 384, 432, 480, 512, 540, 576, 600, 648, 720, 768, 864, 900, 960, 972, 1024, 1080, 1152, 1200, 2048]) ∧
  catalog.length = 42 ∧ catalog.Nodup

/-- 42_fft R192 to R195: FFT and IFFT of a catalog size write the engine's image of the input as it stood, whatever the
overlap; any other size is ERR_FFT_SIZE before any buffer is looked at. -/
def Obligations.TransformDispatch : Prop :=
  ∀ i dir w, (i = Instr.fftC16 ∧ dir = FftDir.fwd ∧ w = 0x00000320#32) ∨
      (i = Instr.ifftC16 ∧ dir = FftDir.inv ∧ w = 0x00000321#32) →
    ruleOf w i (fun s => if inCatalog s.len.toNat then none else some .fftSize) (inA 4) (outOfD 4)
      (fun s t => wroteOnly (s.bufD (s.len.toNat * 4)) s t ∧
        ∀ x : Fin s.len.toNat → C16, (∀ k, (x k).toCplx = elemA complex16 s k.val) →
          ∀ j, loadElem complex16 t.mem s.dst.toNat j.val = (Config.fft dir s.len.toNat x j).toCplx)

/-- 42_fft R197, FFT-ZERO-64: FFT.C16 with LEN = 64 over zero bytes completes and leaves zero bytes at DST. -/
def Obligations.FftOfZeros64 : Prop :=
  ∀ s : State, s.mem.wf = true → s.len = 64 → bufOk s.platform (s.bufA 256) → bufOk s.platform (s.bufD 256) →
    (∀ j < 256, byteA s j = 0) →
    ∃ t, exec .fftC16 s = .next t ∧ t.lastErr = .ok ∧ ∀ j < 256, t.mem.read (s.dst.toNat + j) = 0

/-- 42_fft R197, FFT-IMPULSE: FFT.C16 of a catalog size over an impulse leaves elements of one magnitude at DST. -/
def Obligations.FftOfImpulse : Prop :=
  ∀ s : State, s.mem.wf = true → inCatalog s.len.toNat = true → (∀ b ∈ inA 4 s ++ outOfD 4 s, bufOk s.platform b) →
    elemA complex16 s 0 = ⟨1, 0⟩ → (∀ j < s.len.toNat, 0 < j → elemA complex16 s j = ⟨0, 0⟩) →
    ∃ t, exec .fftC16 s = .next t ∧ t.lastErr = .ok ∧ ∀ i < s.len.toNat, ∀ j < s.len.toNat,
      let y := loadElem complex16 t.mem s.dst.toNat
      (y i).re ^ 2 + (y i).im ^ 2 = (y j).re ^ 2 + (y j).im ^ 2

/-- 42_fft R197, FFT-ROUNDTRIP: FFT.C16 and then IFFT.C16 of its output, both successful, give the scaled input within
the tolerance of the size. -/
def Obligations.FftRoundTrip : Prop :=
  ∀ (s t u : State) (d : Word), s.mem.wf = true →
    exec .fftC16 s = .next t → t.lastErr = .ok →
    exec .ifftC16 { t with srca := s.dst, dst := d } = .next u → u.lastErr = .ok →
    ∀ j < s.len.toNat,
      let x := elemA complex16 s j
      let z := loadElem complex16 u.mem d.toNat j
      let n := s.len.toNat
      |(z.re : ℚ) - Config.fftEngines.scale n * (x.re : ℚ)| ≤ Config.fftEngines.tol n ∧
      |(z.im : ℚ) - Config.fftEngines.scale n * (x.im : ℚ)| ≤ Config.fftEngines.tol n

/-! ## Family VD -/

/-- 43_viterbi R212 to R214, R222: from every state of the context, an init whose rate is accepted and whose frame
length is not 0 replaces every field of the context; otherwise the rate is reported first. -/
def Obligations.InitStartsFrame : Prop :=
  ∀ i v w, (i = Instr.vitInit ∧ v = VitVariant.generic ∧ w = 0x00000030#32) ∨
      (i = Instr.vitInitsig ∧ v = VitVariant.sig ∧ w = 0x00000031#32) →
    ruleOf w i
      (fun s => if s.arg = 0 ∨ s.arg ∉ s.platform.rates then some .vitRate
        else if s.len = 0 then some .vitFrame else none)
      (fun _ => []) (fun _ => [])
      (fun s t => t = { s with
        lastErr := .ok
        ctx := { vstate := .ready, vsig := decide (v = .sig), frameLength := s.len, consumed := 0, rate := s.arg
                 metrics := Config.vitInit v s.arg s.len.toNat } })

/-- 43_viterbi R211, R215 to R217, R225: VIT.DECODE of a chunk that fits the frame writes the packed bits the trellis
releases and advances the context, to Terminal when the frame is consumed; an empty chunk only clears RES0 and RES1.
Out of state comes before overrun, and both before the buffers. -/
def Obligations.DecodeAdvancesFrame : Prop :=
  ruleOf 0x00000032#32 .vitDecode
    (fun s => if s.ctx.vstate ≠ .ready ∧ s.ctx.vstate ≠ .decoding then some .vitState
      else if s.ctx.consumed.toNat + s.len.toNat > s.ctx.frameLength.toNat then some .vitOverrun else none)
    (fun s => if s.len = 0 then [] else [s.bufA s.len.toNat])
    (fun s => if s.len = 0 then [] else [s.bufD (((chunkOf s).2.length + 7) / 8)])
    (fun s t =>
      (s.len = 0 → t = { s with res0 := 0, res1 := 0, lastErr := .ok }) ∧
      (s.len ≠ 0 →
        t = { s with
          mem := t.mem, lastErr := .ok, res0 := t.res0, res1 := 0
          ctx := { s.ctx with
            metrics := (chunkOf s).1
            consumed := s.ctx.consumed + s.len
            vstate := if s.ctx.consumed.toNat + s.len.toNat = s.ctx.frameLength.toNat then .terminal else .decoding } } ∧
        t.res0.toNat = (chunkOf s).2.length ∧
        t.ctx.consumed.toNat = s.ctx.consumed.toNat + s.len.toNat ∧
        sameOutside (s.bufD (((chunkOf s).2.length + 7) / 8)) s.mem t.mem ∧
        holdsBits t.mem s.dst.toNat (chunkOf s).2))

/-- 43_viterbi R211, the table: the state of the context after every command, by row and column, and after a reset; no
other step changes it. The invariant of the machine rules out the states that no run reaches (an empty frame, more symbols consumed than it has). -/
def Obligations.ViterbiStateMachine : Prop :=
  ∀ s t : State, Inv s →
    (∀ i, i = Instr.vitInit ∨ i = .vitInitsig → exec i s = .next t →
      (s.arg ∈ s.platform.rates ∧ s.arg ≠ 0 ∧ s.len ≠ 0 → t.ctx.vstate = .ready) ∧
      (¬(s.arg ∈ s.platform.rates ∧ s.arg ≠ 0 ∧ s.len ≠ 0) →
        t.ctx = s.ctx ∧ (t.lastErr = .vitRate ∨ t.lastErr = .vitFrame))) ∧
    (exec .vitDecode s = .next t →
      let total := s.ctx.consumed.toNat + s.len.toNat
      (s.ctx.vstate = .uninitialized ∨ s.ctx.vstate = .terminal → t.lastErr = .vitState) ∧
      (s.ctx.vstate = .ready ∨ s.ctx.vstate = .decoding →
        (total > s.ctx.frameLength.toNat → t.lastErr = .vitOverrun) ∧
        (total = s.ctx.frameLength.toNat → t.lastErr = .ok → t.ctx.vstate = .terminal) ∧
        (total < s.ctx.frameLength.toNat → t.lastErr = .ok →
          t.ctx.vstate = if s.ctx.vstate = .ready ∧ s.len = 0 then .ready else .decoding)) ∧
      (t.lastErr ≠ .ok → t.ctx = s.ctx)) ∧
    (∀ i, isViterbi i = false → exec i s = .next t → t.ctx = s.ctx) ∧
    (hostResets s → step s = .next t → t.ctx.vstate = .uninitialized) ∧
    (¬hostResets s → step s = .next t → t.ctx.vstate ≠ s.ctx.vstate →
      ∃ c i, nextWrites s 0x0C c ∧ decode c = .ok i ∧ isViterbi i = true)

/-- 43_viterbi R221, VIT-ROUNDTRIP-1: an init with LEN = F and one VIT.DECODE of the whole frame, both successful, end
in Terminal with all F symbols consumed; and if the buffer holds the encoding of b, RES0 is the length of b and DST
holds exactly the bits b. -/
def Obligations.VitRoundTrip : Prop :=
  ∀ (i : Instr) (v : VitVariant) (s t u : State),
    (i = Instr.vitInit ∧ v = VitVariant.generic) ∨ (i = Instr.vitInitsig ∧ v = VitVariant.sig) →
    s.mem.wf = true → exec i s = .next t → t.lastErr = .ok → exec .vitDecode t = .next u → u.lastErr = .ok →
    u.ctx.vstate = .terminal ∧ u.ctx.consumed = s.len ∧
    ∀ b : List Bool, (List.range s.len.toNat).map (byteA s) = Config.vitEnc v s.arg b →
      u.res0.toNat = b.length ∧ holdsBits u.mem s.dst.toNat b

/-- 43_viterbi R224: while the context is Uninitialized, the metrics are not read: two states that differ only in them
step alike, to states that differ in nothing else, and in nothing at all once a context is initialised. -/
def Obligations.MetricsUnobservedBeforeInit : Prop :=
  ∀ (s : State) (m : Metrics), s.ctx.vstate = .uninitialized →
    (∀ r, step s = .refused r → step (withMetrics m s) = .refused r) ∧
    ∀ t, step s = .next t → ∃ t', step (withMetrics m s) = .next t' ∧ withMetrics m t' = withMetrics m t ∧
      (t.ctx.vstate ≠ .uninitialized → t' = t)

/-! ## Rules of the whole machine -/

/-- 60_exceptions R245, 70 R281: every command completes in one step, on every state. -/
def Obligations.EveryCommandCompletes : Prop := ∀ i s, ∃ t, exec i s = .next t

/-- 60_exceptions R241, R242: a CMD write, legal or not, whose command reports a code changes nothing but CMD, STATUS.ERR
and LASTERR; one that succeeds leaves ERR as it was. -/
def Obligations.FailingCommandOnlyReports : Prop :=
  ∀ (s t : State) (c : Word), nextWrites s 0x0C c → step s = .next t →
    (t.lastErr ≠ .ok → t = { s with pos := s.pos + 1, cmd := c, err := true, lastErr := t.lastErr }) ∧
    (t.lastErr = .ok → t.err = s.err)

/-- 10_state R34: no command writes an operand register or CMD (nor anything on the host's side); only the host's write
of that register and a reset change it. -/
def Obligations.OperandRegistersKept : Prop :=
  (∀ (i : Instr) (s t : State), exec i s = .next t →
    t.cmd = s.cmd ∧ t.srca = s.srca ∧ t.srcb = s.srcb ∧ t.dst = s.dst ∧ t.dst2 = s.dst2 ∧ t.len = s.len ∧
    t.shift = s.shift ∧ t.arg = s.arg ∧ t.platform = s.platform ∧ t.inputs = s.inputs ∧ t.pos = s.pos ∧
    t.readData = s.readData ∧ t.freeCount = s.freeCount) ∧
  ∀ s t : State, step s = .next t → ¬hostResets s →
    (t.cmd ≠ s.cmd → nextWrites s 0x0C t.cmd) ∧ (t.srca ≠ s.srca → nextWrites s 0x10 t.srca) ∧
    (t.srcb ≠ s.srcb → nextWrites s 0x14 t.srcb) ∧ (t.dst ≠ s.dst → nextWrites s 0x18 t.dst) ∧
    (t.dst2 ≠ s.dst2 → nextWrites s 0x1C t.dst2) ∧ (t.len ≠ s.len → nextWrites s 0x20 t.len) ∧
    (t.shift ≠ s.shift → nextWrites s 0x24 t.shift) ∧ (t.arg ≠ s.arg → nextWrites s 0x28 t.arg)

/-- 10_state R30: only a successful VSUM or VIT.DECODE, and a reset, writes RES0 and RES1; a host write does not. -/
def Obligations.ResultRegistersOnlyBySumAndDecode : Prop :=
  ∀ s t : State, step s = .next t → ¬hostResets s → (t.res0 ≠ s.res0 ∨ t.res1 ≠ s.res1) →
    t.lastErr = .ok ∧ ∃ c i, nextWrites s 0x0C c ∧ decode c = .ok i ∧
      (i = .vsumI16 ∨ i = .vsumI32 ∨ i = .vsumC16 ∨ i = .vsumC32 ∨ i = .vitDecode)

/-- 10_state R31, 43_viterbi R210: only a successful command of family VD, and a reset, changes the Viterbi context; no
other step does, a host write of VFRAME, VCONS or VRATE among them. -/
def Obligations.ContextOnlyByViterbi : Prop :=
  ∀ s t : State, step s = .next t → ¬hostResets s → t.ctx ≠ s.ctx →
    t.lastErr = .ok ∧ ∃ c i, nextWrites s 0x0C c ∧ decode c = .ok i ∧ (i = .vitInit ∨ i = .vitInitsig ∨ i = .vitDecode)

/-- 60_exceptions R240, the column "raised by": a legal command reports OK or one of its own codes. -/
def Obligations.ReportedCodes : Prop :=
  ∀ (i : Instr) (s t : State), exec i s = .next t → t.lastErr = .ok ∨ t.lastErr ∈ mayReport i

/-- 60_exceptions R246: ERR and LASTERR never affect a command: with any other values before it, it ends alike, in ERR
as it was, or 1 after a failure. -/
def Obligations.ErrNeverBlocks : Prop :=
  ∀ (i : Instr) (s t : State) (e : Bool) (c : ErrCode), exec i s = .next t →
    exec i { s with err := e, lastErr := c } = .next { t with err := if t.lastErr = .ok then e else true }

/-- 30_encoding R83 (and 10_state R27 to R29): a register not listed for a command is ignored by it: another value in
it changes nothing but that register. -/
def Obligations.UnlistedRegistersIgnored : Prop :=
  ∀ (i : Instr) (r : OperandReg) (s t : State) (v : Word), r ∉ registersRead i → exec i s = .next t →
    exec i (setOperand r v s) = .next (setOperand r v t)

/-- The invariant of the machine holds after reset (70 R270). -/
def Obligations.ResetMeetsInvariant : Prop := Inv State.reset

/-- Every step keeps the invariant: canonical memory, the context as VSTATE says (10_state R36, 43_viterbi R211), a
nonzero LASTERR only with ERR set (10_state R24). -/
def Obligations.StepKeepsInvariant : Prop := ∀ s t : State, Inv s → step s = .next t → Inv t

/-! ## The host port -/

/-- 10_state R22, R32, R35 (the map of R21): a read of the block answers the host with the register's value, 0 at the
reserved offsets, and does nothing else; a write of an operand register stores the value and does nothing else; a write of
a read-only register or a reserved offset does nothing. -/
def Obligations.RegisterBlockAccesses : Prop :=
  ∀ (s : State) (v : Word),
    (∀ off, ((off, v) ∈ registerMap s ∨ (0x40 ≤ off ∧ off ≤ 0xFF ∧ off % 4 = 0 ∧ v = 0)) → nextReads s off →
      step s = .next { s with pos := s.pos + 1, readData := s.readData ++ [v] }) ∧
    (nextWrites s 0x10 v → step s = .next { s with pos := s.pos + 1, srca := v }) ∧
    (nextWrites s 0x14 v → step s = .next { s with pos := s.pos + 1, srcb := v }) ∧
    (nextWrites s 0x18 v → step s = .next { s with pos := s.pos + 1, dst := v }) ∧
    (nextWrites s 0x1C v → step s = .next { s with pos := s.pos + 1, dst2 := v }) ∧
    (nextWrites s 0x20 v → step s = .next { s with pos := s.pos + 1, len := v }) ∧
    (nextWrites s 0x24 v → step s = .next { s with pos := s.pos + 1, shift := v }) ∧
    (nextWrites s 0x28 v → step s = .next { s with pos := s.pos + 1, arg := v }) ∧
    (∀ off, (off ∈ [0x00, 0x08, 0x2C, 0x30, 0x34, 0x38, 0x3C] ∨ (0x40 ≤ off ∧ off ≤ 0xFF ∧ off % 4 = 0)) →
      nextWrites s off v → step s = .next { s with pos := s.pos + 1 })

/-- 10_state R23, 70 R270, R271: a CTRL write with bit 0 set resets the unit from every state, whatever bit 1 says: every
register reads its reset value, memory is not written, and VIT.DECODE is out of state. With bit 0 clear it clears ERR and
LASTERR if bit 1 is set, else does nothing. The other bits are ignored, nothing is stored, and CTRL reads 0. -/
def Obligations.CtrlWritesResetOrClear : Prop :=
  ∀ (s : State) (v : Word),
    (nextWrites s 0x04 v → v.toNat % 2 = 1 →
      ∃ t, step s = .next t ∧ isReset s t ∧ t.pos = s.pos + 1 ∧
        (∀ off w, (off, w) ∈ registerMap t → w = if off = 0 then 0x5A520007 else 0) ∧
        exec .vitDecode t = .next (raise .vitState t)) ∧
    (nextWrites s 0x04 v → v.toNat % 2 = 0 → v.toNat / 2 % 2 = 1 →
      step s = .next { s with pos := s.pos + 1, err := false, lastErr := .ok }) ∧
    (nextWrites s 0x04 v → v.toNat % 2 = 0 → v.toNat / 2 % 2 = 0 → step s = .next { s with pos := s.pos + 1 }) ∧
    (nextReads s 0x04 → step s = .next { s with pos := s.pos + 1, readData := s.readData ++ [0] })

/-- 70 R271, R272, R274: a power-on reset has the effect of a soft reset. That a power-on reset can come in mid-launch is
the model's choice (log 13). -/
def Obligations.PowerOnResets : Prop :=
  ∀ s : State, nextInput s = some .powerOnReset → ∃ t, step s = .next t ∧ isReset s t ∧ t.pos = s.pos + 1

/-- 70 R270: what the registers read after reset: ID its constant, every other register 0. -/
def Obligations.ResetValues : Prop :=
  (∀ off v, (off, v) ∈ registerMap State.reset → v = if off = 0 then 0x5A520007 else 0) ∧
  State.reset.ctx.vstate = .uninitialized

/-- 10_state R33: a byte, halfword or misaligned access of the block is refused. -/
def Obligations.UndefinedAccessesRefused : Prop :=
  ∀ (s : State) (off : Nat) (size : AccessSize) (v : Word), off < 256 → (size ≠ .word ∨ off % 4 ≠ 0) →
    (nextInput s = some (.readBlock (256 * s.platform.basePage + off) size) ∨
      nextInput s = some (.writeBlock (256 * s.platform.basePage + off) size v)) →
    step s = .refused .subWordAccess ∨ step s = .refused .misalignedAccess

/-- 20_memory R64: the host's memory accesses, one byte each, among its inputs (the model's choice,
log 11; at the block's own addresses too, log 22): a host store is seen by every later access and changes one byte; a host load answers with the byte. -/
def Obligations.HostMemoryAccesses : Prop :=
  ∀ (s : State) (a : Word) (b : Byte), s.mem.wf = true →
    (nextInput s = some (.storeMem a b) → ∃ t, step s = .next t ∧ t = { s with pos := s.pos + 1, mem := t.mem } ∧
      t.mem.read a.toNat = b ∧ ∀ c, c ≠ a.toNat → t.mem.read c = s.mem.read c) ∧
    (nextInput s = some (.loadMem a) → ∃ t, step s = .next t ∧
      t = { s with pos := s.pos + 1, readData := t.readData } ∧
      ∃ v : Word, t.readData = s.readData ++ [v] ∧ v.toNat = (s.mem.read a.toNat).toNat)

/-- 10_state R20, 60_exceptions R254, 70 R282: each access advances the position by exactly one; with none left the unit
keeps all its state (the model's idle step, log 12). -/
def Obligations.PositionAdvancesByOne : Prop :=
  ∀ s t : State, step s = .next t →
    (s.inputs.length ≤ s.pos → t = s) ∧
    (s.pos < s.inputs.length → t.pos = s.pos + 1 ∧ t.inputs = s.inputs ∧ t.platform = s.platform)

/-- 30_encoding R88, R89: when the host's next accesses are the expansion of a pseudo-instruction, they run its command
with its operand registers holding the operands given, whatever they held before. -/
def Obligations.PseudoInstructionsRunTheirCommand : Prop :=
  ∀ (i : Instr) (operands : List Word) (s : State) (rest : List Input),
    operands.length = (pseudoOperands i).length →
    s.inputs.drop s.pos = encodeProgram s.platform (pseudo i operands) ++ rest →
    runSteps (operands.length + 1) s =
      exec i { ((pseudoOperands i).zip operands).foldl (fun t p => storeReg p.1 p.2 t) s with
        pos := s.pos + operands.length + 1, cmd := encode i }

/-- 30_encoding R87 (mnemonics are case-insensitive, a semicolon begins a comment): a line that is a command's mnemonic in
any letter case, with or without a comment after it, is the statement that writes the command's word to CMD. -/
def Obligations.AssemblerReadsMnemonics : Prop :=
  ∀ (name : String) (i : Instr) (line comment : List Char), (name, i) ∈ asmCommands → line.map Char.toLower = name.toList →
    assembleLine line = some [.command i] ∧ assembleLine (line ++ ';' :: comment) = some [.command i]

/-! ## STATUS, the checks, the primitives -/

/-- 10_state R24, R36, 60_exceptions R240: the fields of STATUS and the values of its codes. -/
def Obligations.StatusFields : Prop :=
  (∀ s : State,
    (statusWord s).extractLsb' 0 1 = BitVec.ofBool s.err ∧ (statusWord s).extractLsb' 1 7 = 0 ∧
    (statusWord s).extractLsb' 8 8 = s.lastErr.byte ∧ (statusWord s).extractLsb' 16 2 = s.ctx.vstate.bits ∧
    (statusWord s).extractLsb' 18 1 = BitVec.ofBool s.ctx.vsig ∧ (statusWord s).extractLsb' 19 13 = 0) ∧
  (ErrCode.ok.byte = 0x00 ∧ ErrCode.illegal.byte = 0x01 ∧ ErrCode.range.byte = 0x02 ∧ ErrCode.bus.byte = 0x03 ∧
    ErrCode.fftSize.byte = 0x10 ∧ ErrCode.vitState.byte = 0x20 ∧ ErrCode.vitOverrun.byte = 0x21 ∧
    ErrCode.vitRate.byte = 0x22 ∧ ErrCode.vitFrame.byte = 0x23) ∧
  (VState.uninitialized.bits = 0 ∧ VState.ready.bits = 1 ∧ VState.decoding.bits = 2 ∧ VState.terminal.bits = 3)

/-- 20_memory R51, R55, R56, R68: CheckBuffers reports a range of the list first, then an admission, and looks at no
empty buffer. -/
def Obligations.BufferChecks : Prop :=
  ∀ (p : Platform) (bs : List Buf),
    (checkBuffers p bs = some .range ↔ ∃ b ∈ bs, 0 < b.size ∧ b.addr + b.size > 2 ^ 32) ∧
    (checkBuffers p bs = some .bus ↔ (∀ b ∈ bs, 0 < b.size → b.addr + b.size ≤ 2 ^ 32) ∧
      ∃ b ∈ bs, 0 < b.size ∧ p.memAdmit b.addr b.size = false) ∧
    (checkBuffers p bs = none ↔ ∀ b ∈ bs, bufOk p b)

/-- 60_exceptions R243, its examples, on every state: the size before any buffer, input admission before output range,
the context's state before overrun. -/
def Obligations.ErrorPriority : Prop :=
  ∀ s : State,
    (s.len = 100 → s.srca = 0xFFFFFFF0#32 → exec .fftC16 s = .next (raise .fftSize s)) ∧
    ((∀ b ∈ inAB 2 s, b.addr + b.size ≤ 2 ^ 32) → s.len ≠ 0 →
      s.platform.memAdmit s.srcb.toNat (s.len.toNat * 2) = false → s.dst.toNat + s.len.toNat * 2 > 2 ^ 32 →
      exec .vaddI16 s = .next (raise .bus s)) ∧
    (s.ctx.vstate = .uninitialized → s.len.toNat > s.ctx.frameLength.toNat →
      exec .vitDecode s = .next (raise .vitState s))

/-- 00_scope R8: the width primitives. -/
def Obligations.WidthPrimitives : Prop :=
  ∀ (N : Nat) (v : Int) (k : Nat), 1 ≤ N →
    (-(2 ^ (N - 1) : Int) ≤ wrap N v ∧ wrap N v < 2 ^ (N - 1) ∧ (2 ^ N : Int) ∣ wrap N v - v) ∧
    (∀ r : Int, -(2 ^ (N - 1) : Int) ≤ r → r < 2 ^ (N - 1) → (2 ^ N : Int) ∣ r - v → r = wrap N v) ∧
    ((uwrap N v : Int) = v % 2 ^ N ∧ uwrap N v < 2 ^ N) ∧
    sat N v = min (max v (-(2 ^ (N - 1)))) (2 ^ (N - 1) - 1) ∧
    sext N v = wrap N v ∧ zext N v = uwrap N v ∧
    asr v k = v / 2 ^ k ∧
    (-(2 ^ (N - 1) : Int) ≤ v → v < 2 ^ (N - 1) → N - 1 ≤ k → asr v k = if 0 ≤ v then 0 else -1) ∧
    shl N v k = wrap N (v * 2 ^ k) ∧ (N ≤ k → shl N v k = 0)

/-- 00_scope R10: MemRead is the little-endian value of its bytes, MemWrite stores the bytes of its value, and no other
byte changes. -/
def Obligations.MemoryPrimitives : Prop :=
  ∀ (m : Memory) (a n : Nat) (v : Int), m.wf = true → a + n ≤ 2 ^ 32 →
    m.memRead a n = ((List.range n).map fun j => (m.read (a + j)).toNat * 2 ^ (8 * j)).sum ∧
    (∀ j < n, ((m.memWrite a n v).read (a + j)).toNat = (v / 2 ^ (8 * j) % 256).toNat) ∧
    (∀ c, (c < a ∨ a + n ≤ c) → (m.memWrite a n v).read c = m.read c) ∧
    (m.memWrite a n v).wf = true

/-- 20_memory R52, R53: the elements of a buffer, little-endian and signed, re before im, at any byte address. -/
def Obligations.ElementLayout : Prop :=
  ∀ (m : Memory) (a i : Nat),
    loadElem int8 m a i = (m.read (a + i)).toInt ∧
    loadElem int16 m a i = (m.read (a + 2 * i + 1) ++ m.read (a + 2 * i)).toInt ∧
    loadElem int32 m a i =
      (m.read (a + 4 * i + 3) ++ m.read (a + 4 * i + 2) ++ m.read (a + 4 * i + 1) ++ m.read (a + 4 * i)).toInt ∧
    loadElem complex8 m a i = ⟨loadElem int8 m (a + 2 * i) 0, loadElem int8 m (a + 2 * i) 1⟩ ∧
    loadElem complex16 m a i = ⟨loadElem int16 m (a + 4 * i) 0, loadElem int16 m (a + 4 * i) 1⟩ ∧
    loadElem complex32 m a i = ⟨loadElem int32 m (a + 8 * i) 0, loadElem int32 m (a + 8 * i) 1⟩
end

