-- ==== Sys2Proof/Laws/Decode.lean ====
section
/-! SUPPORT. Laws of the decoder and the encoder. -/

namespace Sys2Proof

/-- A word is its three fields (30_encoding R80). -/
theorem word_ext_fields {c d : Word} (h0 : cmdOp c = cmdOp d) (h1 : cmdType c = cmdType d) (h2 : cmdRsv c = cmdRsv d) :
    c = d := by
  apply BitVec.eq_of_getLsbD_eq
  intro i hi
  rcases lt_or_ge i 8 with h | h
  · simpa [cmdOp, h] using congrArg (fun v => v.getLsbD i) h0
  · rcases lt_or_ge i 11 with h' | h'
    · have := congrArg (fun v => v.getLsbD (i - 8)) h1
      simpa [cmdType, show i - 8 < 3 by omega, show 8 + (i - 8) = i by omega] using this
    · have := congrArg (fun v => v.getLsbD (i - 11)) h2
      simpa [cmdRsv, show i - 11 < 21 by omega, show 11 + (i - 11) = i by omega] using this

/-- Each row's OP and TYPE are those of its command's word, whose RSV is 0. -/
theorem opcodeMap_encode :
    ∀ r ∈ opcodeMap, cmdOp (encode r.instr) = r.op ∧ cmdType (encode r.instr) = r.ty ∧ cmdRsv (encode r.instr) = 0 := by
  decide

/-- What a decoded word is: a row of the opcode map, with RSV 0. -/
theorem decode_ok_row {c : Word} {i : Instr} (h : decode c = .ok i) :
    cmdRsv c = 0 ∧ ∃ r ∈ opcodeMap, r.instr = i ∧ r.op = cmdOp c ∧ r.ty = cmdType c := by
  unfold decode at h
  split at h
  · cases h
  · next hr =>
    refine ⟨by simpa using hr, ?_⟩
    split at h
    · next r hf =>
      have hp := List.find?_some hf
      simp only [Bool.and_eq_true, beq_iff_eq] at hp
      exact ⟨r, List.mem_of_find?_eq_some hf, Except.ok.inj h, hp.1, hp.2⟩
    · split at h <;> cases h

theorem decode_encode (i : Instr) : decode (encode i) = .ok i := by
  cases i <;> decide

end Sys2Proof
end

