-- ==== Sys2Proof/Laws/Meanings.lean ====
section
/-! SUPPORT. The meaning of each command as its arm of `exec` gives it, so that no proof unfolds `exec`. -/

namespace Sys2Proof.Machine

theorem exec_vaddI16 (s : State) :
    exec .vaddI16 s = elemwise2 int16 int16 (fun a b _ => wrap 16 (a + b)) s := rfl

theorem exec_vaddI32 (s : State) :
    exec .vaddI32 s = elemwise2 int32 int32 (fun a b _ => wrap 32 (a + b)) s := rfl

theorem exec_vaddC16 (s : State) :
    exec .vaddC16 s = elemwise2 complex16 complex16 (fun a b _ => (a.add b).map (wrap 16)) s := rfl

theorem exec_vaddC32 (s : State) :
    exec .vaddC32 s = elemwise2 complex32 complex32 (fun a b _ => (a.add b).map (wrap 32)) s := rfl

theorem exec_vsubI16 (s : State) :
    exec .vsubI16 s = elemwise2 int16 int16 (fun a b _ => wrap 16 (a - b)) s := rfl

theorem exec_vsubI32 (s : State) :
    exec .vsubI32 s = elemwise2 int32 int32 (fun a b _ => wrap 32 (a - b)) s := rfl

theorem exec_vsubC16 (s : State) :
    exec .vsubC16 s = elemwise2 complex16 complex16 (fun a b _ => (a.sub b).map (wrap 16)) s := rfl

theorem exec_vsubC32 (s : State) :
    exec .vsubC32 s = elemwise2 complex32 complex32 (fun a b _ => (a.sub b).map (wrap 32)) s := rfl

theorem exec_vmulC16 (s : State) :
    exec .vmulC16 s = elemwise2 complex16 complex16 (fun x y k => (cmul x y).map (shiftWrap 16 k)) s := rfl

theorem exec_vmulC32 (s : State) :
    exec .vmulC32 s = elemwise2 complex32 complex32 (fun x y k => (cmul x y).map (shiftWrap 32 k)) s := rfl

theorem exec_vcmulC16 (s : State) :
    exec .vcmulC16 s = elemwise2 complex16 complex16 (fun x y k => (ccmul x y).map (shiftWrap 16 k)) s := rfl

theorem exec_vcmulC32 (s : State) :
    exec .vcmulC32 s = elemwise2 complex32 complex32 (fun x y k => (ccmul x y).map (shiftWrap 32 k)) s := rfl

theorem exec_vcmulwC16 (s : State) :
    exec .vcmulwC16 s = execVcmulwC16 s := rfl

theorem exec_vsumI16 (s : State) :
    exec .vsumI16 s = sumElems int16 0 (fun acc x => wrap 16 (acc + x)) scalarResult s := rfl

theorem exec_vsumI32 (s : State) :
    exec .vsumI32 s = sumElems int32 0 (fun acc x => wrap 32 (acc + x)) scalarResult s := rfl

theorem exec_vsumC16 (s : State) :
    exec .vsumC16 s = sumElems complex16 ⟨0, 0⟩ (fun acc x => (acc.add x).map (wrap 16)) complexResult s := rfl

theorem exec_vsumC32 (s : State) :
    exec .vsumC32 s = sumElems complex32 ⟨0, 0⟩ (fun acc x => (acc.add x).map (wrap 32)) complexResult s := rfl

theorem exec_vhaddI32 (s : State) :
    exec .vhaddI32 s = haddElems int32 (fun a b c d => wrap 32 (a + b + c + d)) s := rfl

theorem exec_vhaddC16 (s : State) :
    exec .vhaddC16 s = haddElems complex16 (fun a b c d => (((a.add b).add c).add d).map (wrap 16)) s := rfl

theorem exec_vshlI16 (s : State) :
    exec .vshlI16 s = elemwise1 int16 int16 (fun x k => shl 16 x k) s := rfl

theorem exec_vshlI32 (s : State) :
    exec .vshlI32 s = elemwise1 int32 int32 (fun x k => shl 32 x k) s := rfl

theorem exec_vshlC16 (s : State) :
    exec .vshlC16 s = elemwise1 complex16 complex16 (fun x k => x.map fun v => shl 16 v k) s := rfl

theorem exec_vshlC32 (s : State) :
    exec .vshlC32 s = elemwise1 complex32 complex32 (fun x k => x.map fun v => shl 32 v k) s := rfl

theorem exec_vshrI16 (s : State) :
    exec .vshrI16 s = elemwise1 int16 int16 (fun x k => asr x k) s := rfl

theorem exec_vshrI32 (s : State) :
    exec .vshrI32 s = elemwise1 int32 int32 (fun x k => asr x k) s := rfl

theorem exec_vshrC16 (s : State) :
    exec .vshrC16 s = elemwise1 complex16 complex16 (fun x k => x.map fun v => asr v k) s := rfl

theorem exec_vshrC32 (s : State) :
    exec .vshrC32 s = elemwise1 complex32 complex32 (fun x k => x.map fun v => asr v k) s := rfl

theorem exec_vpackC16 (s : State) :
    exec .vpackC16 s = elemwise1 complex16 complex8 (fun x _ => x.map (sat 8)) s := rfl

theorem exec_vcastC8 (s : State) :
    exec .vcastC8 s = execVcastC8 s := rfl

theorem exec_vand (s : State) :
    exec .vand s = bitwiseLen (fun a b => a &&& b) s := rfl

theorem exec_vor (s : State) :
    exec .vor s = bitwiseLen (fun a b => a ||| b) s := rfl

theorem exec_vxor (s : State) :
    exec .vxor s = bitwiseLen (fun a b => a ^^^ b) s := rfl

theorem exec_vandn (s : State) :
    exec .vandn s = bitwiseLen (fun a b => a &&& ~~~b) s := rfl

theorem exec_vand8 (s : State) :
    exec .vand8 s = bitwiseOne (fun a b => a &&& b) s := rfl

theorem exec_vor8 (s : State) :
    exec .vor8 s = bitwiseOne (fun a b => a ||| b) s := rfl

theorem exec_vxor8 (s : State) :
    exec .vxor8 s = bitwiseOne (fun a b => a ^^^ b) s := rfl

theorem exec_vandn8 (s : State) :
    exec .vandn8 s = bitwiseOne (fun a b => a &&& ~~~b) s := rfl

theorem exec_fftC16 (s : State) :
    exec .fftC16 s = transform .fwd s := rfl

theorem exec_ifftC16 (s : State) :
    exec .ifftC16 s = transform .inv s := rfl

theorem exec_vitInit (s : State) :
    exec .vitInit s = vitInitFrame .generic s := rfl

theorem exec_vitInitsig (s : State) :
    exec .vitInitsig s = vitInitFrame .sig s := rfl

theorem exec_vitDecode (s : State) :
    exec .vitDecode s = execVitDecode s := rfl

end Sys2Proof.Machine
end

