-- ==== Sys2Proof/Laws/Width.lean ====
section
/-! SUPPORT. Laws of the width primitives (00_scope R8). -/

namespace Sys2Proof.Machine

theorem wrap_lower (N : Nat) (v : Int) : -(2 ^ N : Int) ≤ 2 * wrap N v := by
  have hm : 0 < 2 ^ N := Nat.two_pow_pos N
  have h := @Int.le_bmod v (2 ^ N) hm
  unfold wrap
  have : ((2 ^ N : Nat) : Int) = (2 : Int) ^ N := by push_cast; rfl
  omega

theorem wrap_upper {N : Nat} (hN : 1 ≤ N) (v : Int) : 2 * wrap N v < (2 ^ N : Int) := by
  have hm : 0 < 2 ^ N := Nat.two_pow_pos N
  have h := @Int.bmod_lt v (2 ^ N) hm
  obtain ⟨k, rfl⟩ : ∃ k, N = k + 1 := ⟨N - 1, by omega⟩
  unfold wrap
  have : ((2 ^ (k + 1) : Nat) : Int) = (2 : Int) ^ (k + 1) := by push_cast; rfl
  have h2 : (2 : Int) ^ (k + 1) = 2 * 2 ^ k := by ring
  omega

/-- `wrap_N(v)` is congruent to v modulo 2^N. -/
theorem wrap_emod (N : Nat) (v : Int) : wrap N v % (2 ^ N : Int) = v % (2 ^ N : Int) := by
  have := @Int.bmod_emod v (2 ^ N)
  push_cast at this
  exact this

theorem wrap_eq_toInt (N : Nat) (v : Int) : wrap N v = (BitVec.ofInt N v).toInt :=
  (BitVec.toInt_ofInt v).symm

/-- A value already in the signed range is not changed. -/
theorem wrap_of_range {N : Nat} {v : Int} (h1 : -(2 ^ N : Int) ≤ 2 * v) (h2 : 2 * v < (2 ^ N : Int)) :
    wrap N v = v := by
  have hc : ((2 ^ N : Nat) : Int) = (2 : Int) ^ N := by push_cast; rfl
  exact Int.bmod_eq_of_le_mul_two (by omega) (by omega)

theorem wrap_wrap (N : Nat) (v : Int) : wrap N (wrap N v) = wrap N v := Int.bmod_bmod

theorem wrap_congr {N : Nat} {v w : Int} (h : v % (2 ^ N : Int) = w % (2 ^ N : Int)) : wrap N v = wrap N w := by
  unfold wrap Int.bmod
  push_cast
  rw [h]

@[simp] theorem wrap_wrap_add (N : Nat) (a b : Int) : wrap N (wrap N a + b) = wrap N (a + b) :=
  Int.bmod_add_bmod

/-- The unsigned reading keeps the class of the value. -/
theorem wrap_uwrap (N : Nat) (v : Int) : wrap N (uwrap N v) = wrap N v := by
  apply wrap_congr
  have hp : (0 : Int) < 2 ^ N := by positivity
  unfold uwrap
  rw [Int.toNat_of_nonneg (Int.emod_nonneg _ hp.ne')]
  exact Int.emod_emod_of_dvd _ (dvd_refl _)

/-- `asr` is floor division by 2^k. -/
theorem asr_eq_floor (v : Int) (k : Nat) : asr v k = v / 2 ^ k := by
  unfold asr
  rw [Int.shiftRight_eq_div_pow]
  push_cast
  rfl

/-- `shl` is multiplication by 2^k, wrapped, for every k. -/
theorem shl_eq_wrap (N : Nat) (v : Int) (k : Nat) : shl N v k = wrap N (v * 2 ^ k) := by
  unfold shl
  split
  · next h =>
    have h0 : wrap N (v * 2 ^ k) = wrap N 0 := by
      apply wrap_congr
      rw [Int.zero_emod]
      exact Int.emod_eq_zero_of_dvd (Dvd.dvd.mul_left (pow_dvd_pow _ h) _)
    rw [h0, wrap_of_range] <;> simp
  · rfl

theorem asr_lower {N : Nat} {v : Int} (k : Nat) (h : -(2 ^ N : Int) ≤ 2 * v) : -(2 ^ N : Int) ≤ 2 * asr v k := by
  rw [asr_eq_floor]
  have hk : (1 : Int) ≤ 2 ^ k := one_le_pow₀ (by norm_num)
  rcases lt_or_ge v 0 with hv | hv
  · have : v ≤ v / 2 ^ k := by
      rw [Int.le_ediv_iff_mul_le (by positivity)]
      nlinarith
    omega
  · have : 0 ≤ v / 2 ^ k := Int.ediv_nonneg hv (by positivity)
    have h3 : (0 : Int) ≤ 2 ^ N := by positivity
    omega

theorem asr_upper {N : Nat} {v : Int} (k : Nat) (h : 2 * v < (2 ^ N : Int)) : 2 * asr v k < (2 ^ N : Int) := by
  rw [asr_eq_floor]
  have hk : (1 : Int) ≤ 2 ^ k := one_le_pow₀ (by norm_num)
  rcases lt_or_ge v 0 with hv | hv
  · have : v / 2 ^ k < 0 := Int.ediv_neg_of_neg_of_pos hv (by positivity)
    have h3 : (0 : Int) ≤ 2 ^ N := by positivity
    omega
  · have : v / 2 ^ k ≤ v := Int.ediv_le_self _ hv
    omega

/-- A right shift of a value in the signed range stays in it (40_vector_arith R131). -/
theorem wrap_asr {N : Nat} {v : Int} (k : Nat) (h1 : -(2 ^ N : Int) ≤ 2 * v) (h2 : 2 * v < (2 ^ N : Int)) :
    wrap N (asr v k) = asr v k :=
  wrap_of_range (asr_lower k h1) (asr_upper k h2)

/-- A saturated value is in the signed range. -/
theorem wrap_sat {N : Nat} (hN : 1 ≤ N) (v : Int) : wrap N (sat N v) = sat N v := by
  obtain ⟨k, rfl⟩ : ∃ k, N = k + 1 := ⟨N - 1, by omega⟩
  have h2 : (2 : Int) ^ (k + 1) = 2 * 2 ^ k := by ring
  have h1 : (1 : Int) ≤ 2 ^ k := one_le_pow₀ (by norm_num)
  apply wrap_of_range <;> simp only [sat, Nat.add_sub_cancel] <;> omega

end Sys2Proof.Machine
end

