-- ==== Sys2Proof/Laws/Memory.lean ====
section
/-! SUPPORT. Laws of memory: read after write, the canonical form, little-endian values. -/

namespace Sys2Proof.Machine

/-! ## One byte -/

@[simp] theorem Memory.read_nil (a : Nat) : Memory.read [] a = Config.unlistedByte := rfl

theorem Memory.read_write_other {a c : Nat} (b : Byte) (h : c ≠ a) :
    ∀ m : Memory, (Memory.write m a b).read c = m.read c
  | [] => by simp only [Memory.write]; split <;> simp [Memory.read, h]
  | (a', b') :: rest => by
    simp only [Memory.write]
    by_cases h1 : a < a'
    · by_cases hb : b = Config.unlistedByte <;> simp [h1, hb, Memory.read, h]
    · by_cases h2 : a = a'
      · subst h2
        by_cases hb : b = Config.unlistedByte <;> simp [hb, Memory.read, h]
      · simp [h1, h2, Memory.read, Memory.read_write_other b h rest]

/-- The canonical form from a lower bound on, for induction. -/
def Memory.wfFrom (lo : Nat) (m : Memory) : Prop :=
  Memory.risesFrom lo m = true ∧ ∀ c ∈ m, c.1 < Config.addrSpace ∧ c.2 ≠ Config.unlistedByte

theorem Memory.wf_iff (m : Memory) : m.wf = true ↔ Memory.wfFrom 0 m := by
  simp [Memory.wf, Memory.wfFrom]

theorem Memory.wfFrom_cons {lo a : Nat} {b : Byte} {rest : Memory} :
    Memory.wfFrom lo ((a, b) :: rest) ↔
      lo ≤ a ∧ a < Config.addrSpace ∧ b ≠ Config.unlistedByte ∧ Memory.wfFrom (a + 1) rest := by
  simp only [Memory.wfFrom, Memory.risesFrom, Bool.and_eq_true, decide_eq_true_eq, List.forall_mem_cons]
  tauto

theorem Memory.wfFrom_mono {lo hi : Nat} (h : lo ≤ hi) : ∀ {m : Memory}, Memory.wfFrom hi m → Memory.wfFrom lo m
  | [], _ => ⟨rfl, by simp⟩
  | (_, _) :: _, hm => by
    rw [Memory.wfFrom_cons] at hm ⊢
    exact ⟨by omega, hm.2⟩

/-- Nothing is listed below the lower bound. -/
theorem Memory.read_below {lo a : Nat} (h : a < lo) :
    ∀ {m : Memory}, Memory.wfFrom lo m → m.read a = Config.unlistedByte
  | [], _ => rfl
  | (a', b') :: rest, hm => by
    rw [Memory.wfFrom_cons] at hm
    have : a ≠ a' := by omega
    simp only [Memory.read, this, if_false]
    exact Memory.read_below (by omega) hm.2.2.2

theorem Memory.write_wfFrom {a : Nat} (b : Byte) (ha : a < Config.addrSpace) :
    ∀ {lo : Nat} {m : Memory}, lo ≤ a → Memory.wfFrom lo m → Memory.wfFrom lo (m.write a b)
  | lo, [], hlo, _ => by
    simp only [Memory.write]
    split
    · exact ⟨rfl, by simp⟩
    · next hb => exact Memory.wfFrom_cons.2 ⟨hlo, ha, hb, rfl, by simp⟩
  | lo, (a', b') :: rest, hlo, hm => by
    have hm' := Memory.wfFrom_cons.1 hm
    simp only [Memory.write]
    by_cases h1 : a < a'
    · by_cases hb : b = Config.unlistedByte
      · simpa [h1, hb] using hm
      · simp only [h1, hb, if_true, if_false]
        exact Memory.wfFrom_cons.2 ⟨hlo, ha, hb, Memory.wfFrom_cons.2 ⟨by omega, hm'.2⟩⟩
    · by_cases h2 : a = a'
      · subst h2
        by_cases hb : b = Config.unlistedByte
        · simp only [hb, lt_irrefl, if_true, if_false]
          exact Memory.wfFrom_mono (by omega) hm'.2.2.2
        · simp only [hb, lt_irrefl, if_true, if_false]
          exact Memory.wfFrom_cons.2 ⟨hlo, ha, hb, hm'.2.2.2⟩
      · simp only [h1, h2, if_false]
        exact Memory.wfFrom_cons.2 ⟨hm'.1, hm'.2.1, hm'.2.2.1,
          Memory.write_wfFrom b ha (by omega) hm'.2.2.2⟩

theorem Memory.read_write_same_from {a : Nat} (b : Byte) :
    ∀ {lo : Nat} {m : Memory}, Memory.wfFrom lo m → (m.write a b).read a = b
  | _, [], _ => by
    simp only [Memory.write]
    split
    · next hb => simp [hb]
    · simp [Memory.read]
  | _, (a', b') :: rest, hm => by
    have hm' := Memory.wfFrom_cons.1 hm
    simp only [Memory.write]
    by_cases h1 : a < a'
    · by_cases hb : b = Config.unlistedByte
      · have hne : a ≠ a' := by omega
        simp only [h1, hb, if_true, Memory.read, hne, if_false]
        exact Memory.read_below (by omega) hm'.2.2.2
      · simp [h1, hb, Memory.read]
    · by_cases h2 : a = a'
      · subst h2
        by_cases hb : b = Config.unlistedByte
        · simp only [hb, lt_irrefl, if_true, if_false]
          exact Memory.read_below (by omega) hm'.2.2.2
        · simp [hb, Memory.read]
      · simp only [h1, h2, if_false, Memory.read]
        exact Memory.read_write_same_from b hm'.2.2.2

theorem Memory.write_wf {m : Memory} {a : Nat} (b : Byte) (ha : a < 2 ^ 32) (hm : m.wf = true) :
    (m.write a b).wf = true := by
  rw [Memory.wf_iff] at hm ⊢
  exact Memory.write_wfFrom b (by simpa [Config.addrSpace] using ha) (Nat.zero_le _) hm

theorem Memory.read_write_same {m : Memory} (a : Nat) (b : Byte) (hm : m.wf = true) : (m.write a b).read a = b :=
  Memory.read_write_same_from b ((Memory.wf_iff m).1 hm)

/-! ## Bytes at ascending addresses -/

theorem Memory.writeBytes_wf {bs : List Byte} :
    ∀ {m : Memory} {a : Nat}, a + bs.length ≤ 2 ^ 32 → m.wf = true → (m.writeBytes a bs).wf = true := by
  induction bs with
  | nil => exact fun _ hm => hm
  | cons b bs ih =>
    intro m a ha hm
    simp only [List.length_cons] at ha
    exact ih (by omega) (Memory.write_wf b (by omega) hm)

/-- A write leaves every byte outside its range alone. -/
theorem Memory.read_writeBytes_outside {bs : List Byte} :
    ∀ {m : Memory} {a c : Nat}, (c < a ∨ a + bs.length ≤ c) → (m.writeBytes a bs).read c = m.read c := by
  induction bs with
  | nil => exact fun _ => rfl
  | cons b bs ih =>
    intro m a c h
    simp only [List.length_cons] at h
    rw [Memory.writeBytes, ih (by omega), Memory.read_write_other b (by omega)]

/-- A write gives its range the bytes written. -/
theorem Memory.read_writeBytes_inside {bs : List Byte} :
    ∀ {m : Memory} {a : Nat} {j : Nat} (_ : m.wf = true) (_ : a + bs.length ≤ 2 ^ 32) (hj : j < bs.length),
      (m.writeBytes a bs).read (a + j) = bs[j] := by
  induction bs with
  | nil => intro _ _ _ _ _ hj; simp at hj
  | cons b bs ih =>
    intro m a j hm ha hj
    simp only [List.length_cons] at ha hj
    cases j with
    | zero =>
      rw [Memory.writeBytes, Memory.read_writeBytes_outside (by omega), Nat.add_zero,
        Memory.read_write_same a b hm]
      rfl
    | succ j =>
      have h := ih (m := m.write a b) (a := a + 1) (j := j) (Memory.write_wf b (by omega) hm) (by omega) (by omega)
      rw [Memory.writeBytes, show a + (j + 1) = a + 1 + j by omega, h]
      rfl

theorem Memory.readBytes_length (m : Memory) (a n : Nat) : (m.readBytes a n).length = n := by
  simp [Memory.readBytes]

/-- The bytes of a part of the range written. -/
theorem Memory.readBytes_writeBytes {m : Memory} {a : Nat} {bs : List Byte} {o n : Nat} (hm : m.wf = true)
    (ha : a + bs.length ≤ 2 ^ 32) (ho : o + n ≤ bs.length) :
    (m.writeBytes a bs).readBytes (a + o) n = (bs.drop o).take n := by
  apply List.ext_getElem
  · simp [Memory.readBytes]; omega
  · intro j h1 h2
    simp only [Memory.readBytes, List.length_map, List.length_range] at h1
    simp only [Memory.readBytes, List.getElem_map, List.getElem_range, List.getElem_take, List.getElem_drop]
    rw [Nat.add_assoc, Memory.read_writeBytes_inside hm ha (by omega)]

/-! ## Little-endian values -/

theorem leBytes_length (n : Nat) (v : Int) : (leBytes n v).length = n := by simp [leBytes]

theorem leBytes_succ (n : Nat) (v : Int) : leBytes (n + 1) v = BitVec.ofInt 8 v :: leBytes n (asr v 8) := by
  have h : ∀ j : Nat, asr v (8 * (j + 1)) = asr (asr v 8) (8 * j) := fun j => by
    unfold asr
    rw [show 8 * (j + 1) = 8 + 8 * j by omega, Int.shiftRight_add]
  simp only [leBytes, List.range_succ_eq_map, List.map_cons, List.map_map]
  refine List.cons_eq_cons.2 ⟨by simp [asr], List.map_congr_left fun j _ => ?_⟩
  exact congrArg (BitVec.ofInt 8) (h j)

theorem emod_256_mul (v M : Int) (hM : 0 < M) : v % (256 * M) = v % 256 + 256 * (v / 256 % M) := by
  have h1 := Int.mul_ediv_add_emod v 256
  have h2 := Int.mul_ediv_add_emod (v / 256) M
  have h3 := Int.emod_nonneg (v / 256) hM.ne'
  have h4 := Int.emod_lt_of_pos (v / 256) hM
  refine ((Int.ediv_emod_unique (a := v) (r := v % 256 + 256 * (v / 256 % M)) (q := v / 256 / M)
    (show 0 < 256 * M by omega)).2 ⟨?_, by omega, by omega⟩).2
  have h5 : 256 * M * (v / 256 / M) = 256 * (M * (v / 256 / M)) := by ring
  omega

/-- The bytes of a store read back as the value, modulo 2^(8n). -/
theorem leValue_leBytes : ∀ (n : Nat) (v : Int), (leValue (leBytes n v) : Int) = v % 2 ^ (8 * n)
  | 0, v => by simp [leBytes, leValue]
  | n + 1, v => by
    rw [leBytes_succ, leValue, Nat.cast_add, Nat.cast_mul, leValue_leBytes n, BitVec.toNat_ofInt, asr_eq_floor]
    have hpow : (2 : Int) ^ (8 * (n + 1)) = 256 * 2 ^ (8 * n) := by rw [Nat.mul_add, pow_add]; ring
    have h1 : ((v % ((2 ^ 8 : Nat) : Int)).toNat : Int) = v % 256 := Int.toNat_of_nonneg (by omega)
    rw [h1, hpow, emod_256_mul v _ (by positivity)]
    rfl

theorem leValue_lt (bs : List Byte) : leValue bs < 2 ^ (8 * bs.length) := by
  induction bs with
  | nil => simp [leValue]
  | cons b bs ih =>
    have hb := b.isLt
    simp only [leValue, List.length_cons, Nat.mul_add, pow_add]
    omega

/-- Reading n bytes that a store of v wrote gives `wrap` of v. -/
theorem wrap_leValue_leBytes (n : Nat) (v : Int) : wrap (8 * n) (leValue (leBytes n v)) = wrap (8 * n) v := by
  rw [leValue_leBytes]
  exact wrap_congr (Int.emod_emod_of_dvd _ (dvd_refl _))

end Sys2Proof.Machine
end

