-- ==== Sys2Proof/Laws/State.lean ====
section
/-! SUPPORT. One lemma per field per named update of the state, true by rfl. -/

namespace Sys2Proof.Machine

/-! ## raise -/

@[simp] theorem raise_cmd (c : ErrCode) (s : State) : (raise c s).cmd = s.cmd := rfl
@[simp] theorem raise_srca (c : ErrCode) (s : State) : (raise c s).srca = s.srca := rfl
@[simp] theorem raise_srcb (c : ErrCode) (s : State) : (raise c s).srcb = s.srcb := rfl
@[simp] theorem raise_dst (c : ErrCode) (s : State) : (raise c s).dst = s.dst := rfl
@[simp] theorem raise_dst2 (c : ErrCode) (s : State) : (raise c s).dst2 = s.dst2 := rfl
@[simp] theorem raise_len (c : ErrCode) (s : State) : (raise c s).len = s.len := rfl
@[simp] theorem raise_shift (c : ErrCode) (s : State) : (raise c s).shift = s.shift := rfl
@[simp] theorem raise_arg (c : ErrCode) (s : State) : (raise c s).arg = s.arg := rfl
@[simp] theorem raise_res0 (c : ErrCode) (s : State) : (raise c s).res0 = s.res0 := rfl
@[simp] theorem raise_res1 (c : ErrCode) (s : State) : (raise c s).res1 = s.res1 := rfl
@[simp] theorem raise_err (c : ErrCode) (s : State) : (raise c s).err = true := rfl
@[simp] theorem raise_lastErr (c : ErrCode) (s : State) : (raise c s).lastErr = c := rfl
@[simp] theorem raise_ctx (c : ErrCode) (s : State) : (raise c s).ctx = s.ctx := rfl
@[simp] theorem raise_mem (c : ErrCode) (s : State) : (raise c s).mem = s.mem := rfl
@[simp] theorem raise_platform (c : ErrCode) (s : State) : (raise c s).platform = s.platform := rfl
@[simp] theorem raise_inputs (c : ErrCode) (s : State) : (raise c s).inputs = s.inputs := rfl
@[simp] theorem raise_pos (c : ErrCode) (s : State) : (raise c s).pos = s.pos := rfl
@[simp] theorem raise_readData (c : ErrCode) (s : State) : (raise c s).readData = s.readData := rfl
@[simp] theorem raise_freeCount (c : ErrCode) (s : State) : (raise c s).freeCount = s.freeCount := rfl

/-! ## succeed -/

@[simp] theorem succeed_cmd (s : State) : (succeed s).cmd = s.cmd := rfl
@[simp] theorem succeed_srca (s : State) : (succeed s).srca = s.srca := rfl
@[simp] theorem succeed_srcb (s : State) : (succeed s).srcb = s.srcb := rfl
@[simp] theorem succeed_dst (s : State) : (succeed s).dst = s.dst := rfl
@[simp] theorem succeed_dst2 (s : State) : (succeed s).dst2 = s.dst2 := rfl
@[simp] theorem succeed_len (s : State) : (succeed s).len = s.len := rfl
@[simp] theorem succeed_shift (s : State) : (succeed s).shift = s.shift := rfl
@[simp] theorem succeed_arg (s : State) : (succeed s).arg = s.arg := rfl
@[simp] theorem succeed_res0 (s : State) : (succeed s).res0 = s.res0 := rfl
@[simp] theorem succeed_res1 (s : State) : (succeed s).res1 = s.res1 := rfl
@[simp] theorem succeed_err (s : State) : (succeed s).err = s.err := rfl
@[simp] theorem succeed_lastErr (s : State) : (succeed s).lastErr = .ok := rfl
@[simp] theorem succeed_ctx (s : State) : (succeed s).ctx = s.ctx := rfl
@[simp] theorem succeed_mem (s : State) : (succeed s).mem = s.mem := rfl
@[simp] theorem succeed_platform (s : State) : (succeed s).platform = s.platform := rfl
@[simp] theorem succeed_inputs (s : State) : (succeed s).inputs = s.inputs := rfl
@[simp] theorem succeed_pos (s : State) : (succeed s).pos = s.pos := rfl
@[simp] theorem succeed_readData (s : State) : (succeed s).readData = s.readData := rfl
@[simp] theorem succeed_freeCount (s : State) : (succeed s).freeCount = s.freeCount := rfl

/-! ## clearError -/

@[simp] theorem clearError_cmd (s : State) : (clearError s).cmd = s.cmd := rfl
@[simp] theorem clearError_srca (s : State) : (clearError s).srca = s.srca := rfl
@[simp] theorem clearError_srcb (s : State) : (clearError s).srcb = s.srcb := rfl
@[simp] theorem clearError_dst (s : State) : (clearError s).dst = s.dst := rfl
@[simp] theorem clearError_dst2 (s : State) : (clearError s).dst2 = s.dst2 := rfl
@[simp] theorem clearError_len (s : State) : (clearError s).len = s.len := rfl
@[simp] theorem clearError_shift (s : State) : (clearError s).shift = s.shift := rfl
@[simp] theorem clearError_arg (s : State) : (clearError s).arg = s.arg := rfl
@[simp] theorem clearError_res0 (s : State) : (clearError s).res0 = s.res0 := rfl
@[simp] theorem clearError_res1 (s : State) : (clearError s).res1 = s.res1 := rfl
@[simp] theorem clearError_err (s : State) : (clearError s).err = false := rfl
@[simp] theorem clearError_lastErr (s : State) : (clearError s).lastErr = .ok := rfl
@[simp] theorem clearError_ctx (s : State) : (clearError s).ctx = s.ctx := rfl
@[simp] theorem clearError_mem (s : State) : (clearError s).mem = s.mem := rfl
@[simp] theorem clearError_platform (s : State) : (clearError s).platform = s.platform := rfl
@[simp] theorem clearError_inputs (s : State) : (clearError s).inputs = s.inputs := rfl
@[simp] theorem clearError_pos (s : State) : (clearError s).pos = s.pos := rfl
@[simp] theorem clearError_readData (s : State) : (clearError s).readData = s.readData := rfl
@[simp] theorem clearError_freeCount (s : State) : (clearError s).freeCount = s.freeCount := rfl

/-! ## returnToHost -/

@[simp] theorem returnToHost_cmd (s : State) (v : Word) : (returnToHost s v).cmd = s.cmd := rfl
@[simp] theorem returnToHost_srca (s : State) (v : Word) : (returnToHost s v).srca = s.srca := rfl
@[simp] theorem returnToHost_srcb (s : State) (v : Word) : (returnToHost s v).srcb = s.srcb := rfl
@[simp] theorem returnToHost_dst (s : State) (v : Word) : (returnToHost s v).dst = s.dst := rfl
@[simp] theorem returnToHost_dst2 (s : State) (v : Word) : (returnToHost s v).dst2 = s.dst2 := rfl
@[simp] theorem returnToHost_len (s : State) (v : Word) : (returnToHost s v).len = s.len := rfl
@[simp] theorem returnToHost_shift (s : State) (v : Word) : (returnToHost s v).shift = s.shift := rfl
@[simp] theorem returnToHost_arg (s : State) (v : Word) : (returnToHost s v).arg = s.arg := rfl
@[simp] theorem returnToHost_res0 (s : State) (v : Word) : (returnToHost s v).res0 = s.res0 := rfl
@[simp] theorem returnToHost_res1 (s : State) (v : Word) : (returnToHost s v).res1 = s.res1 := rfl
@[simp] theorem returnToHost_err (s : State) (v : Word) : (returnToHost s v).err = s.err := rfl
@[simp] theorem returnToHost_lastErr (s : State) (v : Word) : (returnToHost s v).lastErr = s.lastErr := rfl
@[simp] theorem returnToHost_ctx (s : State) (v : Word) : (returnToHost s v).ctx = s.ctx := rfl
@[simp] theorem returnToHost_mem (s : State) (v : Word) : (returnToHost s v).mem = s.mem := rfl
@[simp] theorem returnToHost_platform (s : State) (v : Word) : (returnToHost s v).platform = s.platform := rfl
@[simp] theorem returnToHost_inputs (s : State) (v : Word) : (returnToHost s v).inputs = s.inputs := rfl
@[simp] theorem returnToHost_pos (s : State) (v : Word) : (returnToHost s v).pos = s.pos := rfl
@[simp] theorem returnToHost_readData (s : State) (v : Word) : (returnToHost s v).readData = s.readData ++ [v] := rfl
@[simp] theorem returnToHost_freeCount (s : State) (v : Word) : (returnToHost s v).freeCount = s.freeCount := rfl

/-! ## advance -/

@[simp] theorem advance_cmd (s : State) : (advance s).cmd = s.cmd := rfl
@[simp] theorem advance_srca (s : State) : (advance s).srca = s.srca := rfl
@[simp] theorem advance_srcb (s : State) : (advance s).srcb = s.srcb := rfl
@[simp] theorem advance_dst (s : State) : (advance s).dst = s.dst := rfl
@[simp] theorem advance_dst2 (s : State) : (advance s).dst2 = s.dst2 := rfl
@[simp] theorem advance_len (s : State) : (advance s).len = s.len := rfl
@[simp] theorem advance_shift (s : State) : (advance s).shift = s.shift := rfl
@[simp] theorem advance_arg (s : State) : (advance s).arg = s.arg := rfl
@[simp] theorem advance_res0 (s : State) : (advance s).res0 = s.res0 := rfl
@[simp] theorem advance_res1 (s : State) : (advance s).res1 = s.res1 := rfl
@[simp] theorem advance_err (s : State) : (advance s).err = s.err := rfl
@[simp] theorem advance_lastErr (s : State) : (advance s).lastErr = s.lastErr := rfl
@[simp] theorem advance_ctx (s : State) : (advance s).ctx = s.ctx := rfl
@[simp] theorem advance_mem (s : State) : (advance s).mem = s.mem := rfl
@[simp] theorem advance_platform (s : State) : (advance s).platform = s.platform := rfl
@[simp] theorem advance_inputs (s : State) : (advance s).inputs = s.inputs := rfl
@[simp] theorem advance_pos (s : State) : (advance s).pos = s.pos + 1 := rfl
@[simp] theorem advance_readData (s : State) : (advance s).readData = s.readData := rfl
@[simp] theorem advance_freeCount (s : State) : (advance s).freeCount = s.freeCount := rfl

/-! ## resetUnit -/

@[simp] theorem resetUnit_cmd (s : State) : (resetUnit s).cmd = 0 := rfl
@[simp] theorem resetUnit_srca (s : State) : (resetUnit s).srca = 0 := rfl
@[simp] theorem resetUnit_srcb (s : State) : (resetUnit s).srcb = 0 := rfl
@[simp] theorem resetUnit_dst (s : State) : (resetUnit s).dst = 0 := rfl
@[simp] theorem resetUnit_dst2 (s : State) : (resetUnit s).dst2 = 0 := rfl
@[simp] theorem resetUnit_len (s : State) : (resetUnit s).len = 0 := rfl
@[simp] theorem resetUnit_shift (s : State) : (resetUnit s).shift = 0 := rfl
@[simp] theorem resetUnit_arg (s : State) : (resetUnit s).arg = 0 := rfl
@[simp] theorem resetUnit_res0 (s : State) : (resetUnit s).res0 = 0 := rfl
@[simp] theorem resetUnit_res1 (s : State) : (resetUnit s).res1 = 0 := rfl
@[simp] theorem resetUnit_err (s : State) : (resetUnit s).err = false := rfl
@[simp] theorem resetUnit_lastErr (s : State) : (resetUnit s).lastErr = .ok := rfl
@[simp] theorem resetUnit_ctx (s : State) : (resetUnit s).ctx = VitContext.reset (Config.freeMetrics s.freeCount) := rfl
@[simp] theorem resetUnit_mem (s : State) : (resetUnit s).mem = s.mem := rfl
@[simp] theorem resetUnit_platform (s : State) : (resetUnit s).platform = s.platform := rfl
@[simp] theorem resetUnit_inputs (s : State) : (resetUnit s).inputs = s.inputs := rfl
@[simp] theorem resetUnit_pos (s : State) : (resetUnit s).pos = s.pos := rfl
@[simp] theorem resetUnit_readData (s : State) : (resetUnit s).readData = s.readData := rfl
@[simp] theorem resetUnit_freeCount (s : State) : (resetUnit s).freeCount = s.freeCount + 1 := rfl

/-! ## resets -/

@[simp] theorem reset_mem : State.reset.mem = [] := rfl
@[simp] theorem reset_ctx : State.reset.ctx = VitContext.reset (Config.freeMetrics 0) := rfl
@[simp] theorem reset_lastErr : State.reset.lastErr = .ok := rfl
@[simp] theorem contextReset_vstate (m : Metrics) : (VitContext.reset m).vstate = .uninitialized := rfl

end Sys2Proof.Machine
end

