-- ==== Sys2Proof/Laws/Ops.lean ====
section
/-! SUPPORT. What the shared operations of a command can do: the buffer checks, the commit, the four phases. -/

namespace Sys2Proof.Machine

/-! ## Buffer checks -/

theorem outOfRange_iff (b : Buf) : b.outOfRange = true ↔ 0 < b.size ∧ 2 ^ 32 < b.addr + b.size := by
  simp only [Buf.outOfRange, Bool.and_eq_true, decide_eq_true_eq]
  rfl

theorem notAdmitted_iff (p : Platform) (b : Buf) :
    b.notAdmitted p = true ↔ 0 < b.size ∧ p.memAdmit b.addr b.size = false := by
  simp [Buf.notAdmitted]

theorem bufOk_iff (p : Platform) (b : Buf) :
    bufOk p b ↔ b.outOfRange = false ∧ b.notAdmitted p = false := by
  simp only [← Bool.not_eq_true, outOfRange_iff, notAdmitted_iff, bufOk]
  rcases Nat.eq_zero_or_pos b.size with h | h
  · simp [h]
  · have : b.size ≠ 0 := by omega
    simp [h, this]

/-- `CheckBuffers` passes exactly when every buffer passes both checks. -/
theorem checkBuffers_eq_none (p : Platform) (bs : List Buf) :
    checkBuffers p bs = none ↔ ∀ b ∈ bs, bufOk p b := by
  simp only [bufOk_iff, checkBuffers]
  split
  · next h =>
    rw [List.any_eq_true] at h
    obtain ⟨b, hb, h⟩ := h
    simp only [reduceCtorEq, false_iff, not_forall]
    exact ⟨b, hb, by simp [h]⟩
  · next h =>
    rw [List.any_eq_true] at h
    split
    · next h2 =>
      rw [List.any_eq_true] at h2
      obtain ⟨b, hb, h2⟩ := h2
      simp only [reduceCtorEq, false_iff, not_forall]
      exact ⟨b, hb, by simp [h2]⟩
    · next h2 =>
      rw [List.any_eq_true] at h2
      push Not at h h2
      simp only [true_iff]
      exact fun b hb => ⟨by simpa using h b hb, by simpa using h2 b hb⟩

/-- The code of `CheckBuffers`: a range first, then an admission. -/
theorem checkBuffers_eq_range (p : Platform) (bs : List Buf) :
    checkBuffers p bs = some .range ↔ ∃ b ∈ bs, 0 < b.size ∧ 2 ^ 32 < b.addr + b.size := by
  simp only [← outOfRange_iff, checkBuffers, ← List.any_eq_true]
  split
  · next h => simp [h]
  · next h => split <;> simp [h]

theorem checkBuffers_code {p : Platform} {bs : List Buf} {c : ErrCode} (h : checkBuffers p bs = some c) :
    c = .range ∨ c = .bus := by
  simp only [checkBuffers] at h
  split at h
  · exact .inl (Option.some.inj h).symm
  · split at h
    · exact .inr (Option.some.inj h).symm
    · cases h

/-- The order of a command's checks (60_exceptions R243). -/
theorem firstError_eq_none (p : Platform) (own : Option ErrCode) (ins outs : List Buf) :
    firstError p own ins outs = none ↔ own = none ∧ ∀ b ∈ ins ++ outs, bufOk p b := by
  simp only [List.forall_mem_append, ← checkBuffers_eq_none, firstError]
  cases own with
  | some c => simp
  | none => cases checkBuffers p ins <;> simp

theorem firstError_code {p : Platform} {own : Option ErrCode} {ins outs : List Buf} {c : ErrCode}
    (h : firstError p own ins outs = some c) : own = some c ∨ c = .range ∨ c = .bus := by
  simp only [firstError] at h
  cases own with
  | some c' => exact .inl h
  | none =>
    cases hi : checkBuffers p ins with
    | some c' =>
      simp only [hi] at h
      exact .inr (checkBuffers_code (hi.trans h))
    | none =>
      simp only [hi] at h
      exact .inr (checkBuffers_code h)

/-! ## The four phases -/

theorem runPhases_raise {own : Option ErrCode} {ins : List Buf} {outs : List OutBuf} {upd : State → State} {s : State}
    {c : ErrCode} (h : firstError s.platform own ins (outs.map OutBuf.buf) = some c) :
    runPhases own ins outs upd s = .next (raise c s) := by
  simp [runPhases, h]

theorem runPhases_succeed {own : Option ErrCode} {ins : List Buf} {outs : List OutBuf} {upd : State → State} {s : State}
    (h : firstError s.platform own ins (outs.map OutBuf.buf) = none) :
    runPhases own ins outs upd s = .next (succeed (upd { s with mem := commit s.mem outs })) := by
  simp [runPhases, h]

/-- Everything a command can do: raise one code, or commit and succeed. -/
theorem runPhases_cases {own : Option ErrCode} {ins : List Buf} {outs : List OutBuf} {upd : State → State} {s t : State}
    (h : runPhases own ins outs upd s = .next t) :
    (∃ c, firstError s.platform own ins (outs.map OutBuf.buf) = some c ∧ t = raise c s) ∨
    (firstError s.platform own ins (outs.map OutBuf.buf) = none ∧
      t = succeed (upd { s with mem := commit s.mem outs })) := by
  cases hf : firstError s.platform own ins (outs.map OutBuf.buf) with
  | some c =>
    rw [runPhases_raise hf] at h
    exact .inl ⟨c, rfl, (Host.Outcome.next.inj h).symm⟩
  | none =>
    rw [runPhases_succeed hf] at h
    exact .inr ⟨rfl, (Host.Outcome.next.inj h).symm⟩

/-- A command never faults and is never refused (60_exceptions R245). -/
theorem runPhases_next (own : Option ErrCode) (ins : List Buf) (outs : List OutBuf) (upd : State → State) (s : State) :
    ∃ t, runPhases own ins outs upd s = .next t := by
  unfold runPhases
  split <;> exact ⟨_, rfl⟩

/-! ## The commit -/

@[simp] theorem commit_nil (m : Memory) : commit m [] = m := rfl

@[simp] theorem commit_one (m : Memory) (o : OutBuf) : commit m [o] = m.writeBytes o.buf.addr o.data := rfl

/-- The commit keeps memory canonical when its buffers are in range and as long as their data. -/
theorem commit_wf : ∀ {outs : List OutBuf} {m : Memory} (_ : ∀ o ∈ outs, o.data.length = o.buf.size)
    (_ : ∀ o ∈ outs, o.buf.size = 0 ∨ o.buf.addr + o.buf.size ≤ 2 ^ 32), m.wf = true → (commit m outs).wf = true
  | [], _, _, _, hm => hm
  | o :: rest, m, hl, hr, hm => by
    have h1 := hl o (by simp)
    have h2 := hr o (by simp)
    refine commit_wf (m := m.writeBytes o.buf.addr o.data) (fun o ho => hl o (by simp [ho]))
      (fun o ho => hr o (by simp [ho])) ?_
    rcases h2 with h2 | h2
    · have : o.data = [] := List.length_eq_zero_iff.1 (by omega)
      rw [this]
      exact hm
    · exact Memory.writeBytes_wf (by omega) hm

/-- The commit leaves every byte outside its buffers alone. -/
theorem commit_read_outside : ∀ {outs : List OutBuf} {m : Memory} {a : Nat}
    (_ : ∀ o ∈ outs, o.data.length = o.buf.size)
    (_ : ∀ o ∈ outs, a < o.buf.addr ∨ o.buf.addr + o.buf.size ≤ a), (commit m outs).read a = m.read a
  | [], _, _, _, _ => rfl
  | o :: rest, m, a, hl, ho => by
    have h1 := hl o (by simp)
    rw [commit, commit_read_outside (fun o h => hl o (by simp [h])) (fun o h => ho o (by simp [h]))]
    exact Memory.read_writeBytes_outside (by have := ho o (by simp); omega)

/-! ## The admitted set -/

/-- Every set of ranges below the top of the address space is some list of entries, so `admitted` loses nothing of
`P_MEM_ADMIT` (00_scope R6; log 2). -/
theorem memAdmit_represents (f : Nat → Nat → Bool) (p : Platform) :
    ∃ l : List AdmitRange, ∀ a n, a + n ≤ 2 ^ 32 → ({ p with admitted := l } : Platform).memAdmit a n = f a n := by
  let all := (List.range (2 ^ 32 + 1)).flatMap fun a => (List.range (2 ^ 32 + 1)).map fun n => (a, n)
  refine ⟨(all.filter fun q => f q.1 q.2).map fun q => .exactly q.1 q.2, fun a n h => ?_⟩
  rw [Bool.eq_iff_iff]
  simp only [Platform.memAdmit, List.any_map, List.any_eq_true, List.mem_filter, Function.comp_def, AdmitRange.admits,
    Bool.and_eq_true, beq_iff_eq]
  constructor
  · rintro ⟨⟨a', n'⟩, ⟨-, hf⟩, rfl, rfl⟩
    exact hf
  · intro hf
    refine ⟨(a, n), ⟨?_, hf⟩, rfl, rfl⟩
    simp only [all, List.mem_flatMap, List.mem_map, List.mem_range]
    exact ⟨a, by omega, n, by omega, rfl⟩

end Sys2Proof.Machine
end

