-- ==== Sys2Proof/Laws/Operands.lean ====
section
/-! SUPPORT. Elements of buffers: their store and load agree, and what an elementwise command does. -/

namespace Sys2Proof.Machine

/-- What an element type must satisfy: a stored value takes sz(T) bytes, and reading those bytes gives the value
brought into the type's range. -/
structure ElemType.Lawful {α : Type} (T : ElemType α) (norm : α → α) : Prop where
  length : ∀ v, (T.bytes v).length = T.size
  load : ∀ (m : Memory) (e : Nat) (v : α), m.readBytes e T.size = T.bytes v → T.load m e = norm v

theorem scalarType_lawful (n : Nat) : (scalarType n).Lawful (wrap (8 * n)) where
  length := leBytes_length n
  load := fun m e v h => by
    simp only [scalarType] at h
    simp only [scalarType, sext, Memory.memRead, h, wrap_leValue_leBytes]

theorem readBytes_add (m : Memory) (e n k : Nat) : m.readBytes e (n + k) = m.readBytes e n ++ m.readBytes (e + n) k := by
  simp only [Memory.readBytes, List.range_add, List.map_append, List.map_map]
  congr 1
  apply List.map_congr_left
  intro j _
  simp [Nat.add_assoc]

theorem complexType_lawful (n : Nat) : (complexType n).Lawful (Cplx.map (wrap (8 * n))) where
  length := fun v => by simp [complexType, leBytes_length]; omega
  load := fun m e v h => by
    simp only [complexType, two_mul, readBytes_add] at h
    obtain ⟨h1, h2⟩ := List.append_inj h (by simp [Memory.readBytes_length, leBytes_length])
    simp only [complexType, sext, Memory.memRead, h1, h2, wrap_leValue_leBytes, Cplx.map]

theorem int16_lawful : int16.Lawful (wrap 16) := scalarType_lawful 2
theorem int32_lawful : int32.Lawful (wrap 32) := scalarType_lawful 4
theorem complex8_lawful : complex8.Lawful (Cplx.map (wrap 8)) := complexType_lawful 1
theorem complex16_lawful : complex16.Lawful (Cplx.map (wrap 16)) := complexType_lawful 2
theorem complex32_lawful : complex32.Lawful (Cplx.map (wrap 32)) := complexType_lawful 4

theorem storeBytes_length {α : Type} {T : ElemType α} {norm : α → α} (hT : T.Lawful norm) (vs : List α) :
    (storeBytes T vs).length = vs.length * T.size := by
  induction vs with
  | nil => simp [storeBytes]
  | cons v vs ih =>
    simp only [storeBytes, List.flatMap_cons, List.length_append, hT.length, List.length_cons] at ih ⊢
    rw [ih, Nat.add_mul]
    omega

theorem storeBytes_slice {α : Type} {T : ElemType α} {norm : α → α} (hT : T.Lawful norm) :
    ∀ (vs : List α) (i : Nat) (hi : i < vs.length),
      ((storeBytes T vs).drop (i * T.size)).take T.size = T.bytes vs[i]
  | v :: vs, 0, _ => by simp [storeBytes, List.take_left' (hT.length v)]
  | v :: vs, i + 1, hi => by
    have h1 := hT.length v
    have ih := storeBytes_slice hT vs i (by simpa using hi)
    simp only [storeBytes, List.flatMap_cons, List.getElem_cons_succ] at ih ⊢
    rw [show (i + 1) * T.size = (T.bytes v).length + i * T.size by rw [h1]; ring, List.drop_length_add_append]
    exact ih

/-- An element stored by a command reads back as its value in the type's range (20_memory R53). -/
theorem loadElem_writeBytes {α : Type} {T : ElemType α} {norm : α → α} (hT : T.Lawful norm) {m : Memory} {a : Nat}
    {vs : List α} {i : Nat} (hm : m.wf = true) (ha : a + vs.length * T.size ≤ 2 ^ 32) (hi : i < vs.length) :
    loadElem T (m.writeBytes a (storeBytes T vs)) a i = norm vs[i] := by
  apply hT.load
  have hl := storeBytes_length hT vs
  have hle : (i + 1) * T.size ≤ vs.length * T.size := Nat.mul_le_mul_right _ hi
  rw [Nat.add_mul] at hle
  rw [Memory.readBytes_writeBytes hm (by omega) (by omega), storeBytes_slice hT vs i hi]

/-- An element is its bytes: two memories that agree on them give one element. -/
theorem scalarLoad_congr (n : Nat) {m m' : Memory} {e : Nat} (h : m.readBytes e n = m'.readBytes e n) :
    (scalarType n).load m e = (scalarType n).load m' e := by
  simp [scalarType, Memory.memRead, h]

theorem sext_range {n : Nat} (hn : 1 ≤ n) (v : Int) :
    -(2 ^ (8 * n) : Int) ≤ 2 * sext (8 * n) v ∧ 2 * sext (8 * n) v < (2 ^ (8 * n) : Int) :=
  ⟨wrap_lower _ _, wrap_upper (by omega) _⟩

/-- A loaded scalar is in its type's range (40_vector_arith R131). -/
theorem scalarLoad_range {n : Nat} (hn : 1 ≤ n) (m : Memory) (e : Nat) :
    -(2 ^ (8 * n) : Int) ≤ 2 * (scalarType n).load m e ∧ 2 * (scalarType n).load m e < (2 ^ (8 * n) : Int) :=
  sext_range hn _

/-- So is each component of a loaded complex value. -/
theorem complexLoad_range {n : Nat} (hn : 1 ≤ n) (m : Memory) (e : Nat) :
    (-(2 ^ (8 * n) : Int) ≤ 2 * ((complexType n).load m e).re ∧ 2 * ((complexType n).load m e).re < (2 ^ (8 * n) : Int)) ∧
    (-(2 ^ (8 * n) : Int) ≤ 2 * ((complexType n).load m e).im ∧ 2 * ((complexType n).load m e).im < (2 ^ (8 * n) : Int)) :=
  ⟨sext_range hn _, sext_range hn _⟩

/-! ## The elementwise procedure -/

/-- A command whose outputs are the elements `vs` at DST: when its buffers pass, it completes, DST holds the elements,
and nothing else changes. -/
theorem runPhases_outD {α : Type} {T : ElemType α} {norm : α → α} (hT : T.Lawful norm) {ins : List Buf}
    {own : Option ErrCode} {vs : List α} {L : Nat} {s : State} (hL : vs.length = L) (hm : s.mem.wf = true)
    (hown : own = none) (hok : ∀ b ∈ ins ++ [s.bufD (L * T.size)], bufOk s.platform b) :
    ∃ t, runPhases own ins [s.outD T vs L] id s = .next t ∧ wroteOnly (s.bufD (L * T.size)) s t ∧
      ∀ i (hi : i < L), loadElem T t.mem s.dst.toNat i = norm (vs[i]'(hL ▸ hi)) := by
  subst hL
  have hf : firstError s.platform own ins ([s.outD T vs vs.length].map OutBuf.buf) = none :=
    (firstError_eq_none _ _ _ _).2 ⟨hown, by simpa [State.outD] using hok⟩
  refine ⟨_, runPhases_succeed hf, ⟨rfl, ?_⟩, ?_⟩
  · intro a ha
    refine commit_read_outside ?_ ?_
    · simp [State.outD, State.bufD, storeBytes_length hT]
    · simpa [State.outD] using ha
  · intro i hi
    rcases hok (s.bufD (vs.length * T.size)) (by simp) with h0 | ⟨hr, _⟩
    · simp only [State.bufD] at h0
      have hsz : T.size = 0 := (Nat.mul_eq_zero.1 h0).resolve_left (by omega)
      have hb : ∀ v, T.bytes v = [] := fun v => List.length_eq_zero_iff.1 ((hT.length v).trans hsz)
      refine hT.load _ _ _ ?_
      simp [hsz, hb, Memory.readBytes]
    · exact loadElem_writeBytes hT hm hr hi

theorem elemwise2_completes {α β : Type} {Ti : ElemType α} {To : ElemType β} {norm : β → β} (hT : To.Lawful norm)
    (f : α → α → Nat → β) {s : State} (hm : s.mem.wf = true)
    (hok : ∀ b ∈ [s.bufA (s.opLen * Ti.size), s.bufB (s.opLen * Ti.size)] ++ [s.bufD (s.opLen * To.size)],
      bufOk s.platform b) :
    ∃ t, elemwise2 Ti To f s = .next t ∧ wroteOnly (s.bufD (s.opLen * To.size)) s t ∧
      ∀ i < s.opLen, loadElem To t.mem s.dst.toNat i =
        norm (f (loadElem Ti s.mem s.srca.toNat i) (loadElem Ti s.mem s.srcb.toNat i) s.opShift) := by
  obtain ⟨t, h1, h2, h3⟩ := runPhases_outD hT (L := s.opLen) (vs := (List.range s.opLen).map fun i =>
    f (loadElem Ti s.mem s.srca.toNat i) (loadElem Ti s.mem s.srcb.toNat i) s.opShift)
    (by simp) hm rfl hok
  exact ⟨t, h1, h2, fun i hi => by simpa using h3 i hi⟩

theorem elemwise1_completes {α β : Type} {Ti : ElemType α} {To : ElemType β} {norm : β → β} (hT : To.Lawful norm)
    (f : α → Nat → β) {s : State} (hm : s.mem.wf = true)
    (hok : ∀ b ∈ [s.bufA (s.opLen * Ti.size)] ++ [s.bufD (s.opLen * To.size)], bufOk s.platform b) :
    ∃ t, elemwise1 Ti To f s = .next t ∧ wroteOnly (s.bufD (s.opLen * To.size)) s t ∧
      ∀ i < s.opLen, loadElem To t.mem s.dst.toNat i = norm (f (loadElem Ti s.mem s.srca.toNat i) s.opShift) := by
  obtain ⟨t, h1, h2, h3⟩ := runPhases_outD hT (L := s.opLen) (vs := (List.range s.opLen).map fun i =>
    f (loadElem Ti s.mem s.srca.toNat i) s.opShift) (by simp) hm rfl hok
  exact ⟨t, h1, h2, fun i hi => by simpa using h3 i hi⟩

/-! ## Sums, the horizontal add, plain bytes -/

@[simp] theorem wrap_zero (N : Nat) : wrap N 0 = 0 := by simp [wrap]

/-- Wrapping at every step of a sum is wrapping its total (40_vector_arith R131). -/
theorem foldl_wrap_add (N : Nat) (l : List Int) (a : Int) :
    l.foldl (fun acc x => wrap N (acc + x)) (wrap N a) = wrap N (a + l.sum) := by
  induction l generalizing a with
  | nil => simp
  | cons x l ih => simp only [List.foldl_cons, wrap_wrap_add, ih, List.sum_cons]; congr 1; ring

/-- The same for each component of a complex sum. -/
theorem foldl_wrap_cplx (N : Nat) (l : List Cplx) (a b : Int) :
    l.foldl (fun acc x => (acc.add x).map (wrap N)) (⟨wrap N a, wrap N b⟩ : Cplx) =
      ⟨wrap N (a + (l.map Cplx.re).sum), wrap N (b + (l.map Cplx.im).sum)⟩ := by
  induction l generalizing a b with
  | nil => simp
  | cons x l ih =>
    have h : ((⟨wrap N a, wrap N b⟩ : Cplx).add x).map (wrap N) = ⟨wrap N (a + x.re), wrap N (b + x.im)⟩ := by
      simp [Cplx.add, Cplx.map]
    rw [List.foldl_cons, h, ih]
    simp [add_assoc]

theorem sumElems_completes {α : Type} (T : ElemType α) (zero : α) (add : α → α → α) (res : α → Word × Word) {s : State}
    (hok : bufOk s.platform (s.bufA (s.opLen * T.size))) :
    sumElems T zero add res s = .next { s with
      res0 := (res ((loadElems T s.mem s.srca.toNat s.opLen).foldl add zero)).1
      res1 := (res ((loadElems T s.mem s.srca.toNat s.opLen).foldl add zero)).2
      lastErr := .ok } := by
  unfold sumElems
  exact runPhases_succeed ((firstError_eq_none _ _ _ _).2 ⟨rfl, by simpa using hok⟩)

theorem haddElems_completes {α : Type} {T : ElemType α} {norm : α → α} (hT : T.Lawful norm) (total : α → α → α → α → α)
    {s : State} (hm : s.mem.wf = true) (hok : ∀ b ∈ [s.bufA (4 * T.size)] ++ [s.bufD (4 * T.size)], bufOk s.platform b) :
    ∃ t, haddElems T total s = .next t ∧ wroteOnly (s.bufD (4 * T.size)) s t ∧
      ∀ i < 4, loadElem T t.mem s.dst.toNat i = norm (total (loadElem T s.mem s.srca.toNat 0)
        (loadElem T s.mem s.srca.toNat 1) (loadElem T s.mem s.srca.toNat 2) (loadElem T s.mem s.srca.toNat 3)) := by
  obtain ⟨t, h1, h2, h3⟩ := runPhases_outD hT (L := 4) (vs := List.replicate 4 (total (loadElem T s.mem s.srca.toNat 0)
        (loadElem T s.mem s.srca.toNat 1) (loadElem T s.mem s.srca.toNat 2) (loadElem T s.mem s.srca.toNat 3)))
    (by simp) hm rfl hok
  exact ⟨t, h1, h2, fun i hi => by rw [h3 i hi, List.getElem_replicate]⟩

/-- A command whose output is `n` plain bytes at DST, byte j being `r j`. -/
theorem runPhases_bytesD {ins : List Buf} {own : Option ErrCode} {n : Nat} {r : Nat → Byte} {s : State}
    (hm : s.mem.wf = true) (hown : own = none) (hok : ∀ b ∈ ins ++ [s.bufD n], bufOk s.platform b) :
    ∃ t, runPhases own ins [⟨s.bufD n, (List.range n).map r⟩] id s = .next t ∧ wroteOnly (s.bufD n) s t ∧
      ∀ j < n, t.mem.read (s.dst.toNat + j) = r j := by
  refine ⟨_, runPhases_succeed ((firstError_eq_none _ _ _ _).2 ⟨hown, hok⟩), ⟨rfl, ?_⟩, fun j hj => ?_⟩
  · exact fun a ha => commit_read_outside (by simp [State.bufD]) (by simpa using ha)
  · rcases hok (s.bufD n) (by simp) with h0 | ⟨hr, _⟩
    · simp [State.bufD] at h0; omega
    · simp only [State.bufD] at hr
      have := Memory.read_writeBytes_inside (bs := (List.range n).map r) (j := j) hm (by simpa using hr)
        (by simpa using hj)
      exact Eq.trans this (by simp)

end Sys2Proof.Machine
end

