-- ==== Sys2Proof/Laws/Exec.lean ====
section
/-! SUPPORT. What `exec` can do, once for all 42 commands. -/

namespace Sys2Proof.Machine

/-- A register update of the commit phase touches only what family VD, VSUM and VIT.DECODE may write. -/
structure UpdOk (i : Instr) (upd : State → State) : Prop where
  frame : ∀ t, upd t = { t with ctx := (upd t).ctx, res0 := (upd t).res0, res1 := (upd t).res1 }
  ctx : isViterbi i = false → ∀ t, (upd t).ctx = t.ctx
  res : writesResults i = false → ∀ t, (upd t).res0 = t.res0 ∧ (upd t).res1 = t.res1

/-- The form every command has. -/
structure Shape (i : Instr) (s : State) (own : Option ErrCode) (ins : List Buf) (outs : List OutBuf)
    (upd : State → State) : Prop where
  eq : exec i s = runPhases own ins outs upd s
  own_code : ∀ c, own = some c → c ∈ mayReport i ∧ c ≠ .ok
  buffers : isViterbi i = false ∨ i = .vitDecode ∨ (ins = [] ∧ outs = [])
  data : ∀ o ∈ outs, o.data.length = o.buf.size
  upd_ok : UpdOk i upd

theorem updOk_id (i : Instr) : UpdOk i id := ⟨fun _ => rfl, fun _ _ => rfl, fun _ _ => ⟨rfl, rfl⟩⟩

theorem updOk_res {i : Instr} (h : writesResults i = true) (a b : Word) :
    UpdOk i fun t => { t with res0 := a, res1 := b } :=
  ⟨fun _ => rfl, fun _ _ => rfl, fun h' => by simp [h] at h'⟩

theorem outD_data {α : Type} {T : ElemType α} {norm : α → α} (hT : T.Lawful norm) (s : State) {vs : List α} {L : Nat}
    (h : vs.length = L) : (s.outD T vs L).data.length = (s.outD T vs L).buf.size := by
  subst h
  simp [State.outD, State.bufD, storeBytes_length hT]

theorem outD2_data {α : Type} {T : ElemType α} {norm : α → α} (hT : T.Lawful norm) (s : State) {vs : List α} {L : Nat}
    (h : vs.length = L) : (s.outD2 T vs L).data.length = (s.outD2 T vs L).buf.size := by
  subst h
  simp [State.outD2, State.bufD2, storeBytes_length hT]

/-- A command with no own checks, no register update and outputs as long as their buffers. -/
theorem shape_plain {i : Instr} {s : State} {ins : List Buf} {outs : List OutBuf} (hv : isViterbi i = false)
    (h : exec i s = runPhases none ins outs id s) (hd : ∀ o ∈ outs, o.data.length = o.buf.size) :
    Shape i s none ins outs id :=
  ⟨h, by simp, .inl hv, hd, updOk_id i⟩

theorem shape_elemwise2 {α β : Type} {Ti : ElemType α} {To : ElemType β} {norm : β → β} (hT : To.Lawful norm) {i : Instr}
    {s : State} {f : α → α → Nat → β} (hv : isViterbi i = false) (h : exec i s = elemwise2 Ti To f s) :
    ∃ own ins outs upd, Shape i s own ins outs upd :=
  ⟨_, _, _, _, shape_plain hv h (by simpa using outD_data hT s (by simp))⟩

theorem shape_elemwise1 {α β : Type} {Ti : ElemType α} {To : ElemType β} {norm : β → β} (hT : To.Lawful norm) {i : Instr}
    {s : State} {f : α → Nat → β} (hv : isViterbi i = false) (h : exec i s = elemwise1 Ti To f s) :
    ∃ own ins outs upd, Shape i s own ins outs upd :=
  ⟨_, _, _, _, shape_plain hv h (by simpa using outD_data hT s (by simp))⟩

theorem shape_sum {α : Type} {T : ElemType α} {zero : α} {add : α → α → α} {res : α → Word × Word} {i : Instr} {s : State}
    (hv : isViterbi i = false) (hr : writesResults i = true) (h : exec i s = sumElems T zero add res s) :
    ∃ own ins outs upd, Shape i s own ins outs upd :=
  ⟨none, [s.bufA (s.opLen * T.size)], [], _, ⟨h.trans rfl, by simp, .inl hv, by simp, updOk_res hr _ _⟩⟩

theorem shape_hadd {α : Type} {T : ElemType α} {norm : α → α} (hT : T.Lawful norm) {total : α → α → α → α → α} {i : Instr}
    {s : State} (hv : isViterbi i = false) (h : exec i s = haddElems T total s) :
    ∃ own ins outs upd, Shape i s own ins outs upd :=
  ⟨_, _, _, _, shape_plain hv h (by simpa using outD_data hT s (by simp))⟩

theorem shape_bytewise {n : Nat} {g : Byte → Byte → Byte} {i : Instr} {s : State} (hv : isViterbi i = false)
    (h : exec i s = bytewise n g s) : ∃ own ins outs upd, Shape i s own ins outs upd :=
  ⟨_, _, _, _, shape_plain hv h (by simp [State.bufD])⟩

theorem shape_transform {dir : FftDir} {i : Instr} {s : State} (hv : isViterbi i = false)
    (hc : ErrCode.fftSize ∈ mayReport i) (h : exec i s = transform dir s) :
    ∃ own ins outs upd, Shape i s own ins outs upd := by
  refine ⟨_, _, _, _, h, ?_, .inl hv, ?_, updOk_id i⟩
  · intro c hcc
    split at hcc
    · cases hcc
    · cases hcc
      exact ⟨hc, by decide⟩
  · simpa using outD_data complex16_lawful s (by simp)

theorem shape_vitInit {v : VitVariant} {i : Instr} {s : State} (hi : i = .vitInit ∨ i = .vitInitsig)
    (h : exec i s = vitInitFrame v s) : ∃ own ins outs upd, Shape i s own ins outs upd := by
  refine ⟨_, _, _, _, h, ?_, .inr (.inr ⟨rfl, rfl⟩), by simp, ⟨fun _ => rfl, ?_, fun _ _ => ⟨rfl, rfl⟩⟩⟩
  · intro c hc
    simp only [vitInitCheck] at hc
    rcases hi with rfl | rfl <;> (split at hc <;> [skip; split at hc]) <;> cases hc <;> decide
  · rcases hi with rfl | rfl <;> intro h' <;> cases h'

theorem vitDecodeCheck_code {s : State} {c : ErrCode} (h : vitDecodeCheck s = some c) :
    c ∈ mayReport .vitDecode ∧ c ≠ .ok := by
  simp only [vitDecodeCheck] at h
  split at h
  · cases h; decide
  · split at h
    · cases h; decide
    · cases h

theorem shape_vitDecode (s : State) : ∃ own ins outs upd, Shape .vitDecode s own ins outs upd := by
  by_cases h0 : s.opLen = 0
  · refine ⟨vitDecodeCheck s, [], [], fun t => { t with res0 := 0, res1 := 0 }, ?_, fun c => vitDecodeCheck_code,
      .inr (.inl rfl), by simp, updOk_res rfl _ _⟩
    simp [exec, execVitDecode, h0]
  · refine ⟨vitDecodeCheck s, [s.bufA s.opLen],
      [⟨s.bufD (byteCount (vitChunk s).2.length), packBits (vitChunk s).2⟩],
      fun t => { t with ctx := vitContextAfter s, res0 := BitVec.ofNat 32 (vitChunk s).2.length, res1 := 0 },
      ⟨?_, fun c => vitDecodeCheck_code, .inr (.inl rfl), by simp [packBits, State.bufD],
      ⟨fun _ => rfl, fun h => (by cases h), fun h => (by cases h)⟩⟩⟩
    simp [exec, execVitDecode, h0]

/-- Every command has the form of 00_scope R12. -/
theorem exec_shape (i : Instr) (s : State) : ∃ own ins outs upd, Shape i s own ins outs upd := by
  cases i with
  | vaddI16 => exact shape_elemwise2 int16_lawful rfl (exec_vaddI16 s)
  | vaddI32 => exact shape_elemwise2 int32_lawful rfl (exec_vaddI32 s)
  | vaddC16 => exact shape_elemwise2 complex16_lawful rfl (exec_vaddC16 s)
  | vaddC32 => exact shape_elemwise2 complex32_lawful rfl (exec_vaddC32 s)
  | vsubI16 => exact shape_elemwise2 int16_lawful rfl (exec_vsubI16 s)
  | vsubI32 => exact shape_elemwise2 int32_lawful rfl (exec_vsubI32 s)
  | vsubC16 => exact shape_elemwise2 complex16_lawful rfl (exec_vsubC16 s)
  | vsubC32 => exact shape_elemwise2 complex32_lawful rfl (exec_vsubC32 s)
  | vmulC16 => exact shape_elemwise2 complex16_lawful rfl (exec_vmulC16 s)
  | vmulC32 => exact shape_elemwise2 complex32_lawful rfl (exec_vmulC32 s)
  | vcmulC16 => exact shape_elemwise2 complex16_lawful rfl (exec_vcmulC16 s)
  | vcmulC32 => exact shape_elemwise2 complex32_lawful rfl (exec_vcmulC32 s)
  | vcmulwC16 =>
    refine ⟨_, _, _, _, shape_plain rfl rfl ?_⟩
    simp only [List.mem_cons, List.not_mem_nil, or_false, forall_eq_or_imp, forall_eq]
    exact ⟨outD_data int32_lawful s (by simp), outD2_data int32_lawful s (by simp)⟩
  | vsumI16 => exact shape_sum rfl rfl (exec_vsumI16 s)
  | vsumI32 => exact shape_sum rfl rfl (exec_vsumI32 s)
  | vsumC16 => exact shape_sum rfl rfl (exec_vsumC16 s)
  | vsumC32 => exact shape_sum rfl rfl (exec_vsumC32 s)
  | vhaddI32 => exact shape_hadd int32_lawful rfl (exec_vhaddI32 s)
  | vhaddC16 => exact shape_hadd complex16_lawful rfl (exec_vhaddC16 s)
  | vshlI16 => exact shape_elemwise1 int16_lawful rfl (exec_vshlI16 s)
  | vshlI32 => exact shape_elemwise1 int32_lawful rfl (exec_vshlI32 s)
  | vshlC16 => exact shape_elemwise1 complex16_lawful rfl (exec_vshlC16 s)
  | vshlC32 => exact shape_elemwise1 complex32_lawful rfl (exec_vshlC32 s)
  | vshrI16 => exact shape_elemwise1 int16_lawful rfl (exec_vshrI16 s)
  | vshrI32 => exact shape_elemwise1 int32_lawful rfl (exec_vshrI32 s)
  | vshrC16 => exact shape_elemwise1 complex16_lawful rfl (exec_vshrC16 s)
  | vshrC32 => exact shape_elemwise1 complex32_lawful rfl (exec_vshrC32 s)
  | vpackC16 => exact shape_elemwise1 complex8_lawful rfl (exec_vpackC16 s)
  | vcastC8 => exact ⟨_, _, _, _, shape_plain rfl rfl (by simp [State.bufD, Memory.readBytes_length])⟩
  | vand => exact shape_bytewise rfl (exec_vand s)
  | vor => exact shape_bytewise rfl (exec_vor s)
  | vxor => exact shape_bytewise rfl (exec_vxor s)
  | vandn => exact shape_bytewise rfl (exec_vandn s)
  | vand8 => exact shape_bytewise rfl (exec_vand8 s)
  | vor8 => exact shape_bytewise rfl (exec_vor8 s)
  | vxor8 => exact shape_bytewise rfl (exec_vxor8 s)
  | vandn8 => exact shape_bytewise rfl (exec_vandn8 s)
  | fftC16 => exact shape_transform rfl (by decide) (exec_fftC16 s)
  | ifftC16 => exact shape_transform rfl (by decide) (exec_ifftC16 s)
  | vitInit => exact shape_vitInit (.inl rfl) (exec_vitInit s)
  | vitInitsig => exact shape_vitInit (.inr rfl) (exec_vitInitsig s)
  | vitDecode => exact shape_vitDecode s

/-- Everything a command can do: report one code and nothing else, or commit its outputs and succeed. -/
theorem exec_cases {i : Instr} {s t : State} (h : exec i s = .next t) :
    (∃ c, c ≠ .ok ∧ t = raise c s) ∨
    ∃ outs upd, UpdOk i upd ∧ (∀ o ∈ outs, o.data.length = o.buf.size) ∧
      (∀ o ∈ outs, bufOk s.platform o.buf) ∧ t = succeed (upd { s with mem := commit s.mem outs }) := by
  obtain ⟨own, ins, outs, upd, hs⟩ := exec_shape i s
  rw [hs.eq] at h
  rcases runPhases_cases h with ⟨c, hc, rfl⟩ | ⟨hn, rfl⟩
  · refine .inl ⟨c, ?_, rfl⟩
    rcases firstError_code hc with h | rfl | rfl
    · exact (hs.own_code c h).2
    · decide
    · decide
  · refine .inr ⟨outs, upd, hs.upd_ok, hs.data, fun o ho => ?_, rfl⟩
    exact ((firstError_eq_none _ _ _ _).1 hn).2 o.buf (by simp only [List.mem_append, List.mem_map]; exact .inr ⟨o, ho, rfl⟩)

end Sys2Proof.Machine
end

