-- ==== Sys2Proof/Laws/PerInstr.lean ====
section
/-! SUPPORT. The per-instruction family RoundTrip: the decoder reads a command's own word as that command. -/

/-- The decoder reads the command's CMD word as the command (30_encoding R82, R85). -/
def Sys2Proof.Laws.RoundTrip.Statement (i : Sys2Proof.Instr) : Prop :=
  Sys2Proof.decode (Sys2Proof.encode i) = .ok i

namespace Sys2Proof.Laws.RoundTrip

theorem vaddI16 : Statement .vaddI16 := by unfold Statement; decide
theorem vaddI32 : Statement .vaddI32 := by unfold Statement; decide
theorem vaddC16 : Statement .vaddC16 := by unfold Statement; decide
theorem vaddC32 : Statement .vaddC32 := by unfold Statement; decide
theorem vsubI16 : Statement .vsubI16 := by unfold Statement; decide
theorem vsubI32 : Statement .vsubI32 := by unfold Statement; decide
theorem vsubC16 : Statement .vsubC16 := by unfold Statement; decide
theorem vsubC32 : Statement .vsubC32 := by unfold Statement; decide
theorem vmulC16 : Statement .vmulC16 := by unfold Statement; decide
theorem vmulC32 : Statement .vmulC32 := by unfold Statement; decide
theorem vcmulC16 : Statement .vcmulC16 := by unfold Statement; decide
theorem vcmulC32 : Statement .vcmulC32 := by unfold Statement; decide
theorem vcmulwC16 : Statement .vcmulwC16 := by unfold Statement; decide
theorem vsumI16 : Statement .vsumI16 := by unfold Statement; decide
theorem vsumI32 : Statement .vsumI32 := by unfold Statement; decide
theorem vsumC16 : Statement .vsumC16 := by unfold Statement; decide
theorem vsumC32 : Statement .vsumC32 := by unfold Statement; decide
theorem vhaddI32 : Statement .vhaddI32 := by unfold Statement; decide
theorem vhaddC16 : Statement .vhaddC16 := by unfold Statement; decide
theorem vshlI16 : Statement .vshlI16 := by unfold Statement; decide
theorem vshlI32 : Statement .vshlI32 := by unfold Statement; decide
theorem vshlC16 : Statement .vshlC16 := by unfold Statement; decide
theorem vshlC32 : Statement .vshlC32 := by unfold Statement; decide
theorem vshrI16 : Statement .vshrI16 := by unfold Statement; decide
theorem vshrI32 : Statement .vshrI32 := by unfold Statement; decide
theorem vshrC16 : Statement .vshrC16 := by unfold Statement; decide
theorem vshrC32 : Statement .vshrC32 := by unfold Statement; decide
theorem vpackC16 : Statement .vpackC16 := by unfold Statement; decide
theorem vcastC8 : Statement .vcastC8 := by unfold Statement; decide
theorem vand : Statement .vand := by unfold Statement; decide
theorem vor : Statement .vor := by unfold Statement; decide
theorem vxor : Statement .vxor := by unfold Statement; decide
theorem vandn : Statement .vandn := by unfold Statement; decide
theorem vand8 : Statement .vand8 := by unfold Statement; decide
theorem vor8 : Statement .vor8 := by unfold Statement; decide
theorem vxor8 : Statement .vxor8 := by unfold Statement; decide
theorem vandn8 : Statement .vandn8 := by unfold Statement; decide
theorem fftC16 : Statement .fftC16 := by unfold Statement; decide
theorem ifftC16 : Statement .ifftC16 := by unfold Statement; decide
theorem vitInit : Statement .vitInit := by unfold Statement; decide
theorem vitInitsig : Statement .vitInitsig := by unfold Statement; decide
theorem vitDecode : Statement .vitDecode := by unfold Statement; decide

end Sys2Proof.Laws.RoundTrip
end

