-- ==== Sys2Proof/Tests/Slice0.lean ====
section
/-! SUPPORT. The model's own tests: the ill-formed terms the checks refuse, words written out from 30_encoding R82, one
step each from the vectors of 95_test_vectors (cited as L1, L2), and the witnesses of the obligations' hypotheses. -/

namespace Sys2Proof.Machine

/-! ## Helpers -/

/-- The next state, if there is one. -/
def nx : Result → Option State
  | .next t => some t
  | _ => none

/-- Bytes in memory from an address on. -/
def bytesAt (a : Nat) (bs : List Byte) : Memory := Memory.writeBytes [] a bs

/-- The small state of the tests: a at 0x1000, b at 0x1100, output at 0x1200 and 0x1300. -/
def small (len shift : Word) (a b : List Byte) : State :=
  { State.reset with srca := 0x1000, srcb := 0x1100, dst := 0x1200, dst2 := 0x1300, len := len, shift := shift,
                     mem := Memory.writeBytes (bytesAt 0x1000 a) 0x1100 b }

/-- The n bytes at DST after a command. -/
def outBytes (n : Nat) (r : Result) : Option (List Byte) := (nx r).map fun t => t.mem.readBytes 0x1200 n

/-- RES0, RES1 and STATUS after a command. -/
def results (r : Result) : Option (Word × Word × Word) := (nx r).map fun t => (t.res0, t.res1, statusWord t)

/-- STATUS after a command. -/
def statusOf (r : Result) : Option Word := (nx r).map statusWord

/-- A state whose next input is `a`. -/
def given (a : Input) : State := placeInput State.reset a

/-- The platform of 95_test_vectors. -/
def vectorPlatform : Platform := { Platform.reset with admitted := [.window 0x1000 0x10000] }

/-! ## Well-formedness: one ill-formed term for each check -/

theorem smoke_rsvClear : rsvClear 0x00000901#32 = false := by decide
theorem smoke_typeAssigned : typeAssigned 0x00000601#32 = false := by decide
theorem smoke_opAssigned : opAssigned 0x0000000C#32 = false := by decide
theorem smoke_typeListed : typeListed 0x00000103#32 = false := by decide
theorem smoke_wordWellFormed : wordWellFormed 0x00000103#32 = false ∧ wordWellFormed 0x00000303#32 = true := by decide
theorem smoke_sizeIsWord : (Input.readBlock 0x100 .byte).wellFormed 0x100 = false := by decide
theorem smoke_insideBlock : (Input.writeBlock 0x200 .word 0).wellFormed 0x100 = false := by decide
theorem smoke_wordAligned : (Input.readBlock 0x102 .word).wellFormed 0x100 = false := by decide

/-! ## Decoding: every word of 30_encoding R82, and illegal words of L2.9 -/

/-- RSV, TYPE and OP bit by bit: rows R101 to R114. -/
theorem test_decode_arith : ∀ r ∈ [
    (0b000000000000000000000_001_00000001#32, Instr.vaddI16),
    (0b000000000000000000000_010_00000001#32, Instr.vaddI32),
    (0b000000000000000000000_011_00000001#32, Instr.vaddC16),
    (0b000000000000000000000_100_00000001#32, Instr.vaddC32),
    (0b000000000000000000000_001_00000010#32, Instr.vsubI16),
    (0b000000000000000000000_010_00000010#32, Instr.vsubI32),
    (0b000000000000000000000_011_00000010#32, Instr.vsubC16),
    (0b000000000000000000000_100_00000010#32, Instr.vsubC32),
    (0b000000000000000000000_011_00000011#32, Instr.vmulC16),
    (0b000000000000000000000_100_00000011#32, Instr.vmulC32),
    (0b000000000000000000000_011_00000100#32, Instr.vcmulC16),
    (0b000000000000000000000_100_00000100#32, Instr.vcmulC32),
    (0b000000000000000000000_011_00000101#32, Instr.vcmulwC16)], decode r.1 = .ok r.2 := by decide

/-- Rows R115 to R130. -/
theorem test_decode_reduce_shift : ∀ r ∈ [
    (0b000000000000000000000_001_00000110#32, Instr.vsumI16),
    (0b000000000000000000000_010_00000110#32, Instr.vsumI32),
    (0b000000000000000000000_011_00000110#32, Instr.vsumC16),
    (0b000000000000000000000_100_00000110#32, Instr.vsumC32),
    (0b000000000000000000000_010_00000111#32, Instr.vhaddI32),
    (0b000000000000000000000_011_00000111#32, Instr.vhaddC16),
    (0b000000000000000000000_001_00001000#32, Instr.vshlI16),
    (0b000000000000000000000_010_00001000#32, Instr.vshlI32),
    (0b000000000000000000000_011_00001000#32, Instr.vshlC16),
    (0b000000000000000000000_100_00001000#32, Instr.vshlC32),
    (0b000000000000000000000_001_00001001#32, Instr.vshrI16),
    (0b000000000000000000000_010_00001001#32, Instr.vshrI32),
    (0b000000000000000000000_011_00001001#32, Instr.vshrC16),
    (0b000000000000000000000_100_00001001#32, Instr.vshrC32),
    (0b000000000000000000000_011_00001010#32, Instr.vpackC16),
    (0b000000000000000000000_101_00001011#32, Instr.vcastC8)], decode r.1 = .ok r.2 := by decide

/-- Rows R171 to R215. -/
theorem test_decode_other : ∀ r ∈ [
    (0b000000000000000000000_000_00010000#32, Instr.vand),
    (0b000000000000000000000_000_00010001#32, Instr.vor),
    (0b000000000000000000000_000_00010010#32, Instr.vxor),
    (0b000000000000000000000_000_00010011#32, Instr.vandn),
    (0b000000000000000000000_000_00010100#32, Instr.vand8),
    (0b000000000000000000000_000_00010101#32, Instr.vor8),
    (0b000000000000000000000_000_00010110#32, Instr.vxor8),
    (0b000000000000000000000_000_00010111#32, Instr.vandn8),
    (0b000000000000000000000_011_00100000#32, Instr.fftC16),
    (0b000000000000000000000_011_00100001#32, Instr.ifftC16),
    (0b000000000000000000000_000_00110000#32, Instr.vitInit),
    (0b000000000000000000000_000_00110001#32, Instr.vitInitsig),
    (0b000000000000000000000_000_00110010#32, Instr.vitDecode)], decode r.1 = .ok r.2 := by decide

/-- L2.9: words that are no command. -/
theorem test_decode_illegal : ∀ w ∈ [0x000, 0x103, 0x203, 0x107, 0x601, 0x701, 0x501, 0x901],
    decodeTableWord 32 w = none := by decide

/-- L2.9: more of them. -/
theorem test_decode_illegal_more : ∀ w ∈ [0x833, 0x80000101, 0x110, 0x00C, 0x022, 0x120, 0x130, 0x30B],
    decodeTableWord 32 w = none := by decide

/-! ## One step each, from the vectors of 95_test_vectors -/

/-- L2.1, wraps. -/
theorem test_vadd_i16 :
    outBytes 8 (exec .vaddI16 (small 4 0 [0xFF, 0x7F, 0x00, 0x80, 0x00, 0x80, 0x05, 0x00] [0x01, 0x00, 0x00, 0x80, 0xFF, 0xFF, 0xF9, 0xFF])) =
      some [0x00, 0x80, 0x00, 0x00, 0xFF, 0x7F, 0xFE, 0xFF] := by decide

/-- L2.1, wraps. -/
theorem test_vadd_i32 :
    outBytes 8 (exec .vaddI32 (small 2 0 [0xFF, 0xFF, 0xFF, 0x7F, 0x00, 0x00, 0x00, 0x80] [0x01, 0x00, 0x00, 0x00, 0xFF, 0xFF, 0xFF, 0xFF])) =
      some [0x00, 0x00, 0x00, 0x80, 0xFF, 0xFF, 0xFF, 0x7F] := by decide

/-- L2.1, components wrap independently. -/
theorem test_vadd_c16 :
    outBytes 4 (exec .vaddC16 (small 1 0 [0xFF, 0x7F, 0x00, 0x80] [0x01, 0x00, 0xFF, 0xFF])) =
      some [0x00, 0x80, 0xFF, 0x7F] := by decide

/-- R104, corner case. -/
theorem test_vadd_c32 :
    outBytes 8 (exec .vaddC32 (small 1 0 [0xFF, 0xFF, 0xFF, 0x7F, 0x00, 0x00, 0x00, 0x00] [0x01, 0x00, 0x00, 0x00, 0x00, 0x00, 0x00, 0x00])) =
      some [0x00, 0x00, 0x00, 0x80, 0x00, 0x00, 0x00, 0x00] := by decide

/-- L2.1, wraps; a minus b. -/
theorem test_vsub_i16 :
    outBytes 8 (exec .vsubI16 (small 4 0 [0x00, 0x80, 0x00, 0x00, 0xFF, 0x7F, 0x03, 0x00] [0x01, 0x00, 0x00, 0x80, 0xFF, 0xFF, 0x05, 0x00])) =
      some [0xFF, 0x7F, 0x00, 0x80, 0x00, 0x80, 0xFE, 0xFF] := by decide

/-- L2.1. -/
theorem test_vsub_i32 :
    outBytes 8 (exec .vsubI32 (small 2 0 [0x00, 0x00, 0x00, 0x80, 0x00, 0x00, 0x00, 0x00] [0x01, 0x00, 0x00, 0x00, 0x00, 0x00, 0x00, 0x80])) =
      some [0xFF, 0xFF, 0xFF, 0x7F, 0x00, 0x00, 0x00, 0x80] := by decide

/-- R107, example. -/
theorem test_vsub_c16 :
    outBytes 4 (exec .vsubC16 (small 1 0 [0x01, 0x00, 0x02, 0x00] [0x03, 0x00, 0xFC, 0xFF])) =
      some [0xFE, 0xFF, 0x06, 0x00] := by decide

/-- L2.1. -/
theorem test_vsub_c32 :
    outBytes 8 (exec .vsubC32 (small 1 0 [0x00, 0x00, 0x00, 0x80, 0xFF, 0xFF, 0xFF, 0x7F] [0x01, 0x00, 0x00, 0x00, 0xFF, 0xFF, 0xFF, 0xFF])) =
      some [0xFF, 0xFF, 0xFF, 0x7F, 0x00, 0x00, 0x00, 0x80] := by decide

/-- L2.2, k = 1: the shift floors. -/
theorem test_vmul_c16 :
    outBytes 8 (exec .vmulC16 (small 2 1 [0x03, 0x00, 0x04, 0x00, 0xFD, 0xFF, 0x00, 0x00] [0x05, 0x00, 0x06, 0x00, 0x01, 0x00, 0x00, 0x00])) =
      some [0xFB, 0xFF, 0x13, 0x00, 0xFE, 0xFF, 0x00, 0x00] := by decide

/-- L2.2, k = 31: the product 2^31 is exact before the shift. -/
theorem test_vmul_c16_exact :
    outBytes 4 (exec .vmulC16 (small 1 31 [0x00, 0x80, 0x00, 0x80] [0x00, 0x80, 0x00, 0x80])) =
      some [0x00, 0x00, 0x01, 0x00] := by decide

/-- L2.2, k = 63: the product 2^63 is exact. -/
theorem test_vmul_c32 :
    outBytes 8 (exec .vmulC32 (small 1 63 [0x00, 0x00, 0x00, 0x80, 0x00, 0x00, 0x00, 0x80] [0x00, 0x00, 0x00, 0x80, 0x00, 0x00, 0x00, 0x80])) =
      some [0x00, 0x00, 0x00, 0x00, 0x01, 0x00, 0x00, 0x00] := by decide

/-- L2.2, k = 100. -/
theorem test_vmul_c32_long_shift :
    outBytes 8 (exec .vmulC32 (small 1 100 [0xFF, 0xFF, 0xFF, 0xFF, 0x00, 0x00, 0x00, 0x00] [0x01, 0x00, 0x00, 0x00, 0x00, 0x00, 0x00, 0x00])) =
      some [0xFF, 0xFF, 0xFF, 0xFF, 0x00, 0x00, 0x00, 0x00] := by decide

/-- L2.2, k = 0: y is conjugated. -/
theorem test_vcmul_c16 :
    outBytes 8 (exec .vcmulC16 (small 2 0 [0x03, 0x00, 0x04, 0x00, 0x01, 0x00, 0x01, 0x00] [0x05, 0x00, 0x06, 0x00, 0x01, 0x00, 0xFF, 0xFF])) =
      some [0x27, 0x00, 0x02, 0x00, 0x00, 0x00, 0x02, 0x00] := by decide

/-- L2.2. -/
theorem test_vcmul_c32 :
    outBytes 8 (exec .vcmulC32 (small 1 16 [0x70, 0x11, 0x01, 0x00, 0x01, 0x00, 0x00, 0x00] [0x70, 0x11, 0x01, 0x00, 0x00, 0x00, 0x00, 0x00])) =
      some [0x10, 0x24, 0x01, 0x00, 0x01, 0x00, 0x00, 0x00] := by decide

/-- L2.2: re at DST, im at DST2, as int32; SHIFT is ignored. -/
theorem test_vcmulw_c16 :
    (nx (exec .vcmulwC16 (small 2 9 [0x03, 0x00, 0x04, 0x00, 0x00, 0x80, 0xFF, 0x7F] [0x05, 0x00, 0x06, 0x00, 0x00, 0x80, 0x00, 0x80]))).map
        (fun t => (t.mem.readBytes 0x1200 8, t.mem.readBytes 0x1300 8)) =
      some ([0x27, 0x00, 0x00, 0x00, 0x00, 0x80, 0x00, 0x00], [0x02, 0x00, 0x00, 0x00, 0x00, 0x80, 0x00, 0x80]) := by decide

/-- 20_memory R58: where DST2 overlaps DST, the bytes of DST2 remain. -/
theorem test_vcmulw_overlap :
    outBytes 8 (exec .vcmulwC16 { small 1 0 [0x03, 0x00, 0x04, 0x00] [0x05, 0x00, 0x06, 0x00] with dst2 := 0x1202 }) = some [0x27, 0x00, 0x02, 0x00, 0x00, 0x00, 0x00, 0x00] := by decide

/-- L2.3, wraps at 16 bits, then sign-extends. -/
theorem test_vsum_i16 :
    results (exec .vsumI16 (small 2 0 [0xFF, 0x7F, 0x01, 0x00] [])) = some (0xFFFF8000, 0x00000000, 0) := by decide

/-- L2.3. -/
theorem test_vsum_i32 :
    results (exec .vsumI32 (small 3 0 [0x19, 0x00, 0x00, 0x00, 0x02, 0x00, 0x00, 0x00, 0x00, 0x00, 0x00, 0x80] [])) = some (0x8000001B, 0x00000000, 0) := by decide

/-- L2.3. -/
theorem test_vsum_c16 :
    results (exec .vsumC16 (small 3 0 [0x01, 0x00, 0x02, 0x00, 0x03, 0x00, 0x04, 0x00, 0xFB, 0xFF, 0xFA, 0xFF] [])) = some (0xFFFFFFFF, 0x00000000, 0) := by decide

/-- L2.3. -/
theorem test_vsum_c32 :
    results (exec .vsumC32 (small 2 0 [0x0A, 0x00, 0x00, 0x00, 0xF6, 0xFF, 0xFF, 0xFF, 0x14, 0x00, 0x00, 0x00, 0xEC, 0xFF, 0xFF, 0xFF] [])) = some (0x0000001E, 0xFFFFFFE2, 0) := by decide

/-- L2.3, with LEN = 0, which is ignored. -/
theorem test_vhadd_i32 :
    outBytes 16 (exec .vhaddI32 (small 0 0 [0xFF, 0xFF, 0xFF, 0x7F, 0x01, 0x00, 0x00, 0x00, 0x00, 0x00, 0x00, 0x00, 0x00, 0x00, 0x00, 0x00] [])) =
      some [0x00, 0x00, 0x00, 0x80, 0x00, 0x00, 0x00, 0x80, 0x00, 0x00, 0x00, 0x80, 0x00, 0x00, 0x00, 0x80] := by decide

/-- L2.3, with LEN = 0. -/
theorem test_vhadd_c16 :
    outBytes 16 (exec .vhaddC16 (small 0 0 [0x01, 0x00, 0xFF, 0xFF, 0x02, 0x00, 0xFE, 0xFF, 0x03, 0x00, 0xFD, 0xFF, 0x04, 0x00, 0xFC, 0xFF] [])) =
      some [0x0A, 0x00, 0xF6, 0xFF, 0x0A, 0x00, 0xF6, 0xFF, 0x0A, 0x00, 0xF6, 0xFF, 0x0A, 0x00, 0xF6, 0xFF] := by decide

/-- L2.4, k = 1. -/
theorem test_vshl_i16 :
    outBytes 8 (exec .vshlI16 (small 4 1 [0x01, 0x00, 0x01, 0x40, 0xFB, 0xFF, 0xFF, 0x7F] [])) =
      some [0x02, 0x00, 0x02, 0x80, 0xF6, 0xFF, 0xFE, 0xFF] := by decide

/-- L2.4: SHIFT is unsigned: 0xFFFFFFFF shifts everything out. -/
theorem test_vshl_i16_max : outBytes 2 (exec .vshlI16 (small 1 0xFFFFFFFF [0xFF, 0xFF] [])) = some [0, 0] := by decide

/-- L2.4. -/
theorem test_vshl_i32 :
    outBytes 4 (exec .vshlI32 (small 1 8 [0x78, 0x56, 0x34, 0x12] [])) =
      some [0x00, 0x78, 0x56, 0x34] := by decide

/-- L2.4. -/
theorem test_vshl_c16 :
    outBytes 4 (exec .vshlC16 (small 1 1 [0x01, 0x40, 0xFF, 0xFF] [])) =
      some [0x02, 0x80, 0xFE, 0xFF] := by decide

/-- R124, corner case. -/
theorem test_vshl_c32 :
    outBytes 8 (exec .vshlC32 (small 1 1 [0x00, 0x00, 0x00, 0x40, 0xFF, 0xFF, 0xFF, 0xFF] [])) =
      some [0x00, 0x00, 0x00, 0x80, 0xFE, 0xFF, 0xFF, 0xFF] := by decide

/-- L2.4, k = 3: floors. -/
theorem test_vshr_i16 :
    outBytes 6 (exec .vshrI16 (small 3 3 [0xFB, 0xFF, 0x64, 0x00, 0x9C, 0xFF] [])) =
      some [0xFF, 0xFF, 0x0C, 0x00, 0xF3, 0xFF] := by decide

/-- L2.4: SHIFT is unsigned: 0xFFFFFFFF leaves only the sign. -/
theorem test_vshr_i16_max :
    outBytes 4 (exec .vshrI16 (small 2 0xFFFFFFFF [0xFF, 0x7F, 0x00, 0x80] [])) = some [0, 0, 0xFF, 0xFF] := by decide

/-- L2.4. -/
theorem test_vshr_i32 :
    outBytes 4 (exec .vshrI32 (small 1 8 [0x88, 0xA9, 0xCB, 0xED] [])) =
      some [0xA9, 0xCB, 0xED, 0xFF] := by decide

/-- L2.4. -/
theorem test_vshr_c16 :
    outBytes 4 (exec .vshrC16 (small 1 3 [0x64, 0x00, 0x9C, 0xFF] [])) =
      some [0x0C, 0x00, 0xF3, 0xFF] := by decide

/-- R128, example. -/
theorem test_vshr_c32 :
    outBytes 8 (exec .vshrC32 (small 1 16 [0x00, 0xE4, 0x0B, 0x54, 0xFF, 0xFF, 0xFF, 0xFF] [])) =
      some [0x0B, 0x54, 0x00, 0x00, 0xFF, 0xFF, 0xFF, 0xFF] := by decide

/-- L1.6, saturates. -/
theorem test_vpack_c16 :
    outBytes 8 (exec .vpackC16 (small 4 0 [0xC8, 0x00, 0x38, 0xFF, 0x7F, 0xFF, 0x80, 0x00, 0xFF, 0x7F, 0x00, 0x80, 0x05, 0x00, 0xFB, 0xFF] [])) =
      some [0x7F, 0x80, 0x80, 0x7F, 0x7F, 0x80, 0x05, 0xFB] := by decide

/-- L2.5: pack in place, from the snapshot. -/
theorem test_vpack_in_place :
    outBytes 8 (exec .vpackC16 { small 2 0 [] [] with
      srca := 0x1200, mem := bytesAt 0x1200 [0x03, 0x00, 0x04, 0x00, 0xC8, 0x00, 0x38, 0xFF] }) =
      some [0x03, 0x04, 0x7F, 0x80, 0xC8, 0x00, 0x38, 0xFF] := by decide

/-- L2.5: overlapping cast, as a memmove. -/
theorem test_vcast_overlap :
    outBytes 3 (exec .vcastC8 { small 1 0 [] [] with srca := 0x1200, dst := 0x1201, mem := bytesAt 0x1200 [0x11, 0x22, 0x33] }) =
      some [0x11, 0x11, 0x22] := by decide

/-- L2.6, LEN = 12: the last byte is written whole, the next not at all. -/
theorem test_vand : outBytes 3 (exec .vand (small 12 0 [0xF0, 0xFF, 0xFF] [0x3C, 0x0F, 0xFF])) = some [0x30, 0x0F, 0x00] := by decide

/-- L2.6, LEN = 12: the last byte is written whole, the next not at all. -/
theorem test_vor : outBytes 3 (exec .vor (small 12 0 [0xF0, 0xFF, 0xFF] [0x3C, 0x0F, 0xFF])) = some [0xFC, 0xFF, 0x00] := by decide

/-- L2.6, LEN = 12: the last byte is written whole, the next not at all. -/
theorem test_vxor : outBytes 3 (exec .vxor (small 12 0 [0xF0, 0xFF, 0xFF] [0x3C, 0x0F, 0xFF])) = some [0xCC, 0xF0, 0x00] := by decide

/-- L2.6, LEN = 12: the last byte is written whole, the next not at all. -/
theorem test_vandn : outBytes 3 (exec .vandn (small 12 0 [0xF0, 0xFF, 0xFF] [0x3C, 0x0F, 0xFF])) = some [0xC0, 0xF0, 0x00] := by decide

/-- L2.6, with LEN = 0, which is ignored. -/
theorem test_vand8 : outBytes 2 (exec .vand8 (small 0 0 [0xA5, 0xFF] [0x0F, 0xFF])) = some [0x05, 0x00] := by decide

/-- L2.6, with LEN = 0, which is ignored. -/
theorem test_vor8 : outBytes 2 (exec .vor8 (small 0 0 [0xA5, 0xFF] [0x0F, 0xFF])) = some [0xAF, 0x00] := by decide

/-- L2.6, with LEN = 0, which is ignored. -/
theorem test_vxor8 : outBytes 2 (exec .vxor8 (small 0 0 [0xA5, 0xFF] [0x0F, 0xFF])) = some [0xAA, 0x00] := by decide

/-- L2.6, with LEN = 0, which is ignored. -/
theorem test_vandn8 : outBytes 2 (exec .vandn8 (small 0 0 [0xA5, 0xFF] [0x0F, 0xFF])) = some [0xA0, 0x00] := by decide

/-- L2.7: sizes outside the catalog. -/
theorem test_fft_sizes :
    statusOf (exec .fftC16 (small 0 0 [] [])) = some 0x00001001 ∧
    statusOf (exec .fftC16 (small 1296 0 [] [])) = some 0x00001001 ∧
    statusOf (exec .fftC16 (small 0xFFFFFFFF 0 [] [])) = some 0x00001001 := by decide

/-- L2.7, LEN = 16: at SRCA = 0xFFFFFFC4 the input passes 2^32, at 0xFFFFFFC0 it is in range and not admitted. -/
theorem test_ifft_buffers :
    statusOf (exec .ifftC16 { small 16 0 [] [] with srca := 0xFFFFFFC4 }) = some 0x00000201 ∧
    statusOf (exec .ifftC16 { small 16 0 [] [] with srca := 0xFFFFFFC0, platform := vectorPlatform }) =
      some 0x00000301 := by decide

/-- L2.8, rows 2 to 4: the rate is checked before the frame length. -/
theorem test_vit_init_errors :
    statusOf (exec .vitInit { small 48 0 [] [] with arg := 0 }) = some 0x00002201 ∧
    statusOf (exec .vitInit { small 0 0 [] [] with arg := 1 }) = some 0x00002301 ∧
    statusOf (exec .vitInit { small 0 0 [] [] with arg := 0 }) = some 0x00002201 := by decide

/-- L2.8, row 6. -/
theorem test_vit_init :
    (nx (exec .vitInit { small 48 0 [] [] with arg := 1 })).map
        (fun t => (statusWord t, t.ctx.frameLength, t.ctx.consumed, t.ctx.rate)) =
      some (0x00010000, 48, 0, 1) := by decide

/-- L2.8, row 12 (with ERR clear): VSIG is set. -/
theorem test_vit_initsig : statusOf (exec .vitInitsig { small 10 0 [] [] with arg := 1 }) = some 0x00050000 := by decide

/-- The context of L2.8 after row 6, with `consumed` symbols consumed. -/
def inFrame (v : VState) (consumed len : Word) : State :=
  { small len 0 [] [] with ctx := ⟨v, false, 48, consumed, 1, ⟨0⟩⟩ }

/-- L2.8, rows 1, 9 and 11, and an overrun whose sum passes 2^32. -/
theorem test_vit_decode_errors :
    statusOf (exec .vitDecode (small 24 0 [] [])) = some 0x00002001 ∧
    statusOf (exec .vitDecode (inFrame .decoding 24 25)) = some 0x00022101 ∧
    statusOf (exec .vitDecode (inFrame .terminal 48 0)) = some 0x00032001 ∧
    statusOf (exec .vitDecode (inFrame .decoding 24 0xFFFFFFFF)) = some 0x00022101 := by decide

/-- L2.8, row 7: an empty chunk. -/
theorem test_vit_decode_empty :
    results (exec .vitDecode { inFrame .ready 0 0 with res0 := 5, res1 := 6 }) = some (0, 0, 0x00010000) := by decide

/-- L2.8, output packing. -/
theorem test_pack_bits :
    packBits [] = [] ∧ packBits [false, true, true] = [0x06] ∧
    packBits [true, false, true, true, false, false, true, false, true] = [0x4D, 0x01] ∧
    packBits ([false, false, false, false, false, false, false, true, true] ++
      [true, true, true, true, true, true, true, true, false]) = [0x80, 0xFF, 0x01] := by decide

/-- L2.9, range and admission corners of VADD.I16. -/
theorem test_buffer_corners :
    statusOf (exec .vaddI16 { small 1 0 [] [] with srca := 0xFFFFFFFE, platform := vectorPlatform }) = some 0x00000301 ∧
    statusOf (exec .vaddI16 { small 2 0 [] [] with srca := 0xFFFFFFFE, platform := vectorPlatform }) = some 0x00000201 ∧
    statusOf (exec .vaddI16 { small 1 0 [] [] with srca := 0x0000FFFE, platform := vectorPlatform }) = some 0 ∧
    statusOf (exec .vaddI16 { small 2 0 [] [] with srca := 0x0000FFFE, platform := vectorPlatform }) = some 0x00000301 ∧
    statusOf (exec .vaddI16 { small 0 0 [] [] with srca := 0, platform := vectorPlatform }) = some 0 := by decide

/-- L2.9, priority of VADD.I16: inputs before outputs, ranges before admissions. -/
theorem test_priority :
    statusOf (exec .vaddI16 { small 1 0 [] [] with srcb := 0, dst := 0xFFFFFFFF, platform := vectorPlatform }) =
      some 0x00000301 ∧
    statusOf (exec .vaddI16 { small 2 0 [] [] with srca := 0xFFFFFFFE, srcb := 0, platform := vectorPlatform }) =
      some 0x00000201 := by decide

/-- L2.10: a command written to CMD runs, and an illegal word raises and stays in CMD. -/
theorem test_cmd_write :
    (nx (step (State.reset.withFetchWord 32 0x320))).map (fun t => (statusWord t, t.cmd, t.pos)) =
      some (0x00001001, 0x320, 1) ∧
    (nx (step (State.reset.withFetchWord 32 0x103))).map (fun t => (statusWord t, t.cmd)) =
      some (0x00000101, 0x103) := by decide

/-- L2.10: ID reads its constant, reserved offsets read 0. -/
theorem test_reads :
    (nx (step (given (.readBlock 0 .word)))).map (fun t => t.readData) = some [0x5A520007] ∧
    (nx (step (given (.readBlock 0xFC .word)))).map (fun t => t.readData) = some [0] := by decide

/-- 30_encoding R89: the encoding of `vadd.i16 0x2000, 0x1000, 0x1800, 8`, with the block at 0. -/
theorem test_encode_program :
    encodeProgram Platform.reset (pseudo .vaddI16 [0x2000, 0x1000, 0x1800, 8]) =
      [.writeBlock 0x18 .word 0x2000, .writeBlock 0x10 .word 0x1000, .writeBlock 0x14 .word 0x1800,
       .writeBlock 0x20 .word 8, .writeBlock 0x0C .word 0x00000101] := by decide

/-- 30_encoding R87, R89: the same from its text, with a comment, a blank line, another letter case and a read. -/
theorem test_assemble :
    (assemble ["; add", "", "  VAdd.I16 0x2000, 0x1000,0x1800 , 8 ; go", "status"]).map (encodeProgram Platform.reset) =
      some [.writeBlock 0x18 .word 0x2000, .writeBlock 0x10 .word 0x1000, .writeBlock 0x14 .word 0x1800,
        .writeBlock 0x20 .word 8, .writeBlock 0x0C .word 0x00000101, .readBlock 8 .word] := by decide

/-- 30_encoding R87: a negative decimal, a bare mnemonic, and a line with an operand missing. -/
theorem test_assemble_values :
    assembleLine "wr SHIFT, -1".toList = some [.wr .shift 0xFFFFFFFF] ∧
    assembleLine "vit.decode".toList = some [.command .vitDecode] ∧
    assembleLine "vadd.i16 1, 2, 3".toList = none := by decide

/-! ## Witnesses: the hypotheses of the obligations can be met -/

/-- The hypotheses of the first clause of `runsStandard`. -/
def meets (own : State → Option ErrCode) (ins outs : State → List Buf) (s : State) : Prop :=
  s.mem.wf = true ∧ own s = none ∧ ∀ b ∈ ins s ++ outs s, bufOk s.platform b

/-- The hypotheses of its second clause. -/
def errs (own : State → Option ErrCode) (ins outs : State → List Buf) (c : ErrCode) (s : State) : Prop :=
  s.mem.wf = true ∧ firstError s.platform (own s) (ins s) (outs s) = some c

theorem meets_of {own : State → Option ErrCode} {ins outs : State → List Buf} {s : State} (hm : s.mem.wf = true)
    (h : firstError s.platform (own s) (ins s) (outs s) = none) : meets own ins outs s :=
  ⟨hm, (firstError_eq_none _ _ _ _).1 h⟩

/-- A state at the top of memory: two bytes at each address, under `small`'s lengths. -/
def top (len : Word) : State := { small len 0 [] [] with srca := 0xFFFFFFFC, srcb := 0xFFFFFFFC, dst := 0xFFFFFFFC }

theorem witness_AddWraps_i16 :
    meets noCheck (inAB 2) (outOfD 2) (top 2) ∧
    errs noCheck (inAB 2) (outOfD 2) .range (top 3) :=
  ⟨meets_of (by decide) (by decide), by unfold errs; decide⟩

theorem witness_AddWraps_i32_c16 :
    meets noCheck (inAB 4) (outOfD 4) (top 1) ∧
    errs noCheck (inAB 4) (outOfD 4) .range (top 2) :=
  ⟨meets_of (by decide) (by decide), by unfold errs; decide⟩

theorem witness_AddWraps_c32 :
    meets noCheck (inAB 8) (outOfD 8) (small 3 1 [1, 2, 3, 4] [5, 6, 7, 8]) ∧
    errs noCheck (inAB 8) (outOfD 8) .range (top 1) :=
  ⟨meets_of (by decide) (by decide), by unfold errs; decide⟩

/-- `SubWraps`, `MultiplyShiftsThenWraps` and `ConjugateMultiplyShiftsThenWraps` have the buffers of `AddWraps`. -/
theorem witness_SubWraps :
    meets noCheck (inAB 2) (outOfD 2) (small 0 0 [] []) ∧ meets noCheck (inAB 4) (outOfD 4) (top 1) ∧
    meets noCheck (inAB 8) (outOfD 8) (small 1 0 [] []) :=
  ⟨meets_of (by decide) (by decide), meets_of (by decide) (by decide), meets_of (by decide) (by decide)⟩

theorem witness_MultiplyShiftsThenWraps :
    meets noCheck (inAB 4) (outOfD 4) (small 1 0 [1] [2]) ∧ meets noCheck (inAB 8) (outOfD 8) (small 1 0xFFFFFFFF [1] [2]) :=
  ⟨meets_of (by decide) (by decide), meets_of (by decide) (by decide)⟩

theorem witness_ConjugateMultiplyShiftsThenWraps :
    meets noCheck (inAB 4) (outOfD 4) (small 1 40 [1] [2]) ∧ meets noCheck (inAB 8) (outOfD 8) (small 1 64 [1] [2]) :=
  ⟨meets_of (by decide) (by decide), meets_of (by decide) (by decide)⟩

theorem witness_ConjugateMultiplyWideSplits :
    meets noCheck (inAB 4) (fun s => [s.bufD (s.len.toNat * 4), s.bufD2 (s.len.toNat * 4)]) (small 3 1 [1, 2, 3, 4] [5, 6, 7, 8]) ∧
    errs noCheck (inAB 4) (fun s => [s.bufD (s.len.toNat * 4), s.bufD2 (s.len.toNat * 4)]) .range (top 2) :=
  ⟨meets_of (by decide) (by decide), by unfold errs; decide⟩

theorem witness_SumScalar :
    meets noCheck (inA 2) (fun _ => []) (top 2) ∧
    errs noCheck (inA 2) (fun _ => []) .range (top 3) :=
  ⟨meets_of (by decide) (by decide), by unfold errs; decide⟩

theorem witness_SumScalar_i32 :
    meets noCheck (inA 4) (fun _ => []) (top 1) ∧
    errs noCheck (inA 4) (fun _ => []) .range (top 2) :=
  ⟨meets_of (by decide) (by decide), by unfold errs; decide⟩

theorem witness_SumComplex_c16 :
    meets noCheck (inA 4) (fun _ => []) (top 1) ∧
    errs noCheck (inA 4) (fun _ => []) .range (top 2) :=
  ⟨meets_of (by decide) (by decide), by unfold errs; decide⟩

theorem witness_SumComplex :
    meets noCheck (inA 8) (fun _ => []) (small 3 1 [1, 2, 3, 4] [5, 6, 7, 8]) ∧
    errs noCheck (inA 8) (fun _ => []) .range (top 1) :=
  ⟨meets_of (by decide) (by decide), by unfold errs; decide⟩

theorem witness_SumsAreWrappedTotals :
    (∃ t, exec .vsumI16 (top 2) = .next t ∧ t.lastErr = .ok) ∧ (∃ t, exec .vsumI32 (top 1) = .next t ∧ t.lastErr = .ok) ∧
    (∃ t, exec .vsumC16 (top 1) = .next t ∧ t.lastErr = .ok) ∧
    ∃ t, exec .vsumC32 (small 3 0 [1, 2] []) = .next t ∧ t.lastErr = .ok :=
  ⟨⟨_, rfl, by decide⟩, ⟨_, rfl, by decide⟩, ⟨_, rfl, by decide⟩, ⟨_, rfl, by decide⟩⟩

theorem witness_HaddBroadcasts :
    meets noCheck (fun s => [s.bufA 16]) (fun s => [s.bufD 16]) (small 3 1 [1, 2, 3, 4] [5, 6, 7, 8]) ∧
    errs noCheck (fun s => [s.bufA 16]) (fun s => [s.bufD 16]) .range (top 0) :=
  ⟨meets_of (by decide) (by decide), by unfold errs; decide⟩

theorem witness_ShiftLeftWraps :
    meets noCheck (inA 2) (outOfD 2) (top 2) ∧
    errs noCheck (inA 2) (outOfD 2) .range (top 3) :=
  ⟨meets_of (by decide) (by decide), by unfold errs; decide⟩

theorem witness_ShiftLeftWraps_i32_c16 :
    meets noCheck (inA 4) (outOfD 4) (top 1) ∧
    errs noCheck (inA 4) (outOfD 4) .range (top 2) :=
  ⟨meets_of (by decide) (by decide), by unfold errs; decide⟩

theorem witness_ShiftLeftWraps_c32 :
    meets noCheck (inA 8) (outOfD 8) (small 3 1 [1, 2, 3, 4] [5, 6, 7, 8]) ∧
    errs noCheck (inA 8) (outOfD 8) .range (top 1) :=
  ⟨meets_of (by decide) (by decide), by unfold errs; decide⟩

theorem witness_ShiftRightFloors :
    meets noCheck (inA 2) (outOfD 2) (top 2) ∧
    errs noCheck (inA 2) (outOfD 2) .range (top 3) :=
  ⟨meets_of (by decide) (by decide), by unfold errs; decide⟩

theorem witness_ShiftRightFloors_i32_c16 :
    meets noCheck (inA 4) (outOfD 4) (top 1) ∧
    errs noCheck (inA 4) (outOfD 4) .range (top 2) :=
  ⟨meets_of (by decide) (by decide), by unfold errs; decide⟩

theorem witness_ShiftRightFloors_c32 :
    meets noCheck (inA 8) (outOfD 8) (small 3 1 [1, 2, 3, 4] [5, 6, 7, 8]) ∧
    errs noCheck (inA 8) (outOfD 8) .range (top 1) :=
  ⟨meets_of (by decide) (by decide), by unfold errs; decide⟩

theorem witness_PackSaturates :
    meets noCheck (inA 4) (outOfD 2) (top 1) ∧
    errs noCheck (inA 4) (outOfD 2) .range (top 2) :=
  ⟨meets_of (by decide) (by decide), by unfold errs; decide⟩

theorem witness_CastCopiesBytes :
    meets noCheck (inA 2) (outOfD 2) (top 2) ∧
    errs noCheck (inA 2) (outOfD 2) .range (top 3) :=
  ⟨meets_of (by decide) (by decide), by unfold errs; decide⟩

theorem witness_BitwiseOverLength :
    meets noCheck (fun s => [s.bufA (lenBytes s), s.bufB (lenBytes s)]) (fun s => [s.bufD (lenBytes s)]) (top 32) ∧
    errs noCheck (fun s => [s.bufA (lenBytes s), s.bufB (lenBytes s)]) (fun s => [s.bufD (lenBytes s)]) .range (top 33) :=
  ⟨meets_of (by decide) (by decide), by unfold errs; decide⟩

theorem witness_BitwiseOverOneByte :
    meets noCheck (fun s => [s.bufA 1, s.bufB 1]) (fun s => [s.bufD 1]) { top 0 with dst := 0xFFFFFFFF } ∧
    errs noCheck (fun s => [s.bufA 1, s.bufB 1]) (fun s => [s.bufD 1]) .bus { top 0 with platform := vectorPlatform } :=
  ⟨meets_of (by decide) (by decide), by unfold errs; decide⟩

theorem witness_ByteFormsMatchLengthForms :
    (1 ≤ (top 1).len.toNat ∧ (top 1).len.toNat ≤ 8) ∧ (1 ≤ (top 8).len.toNat ∧ (top 8).len.toNat ≤ 8) := by decide

theorem witness_TransformDispatch :
    meets (fun s => if inCatalog s.len.toNat then none else some .fftSize) (inA 4) (outOfD 4) (small 12 0 [1] []) ∧
    errs (fun s => if inCatalog s.len.toNat then none else some .fftSize) (inA 4) (outOfD 4) .fftSize (top 100) ∧
    errs (fun s => if inCatalog s.len.toNat then none else some .fftSize) (inA 4) (outOfD 4) .range (top 12) :=
  ⟨meets_of (by decide) (by decide), by unfold errs; decide, by unfold errs; decide⟩

/-- Every input is the image of 16-bit components, so the inner hypothesis of `TransformDispatch` is always met. -/
theorem witness_TransformDispatch_input (s : State) (n : Nat) :
    ∃ x : Fin n → C16, ∀ k, (x k).toCplx = elemA complex16 s k.val := by
  refine ⟨fun k => loadC16 s.mem s.srca.toNat k.val, fun k => ?_⟩
  simp only [loadC16, C16.toCplx, elemA, loadElem, complex16, complexType, sext, wrap_eq_toInt]
  simp [BitVec.ofInt_natCast]

theorem witness_FftOfZeros64 :
    (small 64 0 [] []).mem.wf = true ∧ (small 64 0 [] []).len = 64 ∧
    bufOk (small 64 0 [] []).platform ((small 64 0 [] []).bufA 256) ∧
    bufOk (small 64 0 [] []).platform ((small 64 0 [] []).bufD 256) ∧ ∀ j < 256, byteA (small 64 0 [] []) j = 0 :=
  ⟨by decide, by decide, .inr (by decide), .inr (by decide), fun _ _ => rfl⟩

theorem witness_FftOfImpulse :
    (small 12 0 [1] []).mem.wf = true ∧ inCatalog (small 12 0 [1] []).len.toNat = true ∧
    (∀ b ∈ inA 4 (small 12 0 [1] []) ++ outOfD 4 (small 12 0 [1] []), bufOk (small 12 0 [1] []).platform b) ∧
    elemA complex16 (small 12 0 [1] []) 0 = ⟨1, 0⟩ ∧
    ∀ j < (small 12 0 [1] []).len.toNat, 0 < j → elemA complex16 (small 12 0 [1] []) j = ⟨0, 0⟩ :=
  ⟨by decide, by decide, (meets_of (own := noCheck) (by decide) (by decide)).2.2, by decide, by decide⟩

/-- A transform that passes its checks succeeds, and keeps LEN and the platform. -/
theorem transform_succeeds {dir : FftDir} {s : State} (hc : inCatalog s.opLen = true)
    (hok : checkBuffers s.platform [s.bufA (s.opLen * 4), s.bufD (s.opLen * 4)] = none) :
    ∃ t, transform dir s = .next t ∧ t.lastErr = .ok ∧ t.len = s.len ∧ t.platform = s.platform := by
  have h := (checkBuffers_eq_none _ _).1 hok
  exact ⟨_, runPhases_succeed ((firstError_eq_none _ _ _ _).2 ⟨by simp [hc], h⟩), rfl, rfl, rfl⟩

theorem witness_FftRoundTrip :
    ∃ (s t u : State) (d : Word), s.mem.wf = true ∧ exec .fftC16 s = .next t ∧ t.lastErr = .ok ∧
      exec .ifftC16 { t with srca := s.dst, dst := d } = .next u ∧ u.lastErr = .ok ∧ 11 < s.len.toNat := by
  obtain ⟨t, h1, h2, h3, h4⟩ := transform_succeeds (dir := .fwd) (s := small 12 0 [1, 2, 3] []) (by decide) (by decide)
  obtain ⟨u, h5, h6, -, -⟩ := transform_succeeds (dir := .inv) (s := { t with srca := 0x1200, dst := 0x1400 })
    (by rw [State.opLen, show State.len _ = t.len from rfl, h3]; decide)
    (by
      simp only [State.opLen, State.bufA, State.bufD, h3, h4]
      decide)
  exact ⟨small 12 0 [1, 2, 3] [], t, u, 0x1400, by decide, h1, h2, h5, h6, by decide⟩

/-- The checks of an init, as `InitStartsFrame` states them. -/
def initChecks (s : State) : Option ErrCode :=
  if s.arg = 0 ∨ s.arg ∉ s.platform.rates then some .vitRate else if s.len = 0 then some .vitFrame else none

theorem witness_InitStartsFrame :
    meets initChecks (fun _ => []) (fun _ => []) { small 1 0 [] [] with arg := 3 } ∧
    meets initChecks (fun _ => []) (fun _ => []) { small 0xFFFFFFFF 0 [] [] with arg := 1 } ∧
    errs initChecks (fun _ => []) (fun _ => []) .vitRate { small 1 0 [] [] with arg := 4 } ∧
    errs initChecks (fun _ => []) (fun _ => []) .vitRate (small 0 0 [] []) ∧
    errs initChecks (fun _ => []) (fun _ => []) .vitFrame { small 0 0 [] [] with arg := 1 } :=
  ⟨meets_of (by decide) (by decide), meets_of (by decide) (by decide), by unfold errs; decide, by unfold errs; decide,
    by unfold errs; decide⟩

/-- The checks and the buffers of VIT.DECODE, as `DecodeAdvancesFrame` states them. -/
def decodeChecks (s : State) : Option ErrCode :=
  if s.ctx.vstate ≠ .ready ∧ s.ctx.vstate ≠ .decoding then some .vitState
  else if s.ctx.consumed.toNat + s.len.toNat > s.ctx.frameLength.toNat then some .vitOverrun else none

/-- The input buffer of VIT.DECODE. -/
def decodeIns (s : State) : List Buf := if s.len = 0 then [] else [s.bufA s.len.toNat]

/-- The output buffer of VIT.DECODE. -/
def decodeOuts (s : State) : List Buf := if s.len = 0 then [] else [s.bufD (((chunkOf s).2.length + 7) / 8)]

/-- The bits of a chunk inside its frame fit RES0 (43_viterbi R219, VIT-LEN). -/
theorem chunk_fits {s : State} (h0 : 1 ≤ s.len.toNat)
    (h : s.ctx.consumed.toNat + s.len.toNat ≤ s.ctx.frameLength.toNat) : (chunkOf s).2.length < 4294967296 :=
  Config.vitEngines.bitsFit _ _ _ _ _ _ (by simpa using h0) (by simpa using h)

/-- A chunk to address 0 passes its checks, however many bits it releases. -/
theorem meets_decode {s : State} (hm : s.mem.wf = true) (ho : decodeChecks s = none) (h0 : 1 ≤ s.len.toNat)
    (hd : s.dst = 0) (ha : s.srca = 0x1000) (hl : s.len.toNat ≤ 48) (hp : s.platform = Platform.reset)
    (h : s.ctx.consumed.toNat + s.len.toNat ≤ s.ctx.frameLength.toNat) : meets decodeChecks decodeIns decodeOuts s := by
  have hlen := chunk_fits h0 h
  have hne : s.len ≠ 0 := fun h => by simp [h] at h0
  refine ⟨hm, ho, fun b hb => .inr ?_⟩
  simp only [decodeIns, decodeOuts, hne, if_false, List.singleton_append, List.mem_cons, List.not_mem_nil, or_false] at hb
  rcases hb with rfl | rfl <;>
    simp [State.bufA, State.bufD, hd, ha, hp, Platform.reset, Platform.memAdmit, AdmitRange.admits, Config.addrSpace] <;> omega

theorem witness_DecodeAdvancesFrame :
    meets decodeChecks decodeIns decodeOuts (inFrame .ready 0 0) ∧
    meets decodeChecks decodeIns decodeOuts { inFrame .ready 0 24 with dst := 0 } ∧
    meets decodeChecks decodeIns decodeOuts { inFrame .decoding 47 1 with dst := 0 } ∧
    errs decodeChecks decodeIns decodeOuts .vitState (small 24 0 [] []) ∧
    errs decodeChecks decodeIns decodeOuts .vitState (inFrame .terminal 48 0) ∧
    errs decodeChecks decodeIns decodeOuts .vitOverrun (inFrame .decoding 47 2) ∧
    errs decodeChecks decodeIns decodeOuts .range { inFrame .decoding 24 2 with srca := 0xFFFFFFFF } :=
  ⟨meets_of (by decide) (by decide),
    meets_decode (by decide) (by decide) (by decide) rfl rfl (by decide) rfl (by decide),
    meets_decode (by decide) (by decide) (by decide) rfl rfl (by decide) rfl (by decide),
    by unfold errs; decide, by unfold errs; decide, by unfold errs; decide, by unfold errs; decide⟩

theorem loadElem_int8 (m : Memory) (a i : Nat) : loadElem int8 m a i = (m.read (a + i)).toInt := by
  rw [loadElem, show int8.size = 1 from rfl, Nat.mul_one]
  simp only [int8, scalarType, Memory.memRead, Memory.readBytes, List.range_one, List.map_cons, List.map_nil, leValue,
    Nat.add_zero, Nat.mul_zero, sext, wrap_eq_toInt, BitVec.ofInt_natCast]
  simp

/-- The statements' chunk is the model's. -/
theorem vitChunk_eq_chunkOf (s : State) : vitChunk s = chunkOf s := by
  simp [vitChunk, chunkOf, vitSymbols, loadElems, loadElem_int8, VitContext.variant, State.opLen, byteA]

/-- A chunk that passes its checks succeeds. -/
theorem decode_succeeds {s : State} (h : meets decodeChecks decodeIns decodeOuts s) (h0 : s.len ≠ 0) :
    ∃ t, exec .vitDecode s = .next t ∧ t.lastErr = .ok := by
  have hne : s.opLen ≠ 0 := fun hz => h0 (BitVec.toNat_inj.1 (by simpa [State.opLen] using hz))
  have hown : vitDecodeCheck s = none := by
    have h2 := h.2.1
    simp only [decodeChecks] at h2
    split at h2
    · cases h2
    · split at h2
      · cases h2
      · next hv hf =>
        rw [vitDecodeCheck, if_neg (by cases hc : s.ctx.vstate <;> simp_all), if_neg (by simp only [State.opLen]; omega)]
  have hb := h.2.2
  simp only [decodeIns, decodeOuts, h0, if_false, ← vitChunk_eq_chunkOf] at hb
  rw [exec_vitDecode, execVitDecode, if_neg hne]
  exact ⟨_, runPhases_succeed ((firstError_eq_none _ _ _ _).2 ⟨hown, hb⟩), rfl⟩

/-- The context of `inFrame` with the registers of a chunk to address 0 and of a next frame. -/
def frameAt (v : VState) (consumed len arg : Word) : State := { inFrame v consumed len with dst := 0, arg := arg }

theorem frameAt_inv {v : VState} {consumed : Word} (h : ctxOk Platform.reset ⟨v, false, 48, consumed, 1, ⟨0⟩⟩) (len arg : Word) :
    Inv (frameAt v consumed len arg) := ⟨rfl, h, fun hne => absurd rfl hne⟩

/-- `ViterbiStateMachine`: its invariant holds in every state of the context, and a decode gives a next state in each. -/
theorem witness_ViterbiStateMachine (len arg : Word) :
    Inv (small 24 0 [] []) ∧ Inv (frameAt .ready 0 len arg) ∧ Inv (frameAt .decoding 47 len arg) ∧
    Inv (frameAt .terminal 48 len arg) :=
  ⟨⟨rfl, ⟨rfl, rfl, rfl, rfl⟩, fun hne => absurd rfl hne⟩,
    frameAt_inv (v := .ready) (consumed := 0) ⟨rfl, by decide, by decide⟩ len arg,
    frameAt_inv (v := .decoding) (consumed := 47) ⟨by decide, by decide, by decide⟩ len arg,
    frameAt_inv (v := .terminal) (consumed := 48) ⟨rfl, by decide, by decide⟩ len arg⟩

/-- Its clauses about decodes that fail: out of state, and one symbol too many. -/
theorem witness_ViterbiStateMachine_fails :
    (∃ t, exec .vitDecode (small 24 0 [] []) = .next t) ∧ (∃ t, exec .vitDecode (frameAt .terminal 48 0 0) = .next t) ∧
    (∃ t, exec .vitDecode (frameAt .ready 0 49 0) = .next t) ∧ ∃ t, exec .vitDecode (frameAt .decoding 47 2 0) = .next t :=
  ⟨⟨_, rfl⟩, ⟨_, rfl⟩, ⟨_, rfl⟩, ⟨_, rfl⟩⟩

/-- Its clauses about decodes that succeed: an empty chunk, part of a frame, all of it, its last symbol. -/
theorem witness_ViterbiStateMachine_succeeds :
    (∃ t, exec .vitDecode (frameAt .ready 0 0 0) = .next t ∧ t.lastErr = .ok) ∧
    (∃ t, exec .vitDecode (frameAt .ready 0 47 0) = .next t ∧ t.lastErr = .ok) ∧
    (∃ t, exec .vitDecode (frameAt .ready 0 48 0) = .next t ∧ t.lastErr = .ok) ∧
    ∃ t, exec .vitDecode (frameAt .decoding 47 1 0) = .next t ∧ t.lastErr = .ok := by
  refine ⟨⟨_, rfl, by decide⟩, decode_succeeds (meets_decode ?_ ?_ ?_ rfl rfl ?_ rfl ?_) ?_,
    decode_succeeds (meets_decode ?_ ?_ ?_ rfl rfl ?_ rfl ?_) ?_,
    decode_succeeds (meets_decode ?_ ?_ ?_ rfl rfl ?_ rfl ?_) ?_⟩ <;> decide

/-- Its clauses about inits, accepted and not, about another command, and about resets. -/
theorem witness_ViterbiStateMachine_others :
    (∃ t, exec .vitInitsig (frameAt .terminal 48 9 1) = .next t) ∧ (∃ t, exec .vitInit (frameAt .terminal 48 9 4) = .next t) ∧
    (∃ t, exec .vor (frameAt .ready 0 24 1) = .next t) ∧
    (hostResets (given (.writeBlock 4 .word 1)) ∧ ∃ t, step (given (.writeBlock 4 .word 1)) = .next t) ∧
    hostResets (given .powerOnReset) ∧ ∃ t, step (given .powerOnReset) = .next t :=
  ⟨⟨_, rfl⟩, ⟨_, rfl⟩, ⟨_, rfl⟩, ⟨.inr ⟨1, by decide, rfl⟩, _, rfl⟩, .inl rfl, _, rfl⟩

/-- The state of a round trip: the symbols at 0, the output over them, one frame. -/
def frameOf (sym : List Byte) : State :=
  { small (BitVec.ofNat 32 sym.length) 0 [] [] with arg := 1, dst := 0, srca := 0, mem := bytesAt 0 sym }

/-- Whatever the OPEN encoder gives, as long as a frame can hold it (43_viterbi R221), some run meets every hypothesis. -/
theorem witness_VitRoundTrip (v : VitVariant) (b : List Bool) (h1 : 1 ≤ (Config.vitEnc v 1 b).length)
    (h2 : (Config.vitEnc v 1 b).length < 2 ^ 32) :
    ∃ (i : Instr) (s t u : State), ((i = .vitInit ∧ v = .generic) ∨ (i = .vitInitsig ∧ v = .sig)) ∧ s.mem.wf = true ∧
      exec i s = .next t ∧ t.lastErr = .ok ∧ exec .vitDecode t = .next u ∧ u.lastErr = .ok ∧ s.arg = 1 ∧
      (List.range s.len.toNat).map (byteA s) = Config.vitEnc v 1 b := by
  generalize hsym : Config.vitEnc v 1 b = sym at h1 h2
  have hwf : (frameOf sym).mem.wf = true := Memory.writeBytes_wf (by omega) (by decide)
  have hlen : (frameOf sym).len.toNat = sym.length := by
    show (BitVec.ofNat 32 sym.length).toNat = sym.length
    rw [BitVec.toNat_ofNat, Nat.mod_eq_of_lt h2]
  have hne : (frameOf sym).opLen ≠ 0 := by simp only [State.opLen, hlen]; omega
  have hin : ∃ i, ((i = Instr.vitInit ∧ v = .generic) ∨ (i = .vitInitsig ∧ v = .sig)) ∧
      exec i (frameOf sym) = vitInitFrame v (frameOf sym) := by
    cases v
    · exact ⟨.vitInit, .inl ⟨rfl, rfl⟩, rfl⟩
    · exact ⟨.vitInitsig, .inr ⟨rfl, rfl⟩, rfl⟩
  obtain ⟨i, hi, he⟩ := hin
  have hck : vitInitCheck (frameOf sym) = none := by
    have hr : (frameOf sym).platform.acceptsRate (frameOf sym).arg = true := by
      show Platform.reset.acceptsRate 1 = true
      decide
    simp [vitInitCheck, hr, hne]
  obtain ⟨t, hx, hc, hl, ha, hd, hp, hto⟩ : ∃ t, exec i (frameOf sym) = .next t ∧ t.ctx = vitFrameStart v (frameOf sym) ∧
      t.len = (frameOf sym).len ∧ t.srca = 0 ∧ t.dst = 0 ∧ t.platform = Platform.reset ∧ t.lastErr = .ok :=
    ⟨_, he.trans (runPhases_succeed ((firstError_eq_none _ _ _ _).2 ⟨hck, by simp⟩)), rfl, rfl, rfl, rfl, rfl, rfl⟩
  have hy : ∀ t : State, t.ctx = vitFrameStart v (frameOf sym) → t.len = (frameOf sym).len → t.srca = 0 → t.dst = 0 →
      t.platform = Platform.reset → ∃ u, exec .vitDecode t = .next u ∧ u.lastErr = .ok := by
    intro t hc hl ha hd hp
    have h0 : t.opLen ≠ 0 := by simpa only [State.opLen, hl] using hne
    have hk : vitDecodeCheck t = none := by
      simp [vitDecodeCheck, hc, vitFrameStart, State.opLen, hl]
    have hf : (vitChunk t).2.length < 4294967296 := by
      refine Config.vitEngines.bitsFit _ _ _ _ _ _ ?_ ?_
      · simp only [vitSymbols, loadElems, List.length_map, List.length_range]; omega
      · simp [vitSymbols, loadElems, hc, vitFrameStart, State.opLen, hl]
    rw [exec_vitDecode, execVitDecode, if_neg h0]
    refine ⟨_, runPhases_succeed ((firstError_eq_none _ _ _ _).2 ⟨hk, fun b hb => .inr ?_⟩), rfl⟩
    simp only [List.map_cons, List.map_nil, List.singleton_append, List.mem_cons, List.not_mem_nil, or_false] at hb
    have hL := t.len.isLt
    rcases hb with rfl | rfl <;>
      simp [State.bufA, State.bufD, State.opLen, byteCount, hd, ha, hp, Platform.reset, Platform.memAdmit, AdmitRange.admits,
        Config.addrSpace] <;> omega
  obtain ⟨u, hu, hok⟩ := hy t hc hl ha hd hp
  refine ⟨i, frameOf sym, t, u, hi, hwf, hx, hto, hu, hok, rfl, ?_⟩
  rw [hlen]
  apply List.ext_getElem
  · simp
  · intro j hj _
    simp only [List.getElem_map, List.getElem_range, byteA]
    exact Memory.read_writeBytes_inside (by decide) (by omega) _

theorem witness_StepRunsDecodedCommand :
    nextWrites (State.reset.withFetchWord 32 0x101) 0x0C 0x101 ∧ decode 0x101#32 = .ok .vaddI16 := by
  unfold nextWrites; decide

theorem witness_IllegalWordRaises :
    nextWrites (State.reset.withFetchWord 32 0x103) 0x0C 0x103 ∧ ∀ i, 0x103#32 ≠ encode i :=
  ⟨by unfold nextWrites; decide, fun i => by cases i <;> decide⟩

theorem witness_MetricsUnobservedBeforeInit :
    State.reset.ctx.vstate = .uninitialized ∧
    step (given (.readBlock 2 .word)) = .refused .misalignedAccess ∧
    (∃ t, step { State.reset.withFetchWord 32 0x30 with len := 48, arg := 1 } = .next t ∧ t.ctx.vstate = .ready) ∧
    ∃ t, step (State.reset.withFetchWord 32 0x32) = .next t ∧ t.ctx.vstate = .uninitialized :=
  ⟨rfl, rfl, ⟨_, rfl, by decide⟩, ⟨_, rfl, by decide⟩⟩

theorem next_given (a : Input) : nextInput (given a) = some a := rfl

theorem nextWrites_given (off : Nat) (v : Word) : nextWrites (given (.writeBlock off .word v)) off v := by
  refine (next_given _).trans ?_
  rw [show 256 * (given (.writeBlock off .word v)).platform.basePage + off = off from Nat.zero_add off]

/-- A write of a register other than CTRL resets nothing. -/
theorem no_reset {s : State} {off : Nat} {v : Word} (h : nextWrites s off v) (h4 : off ≠ 4) : ¬hostResets s := by
  rintro (hp | ⟨w, -, hw⟩)
  · rw [h] at hp
    cases hp
  · rw [nextWrites, h] at hw
    simp only [Option.some.injEq, Input.writeBlock.injEq] at hw
    omega

/-- A write of CMD, legal and failing, illegal, legal and succeeding. -/
theorem witness_FailingCommandOnlyReports :
    (nextWrites (State.reset.withFetchWord 32 0x320) 0x0C 0x320 ∧
      ∃ t, step (State.reset.withFetchWord 32 0x320) = .next t ∧ t.lastErr ≠ .ok) ∧
    (nextWrites (State.reset.withFetchWord 32 0x103) 0x0C 0x103 ∧
      ∃ t, step (State.reset.withFetchWord 32 0x103) = .next t ∧ t.lastErr ≠ .ok) ∧
    (nextWrites (State.reset.withFetchWord 32 0x101) 0x0C 0x101 ∧
      ∃ t, step (State.reset.withFetchWord 32 0x101) = .next t ∧ t.lastErr = .ok) :=
  ⟨⟨nextWrites_given 0x0C 0x320, _, rfl, by decide⟩, ⟨nextWrites_given 0x0C 0x103, _, rfl, by decide⟩,
    ⟨nextWrites_given 0x0C 0x101, _, rfl, by decide⟩⟩

theorem witness_OperandRegistersKept : ∃ t, exec .fftC16 (top 100) = .next t := ⟨_, rfl⟩

/-- The clauses about a step: each of the eight registers changed by the host's write of it. -/
theorem witness_OperandRegistersKept_step :
    (∃ t, step (State.reset.withFetchWord 32 0x101) = .next t ∧ t.cmd ≠ State.reset.cmd) ∧
    (∃ t, step (given (.writeBlock 0x10 .word 5)) = .next t ∧ t.srca ≠ State.reset.srca) ∧
    (∃ t, step (given (.writeBlock 0x14 .word 5)) = .next t ∧ t.srcb ≠ State.reset.srcb) ∧
    (∃ t, step (given (.writeBlock 0x18 .word 5)) = .next t ∧ t.dst ≠ State.reset.dst) ∧
    (∃ t, step (given (.writeBlock 0x1C .word 5)) = .next t ∧ t.dst2 ≠ State.reset.dst2) ∧
    (∃ t, step (given (.writeBlock 0x20 .word 5)) = .next t ∧ t.len ≠ State.reset.len) ∧
    (∃ t, step (given (.writeBlock 0x24 .word 5)) = .next t ∧ t.shift ≠ State.reset.shift) ∧
    (∃ t, step (given (.writeBlock 0x28 .word 5)) = .next t ∧ t.arg ≠ State.reset.arg) ∧
    ∀ off ∈ [0x0C, 0x10, 0x14, 0x18, 0x1C, 0x20, 0x24, 0x28], ∀ v, ¬hostResets (given (.writeBlock off .word v)) := by
  refine ⟨⟨_, rfl, by decide⟩, ⟨_, rfl, by decide⟩, ⟨_, rfl, by decide⟩, ⟨_, rfl, by decide⟩, ⟨_, rfl, by decide⟩,
    ⟨_, rfl, by decide⟩, ⟨_, rfl, by decide⟩, ⟨_, rfl, by decide⟩, fun off ho v => ?_⟩
  exact no_reset (nextWrites_given off v) (by rintro rfl; revert ho; decide)

theorem witness_ResultRegistersOnlyBySumAndDecode :
    let s := placeInput (small 1 0 [7] []) (.writeBlock 0x0C .word 0x106)
    ¬hostResets s ∧ ∃ t, step s = .next t ∧ (t.res0 ≠ s.res0 ∨ t.res1 ≠ s.res1) :=
  ⟨no_reset (off := 0x0C) (v := 0x106) rfl (by decide), _, rfl, by decide⟩

theorem witness_ContextOnlyByViterbi :
    let s := placeInput { small 48 0 [] [] with arg := 1 } (.writeBlock 0x0C .word 0x30)
    ¬hostResets s ∧ ∃ t, step s = .next t ∧ t.ctx ≠ s.ctx :=
  ⟨no_reset (off := 0x0C) (v := 0x30) rfl (by decide), _, rfl, fun h => absurd (congrArg VitContext.vstate h) (by decide)⟩

/-- The last clause of `ViterbiStateMachine`. -/
theorem witness_ViterbiStateMachine_step :
    let s := placeInput { small 48 0 [] [] with arg := 1 } (.writeBlock 0x0C .word 0x30)
    Inv s ∧ ¬hostResets s ∧ ∃ t, step s = .next t ∧ t.ctx.vstate ≠ s.ctx.vstate :=
  ⟨⟨rfl, ⟨rfl, rfl, rfl, rfl⟩, fun hne => absurd rfl hne⟩, no_reset (off := 0x0C) (v := 0x30) rfl (by decide), _, rfl, by decide⟩

theorem witness_ReportedCodes : ∃ t, exec .vand8 { top 0 with platform := vectorPlatform } = .next t ∧ t.lastErr = .bus :=
  ⟨_, rfl, by decide⟩

theorem witness_ErrNeverBlocks : ∃ t, exec .vor { small 8 0 [1] [2] with err := true, lastErr := .bus } = .next t ∧ t.err = true :=
  ⟨_, rfl, by decide⟩

theorem witness_UnlistedRegistersIgnored :
    OperandReg.len ∉ registersRead .vhaddI32 ∧ OperandReg.shift ∉ registersRead .vcmulwC16 ∧
    OperandReg.arg ∉ registersRead .vitDecode ∧ ∃ t, exec .vhaddI32 (small 9 0 [1] []) = .next t :=
  ⟨by decide, by decide, by decide, ⟨_, rfl⟩⟩

/-- The invariant holds in every state of the context: the hypothesis of `StepKeepsInvariant`. -/
theorem witness_StepKeepsInvariant :
    Inv (State.reset.withFetchWord 32 0x101) ∧ (∃ t, step (State.reset.withFetchWord 32 0x101) = .next t) ∧
    Inv (inFrame .ready 0 24) ∧ Inv (inFrame .decoding 47 1) ∧ Inv (inFrame .terminal 48 0) :=
  ⟨⟨by decide, ⟨rfl, rfl, rfl, rfl⟩, by decide⟩, ⟨_, rfl⟩, ⟨by decide, ⟨rfl, by decide, by decide⟩, by decide⟩,
    ⟨by decide, ⟨by decide, by decide, by decide⟩, by decide⟩, ⟨by decide, ⟨rfl, by decide, by decide⟩, by decide⟩⟩

theorem witness_RegisterBlockAccesses_reads :
    (∀ p ∈ registerMap State.reset, nextReads (given (.readBlock p.1 .word)) p.1) ∧
    nextReads (given (.readBlock 0x40 .word)) 0x40 ∧ nextReads (given (.readBlock 0xFC .word)) 0xFC := by
  refine ⟨fun p _ => (next_given _).trans ?_, by unfold nextReads; decide, by unfold nextReads; decide⟩
  rw [show 256 * (given (.readBlock p.1 .word)).platform.basePage + p.1 = p.1 from Nat.zero_add p.1]

/-- Every clause about a write, at its offset: the operand registers, the read-only registers, the reserved offsets. -/
theorem witness_RegisterBlockAccesses_writes (off : Nat) (v : Word) :
    nextWrites (given (.writeBlock off .word v)) off v := nextWrites_given off v

/-- Every clause about a write of CTRL: SRST alone and with CLRERR, CLRERR alone and with ignored bits, neither. -/
theorem witness_CtrlWritesResetOrClear (v : Word) :
    nextWrites (given (.writeBlock 4 .word v)) 4 v ∧ nextReads (given (.readBlock 4 .word)) 4 ∧
    ((1#32).toNat % 2 = 1 ∧ (3#32).toNat % 2 = 1 ∧ (0xFFFFFFFF#32).toNat % 2 = 1) ∧
    ((2#32).toNat % 2 = 0 ∧ (2#32).toNat / 2 % 2 = 1) ∧
    ((0xFFFFFFFE#32).toNat % 2 = 0 ∧ (0xFFFFFFFE#32).toNat / 2 % 2 = 1) ∧
    ((0#32).toNat % 2 = 0 ∧ (0#32).toNat / 2 % 2 = 0) ∧
    ((0xFFFFFFFC#32).toNat % 2 = 0 ∧ (0xFFFFFFFC#32).toNat / 2 % 2 = 0) :=
  ⟨nextWrites_given 4 v, rfl, by decide, by decide, by decide, by decide, by decide⟩

theorem witness_PowerOnResets : nextInput (given .powerOnReset) = some .powerOnReset := by decide

theorem witness_UndefinedAccessesRefused :
    nextInput (given (.readBlock 0 .byte)) = some (.readBlock (256 * State.reset.platform.basePage + 0) .byte) ∧
    nextInput (given (.writeBlock 254 .half 7)) = some (.writeBlock (256 * State.reset.platform.basePage + 254) .half 7) ∧
    nextInput (given (.readBlock 255 .word)) = some (.readBlock (256 * State.reset.platform.basePage + 255) .word) := by
  decide

theorem witness_HostMemoryAccesses :
    (given (.storeMem 0xFFFFFFFF 5)).mem.wf = true ∧
    nextInput (given (.storeMem 0xFFFFFFFF 5)) = some (.storeMem 0xFFFFFFFF 5) ∧
    nextInput (given (.loadMem 0)) = some (.loadMem 0) := by decide

theorem witness_PositionAdvancesByOne :
    (∃ t, step State.reset = .next t ∧ State.reset.inputs.length ≤ State.reset.pos) ∧
    ∃ t, step (given (.loadMem 0)) = .next t ∧ (given (.loadMem 0)).pos < (given (.loadMem 0)).inputs.length :=
  ⟨⟨_, rfl, by decide⟩, ⟨_, rfl, by decide⟩⟩

theorem witness_PseudoInstructionsRunTheirCommand :
    [0x2000#32, 0x1000#32, 0x1800#32, 8#32].length = (pseudoOperands .vaddI16).length ∧
    let s := launch Platform.reset [] (encodeProgram Platform.reset (pseudo .vaddI16 [0x2000, 0x1000, 0x1800, 8]))
    s.inputs.drop s.pos = encodeProgram s.platform (pseudo .vaddI16 [0x2000, 0x1000, 0x1800, 8]) ++ [] := by decide

theorem witness_AssemblerReadsMnemonics :
    ("vcmulw.c16", Instr.vcmulwC16) ∈ asmCommands ∧ "VCMULW.c16".toList.map Char.toLower = "vcmulw.c16".toList := by decide

theorem witness_ErrorPriority :
    ({ top 100 with srca := 0xFFFFFFF0 }.len = 100 ∧ { top 100 with srca := 0xFFFFFFF0 }.srca = 0xFFFFFFF0) ∧
    (∃ s : State, (∀ b ∈ inAB 2 s, b.addr + b.size ≤ 2 ^ 32) ∧ s.len ≠ 0 ∧
      s.platform.memAdmit s.srcb.toNat (s.len.toNat * 2) = false ∧ s.dst.toNat + s.len.toNat * 2 > 2 ^ 32) ∧
    ∃ s : State, s.ctx.vstate = .uninitialized ∧ s.len.toNat > s.ctx.frameLength.toNat :=
  ⟨⟨rfl, rfl⟩,
    ⟨{ small 1 0 [] [] with srcb := 0, dst := 0xFFFFFFFF, platform := vectorPlatform }, by decide, by decide, by decide,
      by decide⟩,
    ⟨small 1000 0 [] [], by decide, by decide⟩⟩

/-- `WidthPrimitives` at the boundaries of its clauses: N = 1, a shift of N - 1, a shift of N. -/
theorem witness_WidthPrimitives :
    1 ≤ 1 ∧ (-(2 ^ (16 - 1) : Int) ≤ -32768 ∧ (-32768 : Int) < 2 ^ (16 - 1) ∧ 16 - 1 ≤ 15) ∧
    (-(2 ^ (16 - 1) : Int) ≤ 32767 ∧ (32767 : Int) < 2 ^ (16 - 1) ∧ (2 ^ 16 : Int) ∣ 32767 - (-32769)) ∧ 16 ≤ 16 := by
  decide

theorem witness_MemoryPrimitives : Memory.wf [] = true ∧ 4294967292 + 4 ≤ 2 ^ 32 ∧ 3 < 4 ∧ 4294967291 < 4294967292 := by
  decide

end Sys2Proof.Machine
end

