-- ==== Sys2Proof/Proofs/Scope.lean ====
section
/-! PROOFS. The width primitives (00_scope R8). -/

namespace Sys2Proof.Machine

/-- The signed range of 00_scope R8, written with 2^(N-1), is the range of the laws of `wrap`, written with 2^N. -/
theorem signedRange_iff {N : Nat} (hN : 1 ≤ N) (v : Int) :
    (-(2 ^ (N - 1) : Int) ≤ v ∧ v < 2 ^ (N - 1)) ↔ (-(2 ^ N : Int) ≤ 2 * v ∧ 2 * v < 2 ^ N) := by
  have h2 : (2 : Int) * 2 ^ (N - 1) = 2 ^ N := mul_pow_sub_one (Nat.one_le_iff_ne_zero.1 hN) 2
  omega

theorem wrap_mem_signedRange {N : Nat} (hN : 1 ≤ N) (v : Int) :
    -(2 ^ (N - 1) : Int) ≤ wrap N v ∧ wrap N v < 2 ^ (N - 1) :=
  (signedRange_iff hN _).2 ⟨wrap_lower N v, wrap_upper hN v⟩

theorem dvd_wrap_sub (N : Nat) (v : Int) : (2 ^ N : Int) ∣ wrap N v - v :=
  Int.modEq_iff_dvd.1 (wrap_emod N v).symm

/-- `wrap_N(v)` is the only value of the signed range in the class of v: such a value is its own wrap. -/
theorem eq_wrap_of_dvd_sub {N : Nat} (hN : 1 ≤ N) {r v : Int} (hlo : -(2 ^ (N - 1) : Int) ≤ r)
    (hhi : r < 2 ^ (N - 1)) (hdvd : (2 ^ N : Int) ∣ r - v) : r = wrap N v := by
  obtain ⟨h1, h2⟩ := (signedRange_iff hN r).1 ⟨hlo, hhi⟩
  calc r = wrap N r := (wrap_of_range h1 h2).symm
    _ = wrap N v := wrap_congr (Int.modEq_iff_dvd.2 hdvd).symm

@[simp] theorem natCast_uwrap (N : Nat) (v : Int) : (uwrap N v : Int) = v % 2 ^ N :=
  Int.toNat_of_nonneg (Int.emod_nonneg v (by positivity))

theorem uwrap_lt (N : Nat) (v : Int) : uwrap N v < 2 ^ N := by
  have h : v % 2 ^ N < (2 ^ N : Int) := Int.emod_lt_of_pos v (by positivity)
  rw [← natCast_uwrap] at h
  exact_mod_cast h

/-- A shift by at least the magnitude's width leaves only the sign. -/
theorem asr_of_width_le {m k : Nat} {v : Int} (hlo : -(2 ^ m : Int) ≤ v) (hhi : v < 2 ^ m) (hk : m ≤ k) :
    asr v k = if 0 ≤ v then 0 else -1 := by
  have hpow : (2 : Int) ^ m ≤ 2 ^ k := pow_le_pow_right₀ (by norm_num) hk
  rw [asr_eq_floor]
  split
  · next hv => exact Int.ediv_eq_zero_of_lt hv (hhi.trans_le hpow)
  · next hv => exact Int.ediv_eq_neg_one_of_neg_of_le (not_le.1 hv) (by omega)

theorem shl_of_width_le {N k : Nat} (hk : N ≤ k) (v : Int) : shl N v k = 0 := if_pos hk

/-- Settles O54: each clause is a law of its primitive. -/
theorem widthPrimitives : Obligations.WidthPrimitives := by
  intro N v k hN
  obtain ⟨hlo, hhi⟩ := wrap_mem_signedRange hN v
  exact ⟨⟨hlo, hhi, dvd_wrap_sub N v⟩, fun _ => eq_wrap_of_dvd_sub hN, ⟨natCast_uwrap N v, uwrap_lt N v⟩,
    rfl, rfl, rfl, asr_eq_floor v k, asr_of_width_le, shl_eq_wrap N v k, (shl_of_width_le · v)⟩

end Sys2Proof.Machine
end

