-- ==== Sys2Proof/Proofs/State.lean ====
section
/-! PROOFS. The register block and what a step may change (10_state). -/

namespace Sys2Proof.Machine

/-! ## The offset of an access -/

theorem insideBlock_iff (base addr : Nat) : insideBlock base addr = true ↔ base ≤ addr ∧ addr < base + 256 := by
  simp only [insideBlock, Bool.and_eq_true, decide_eq_true_iff]

theorem sizeIsWord_iff (size : AccessSize) : sizeIsWord size = true ↔ size = .word := beq_iff_eq

theorem wordAligned_iff (base addr : Nat) : wordAligned base addr = true ↔ (addr - base) % 4 = 0 := beq_iff_eq

/-- The accesses that the spec has a step for are the aligned 32-bit ones inside the block (10_state R33). -/
theorem blockOffset_eq_ok_iff {base addr off : Nat} {size : AccessSize} :
    blockOffset base addr size = .ok off ↔ addr = base + off ∧ size = .word ∧ off < 256 ∧ off % 4 = 0 := by
  have hchecks : blockOffset base addr size = .ok off ↔
      insideBlock base addr = true ∧ sizeIsWord size = true ∧ wordAligned base addr = true ∧ addr - base = off := by
    unfold blockOffset
    split_ifs with hin hsize halign <;> simp_all
  rw [hchecks, insideBlock_iff, sizeIsWord_iff, wordAligned_iff]
  constructor
  · rintro ⟨⟨hlo, hhi⟩, hsize, halign, rfl⟩
    exact ⟨by omega, hsize, by omega, halign⟩
  · rintro ⟨rfl, hsize, hlt, halign⟩
    exact ⟨by omega, hsize, by omega, by omega⟩

theorem blockOffset_word {base off : Nat} (hlt : off < 256) (halign : off % 4 = 0) :
    blockOffset base (base + off) .word = .ok off :=
  blockOffset_eq_ok_iff.2 ⟨rfl, rfl, hlt, halign⟩

/-- A narrow access is reported as such, and a 32-bit one that is misaligned as that (10_state R33; log 14). -/
theorem blockOffset_undefined {base off : Nat} {size : AccessSize} (hoff : off < 256)
    (h : size ≠ .word ∨ off % 4 ≠ 0) :
    blockOffset base (base + off) size = .error .subWordAccess ∨
      blockOffset base (base + off) size = .error .misalignedAccess := by
  have hin : insideBlock base (base + off) = true := (insideBlock_iff _ _).2 ⟨by omega, by omega⟩
  by_cases hs : size = .word
  · have halign : off % 4 ≠ 0 := h.resolve_left (not_not_intro hs)
    exact .inr (by simp [blockOffset, hin, hs, sizeIsWord, wordAligned, halign])
  · exact .inl (by simp [blockOffset, hin, hs, sizeIsWord])

/-! ## One step, by the next input -/

theorem step_of_nextInput {s : State} {a : Input} (h : nextInput s = some a) : step s = perform a (advance s) := by
  simp [step, h]

@[simp] theorem readReg_advance (s : State) (off : Nat) : readReg (advance s) off = readReg s off := rfl

theorem step_of_nextReads {s : State} {off : Nat} (hlt : off < 256) (hal : off % 4 = 0) (h : nextReads s off) :
    step s = .next (returnToHost (advance s) (readReg s off)) := by
  have hb : blockOffset s.platform.base (256 * s.platform.basePage + off) .word = .ok off := blockOffset_word hlt hal
  simp [step_of_nextInput h, perform, hb]

theorem step_of_nextWrites {s : State} {off : Nat} {v : Word} (hlt : off < 256) (hal : off % 4 = 0)
    (hcmd : off ≠ cmdOffset) (h : nextWrites s off v) : step s = .next (writeReg (advance s) off v) := by
  have hb : blockOffset s.platform.base (256 * s.platform.basePage + off) .word = .ok off := blockOffset_word hlt hal
  simp [step_of_nextInput h, perform, hb, hcmd]

theorem step_of_nextWrites_cmd {s : State} {c : Word} (h : nextWrites s cmdOffset c) :
    step s = writeCmd c (advance s) := by
  have hb : blockOffset s.platform.base (256 * s.platform.basePage + cmdOffset) .word = .ok cmdOffset :=
    blockOffset_word (by decide) (by decide)
  simp [step_of_nextInput h, perform, hb]

theorem step_refused_of_blockOffset {s : State} {addr : Nat} {size : AccessSize} {v : Word} {r : Refusal}
    (hb : blockOffset s.platform.base addr size = .error r)
    (hn : nextInput s = some (.readBlock addr size) ∨ nextInput s = some (.writeBlock addr size v)) :
    step s = .refused r := by
  obtain hn | hn := hn <;> simp [step_of_nextInput hn, perform, hb]

/-- Everything a step that is not refused can do, by the host's next input. -/
inductive StepCase (s : State) : State → Prop
  | idle (h : nextInput s = none) : StepCase s s
  | read {off : Nat} (h : nextReads s off) : StepCase s (returnToHost (advance s) (readReg s off))
  | write {off : Nat} {v : Word} (h : nextWrites s off v) (hcmd : off ≠ cmdOffset) :
      StepCase s (writeReg (advance s) off v)
  | illegal {c : Word} {e : DecodeError} (h : nextWrites s cmdOffset c) (hd : decode c = .error e) :
      StepCase s (raise .illegal { advance s with cmd := c })
  | command {c : Word} {i : Instr} {t : State} (h : nextWrites s cmdOffset c) (hd : decode c = .ok i)
      (he : exec i { advance s with cmd := c } = .next t) : StepCase s t
  | loadMem {a : Word} (h : nextInput s = some (.loadMem a)) :
      StepCase s (returnToHost (advance s) ((s.mem.read a.toNat).setWidth 32))
  | storeMem {a : Word} {b : Byte} (h : nextInput s = some (.storeMem a b)) :
      StepCase s { advance s with mem := s.mem.write a.toNat b }
  | powerOn (h : nextInput s = some .powerOnReset) : StepCase s (resetUnit (advance s))

/-- A CMD write reports an illegal word or runs the command (10_state R25). -/
theorem stepCase_of_writeCmd {s t : State} {c : Word} (hw : nextWrites s cmdOffset c)
    (h : writeCmd c (advance s) = .next t) : StepCase s t := by
  cases hd : decode c with
  | ok i => exact .command hw hd (by simpa [writeCmd, hd] using h)
  | error e =>
    obtain rfl : raise .illegal { advance s with cmd := c } = t := by simpa [writeCmd, hd] using h
    exact .illegal hw hd

theorem stepCase_of_step {s t : State} (h : step s = .next t) : StepCase s t := by
  cases hn : nextInput s with
  | none =>
    obtain rfl : s = t := by simpa [step, hn] using h
    exact .idle hn
  | some a =>
    rw [step_of_nextInput hn] at h
    cases a with
    | readBlock addr size =>
      cases hb : blockOffset s.platform.base addr size with
      | error r => simp [perform, hb] at h
      | ok off =>
        obtain ⟨rfl, rfl, -, -⟩ := blockOffset_eq_ok_iff.1 hb
        obtain rfl : returnToHost (advance s) (readReg s off) = t := by simpa [perform, hb] using h
        exact .read hn
    | writeBlock addr size v =>
      cases hb : blockOffset s.platform.base addr size with
      | error r => simp [perform, hb] at h
      | ok off =>
        obtain ⟨rfl, rfl, -, -⟩ := blockOffset_eq_ok_iff.1 hb
        by_cases hc : off = cmdOffset
        · subst hc
          exact stepCase_of_writeCmd hn (by simpa [perform, hb] using h)
        · obtain rfl : writeReg (advance s) off v = t := by simpa [perform, hb, hc] using h
          exact .write hn hc
    | loadMem a => cases h; exact .loadMem hn
    | storeMem a b => cases h; exact .storeMem hn
    | powerOnReset => cases h; exact .powerOn hn

/-! ## Writes of CTRL (10_state R23) -/

theorem srst_iff (v : Word) : v.getLsbD 0 = true ↔ v.toNat % 2 = 1 := by
  rw [BitVec.getLsbD, Nat.testBit_zero, decide_eq_true_iff]

theorem clrerr_iff (v : Word) : v.getLsbD 1 = true ↔ v.toNat / 2 % 2 = 1 := by
  rw [BitVec.getLsbD, Nat.testBit_succ, Nat.testBit_zero, decide_eq_true_iff]

theorem writeCtrl_eq (v : Word) (s : State) :
    writeCtrl v s = if v.toNat % 2 = 1 then resetUnit s else if v.toNat / 2 % 2 = 1 then clearError s else s := by
  simp only [writeCtrl, srst_iff, clrerr_iff]

theorem writeCtrl_srst {v : Word} (h : v.toNat % 2 = 1) (s : State) : writeCtrl v s = resetUnit s := by
  rw [writeCtrl_eq, if_pos h]

theorem writeCtrl_clrerr {v : Word} (h0 : v.toNat % 2 = 0) (h1 : v.toNat / 2 % 2 = 1) (s : State) :
    writeCtrl v s = clearError s := by
  rw [writeCtrl_eq, if_neg (by omega), if_pos h1]

theorem writeCtrl_neither {v : Word} (h0 : v.toNat % 2 = 0) (h1 : v.toNat / 2 % 2 = 0) (s : State) :
    writeCtrl v s = s := by
  rw [writeCtrl_eq, if_neg (by omega), if_neg (by omega)]

/-- Without SRST, a CTRL write keeps everything but STATUS. -/
theorem writeCtrl_frame {v : Word} (h : v.toNat % 2 ≠ 1) (s : State) :
    writeCtrl v s = { s with err := (writeCtrl v s).err, lastErr := (writeCtrl v s).lastErr } := by
  have h0 : v.toNat % 2 = 0 := Nat.mod_two_ne_one.1 h
  rcases Nat.mod_two_eq_zero_or_one (v.toNat / 2) with h1 | h1
  · rw [writeCtrl_neither h0 h1]
  · rw [writeCtrl_clrerr h0 h1]; rfl

theorem writeReg_ctrl (s : State) (v : Word) : writeReg s 0x04 v = writeCtrl v s := rfl

theorem step_of_nextWrites_ctrl {s : State} {v : Word} (h : nextWrites s 0x04 v) :
    step s = .next (writeCtrl v (advance s)) :=
  step_of_nextWrites (by decide) (by decide) (by decide) h

/-! ## Writes of the other registers -/

/-- The offset of an operand register (10_state R21). -/
def OperandReg.offset : OperandReg → Nat
  | .srca => 0x10
  | .srcb => 0x14
  | .dst => 0x18
  | .dst2 => 0x1C
  | .len => 0x20
  | .shift => 0x24
  | .arg => 0x28

theorem OperandReg.offset_access (r : OperandReg) : r.offset < 256 ∧ r.offset % 4 = 0 ∧ r.offset ≠ cmdOffset := by
  cases r <;> decide

theorem writeReg_operand (r : OperandReg) (s : State) (v : Word) : writeReg s r.offset v = setOperand r v s := by
  cases r <;> rfl

theorem step_of_nextWrites_operand (r : OperandReg) {s : State} {v : Word} (h : nextWrites s r.offset v) :
    step s = .next (setOperand r v (advance s)) := by
  obtain ⟨hlt, hal, hcmd⟩ := r.offset_access
  rw [step_of_nextWrites hlt hal hcmd h, writeReg_operand]

/-- A write apart from CTRL stores an operand register or is ignored. -/
theorem writeReg_cases {off : Nat} (h : off ≠ 0x04) (s : State) (v : Word) :
    (∃ r : OperandReg, off = r.offset ∧ writeReg s off v = setOperand r v s) ∨ writeReg s off v = s := by
  unfold writeReg
  split
  · exact absurd rfl h
  · exact .inl ⟨.srca, rfl, rfl⟩
  · exact .inl ⟨.srcb, rfl, rfl⟩
  · exact .inl ⟨.dst, rfl, rfl⟩
  · exact .inl ⟨.dst2, rfl, rfl⟩
  · exact .inl ⟨.len, rfl, rfl⟩
  · exact .inl ⟨.shift, rfl, rfl⟩
  · exact .inl ⟨.arg, rfl, rfl⟩
  · exact .inr rfl

theorem writeReg_reserved {off : Nat} (h : 0x40 ≤ off) (s : State) (v : Word) : writeReg s off v = s := by
  have h4 : off ≠ 0x04 := by omega
  obtain ⟨r, hr, -⟩ | hs := writeReg_cases h4 s v
  · exact absurd h (by subst hr; cases r <;> decide)
  · exact hs

theorem writeReg_readOnly {off : Nat} (h : off ∈ [0x00, 0x08, 0x2C, 0x30, 0x34, 0x38, 0x3C]) (s : State) (v : Word) :
    writeReg s off v = s := by
  have h4 : off ≠ 0x04 := by rintro rfl; revert h; decide
  obtain ⟨r, hr, -⟩ | hs := writeReg_cases h4 s v
  · exact absurd h (by subst hr; cases r <;> decide)
  · exact hs

theorem readReg_setOperand (r r' : OperandReg) (v : Word) (s : State) :
    readReg (setOperand r v s) r'.offset = if r' = r then v else readReg s r'.offset := by
  cases r <;> cases r' <;> rfl

/-- What no write of an operand register touches. -/
theorem setOperand_keeps (r : OperandReg) (v : Word) (s : State) :
    (setOperand r v s).cmd = s.cmd ∧ (setOperand r v s).res0 = s.res0 ∧ (setOperand r v s).res1 = s.res1 ∧
      (setOperand r v s).ctx = s.ctx := by
  cases r <;> exact ⟨rfl, rfl, rfl, rfl⟩

/-- A host write that is no soft reset touches neither CMD, nor the results, nor the context. -/
theorem writeReg_keeps {off : Nat} {v : Word} (h : off = 0x04 → v.toNat % 2 ≠ 1) (s : State) :
    (writeReg s off v).cmd = s.cmd ∧ (writeReg s off v).res0 = s.res0 ∧ (writeReg s off v).res1 = s.res1 ∧
      (writeReg s off v).ctx = s.ctx := by
  by_cases h4 : off = 0x04
  · subst h4
    rw [writeReg_ctrl, writeCtrl_frame (h rfl)]
    exact ⟨rfl, rfl, rfl, rfl⟩
  · obtain ⟨r, -, hr⟩ | hs := writeReg_cases h4 s v
    · rw [hr]; exact setOperand_keeps r v s
    · rw [hs]; exact ⟨rfl, rfl, rfl, rfl⟩

/-- A host write that is no soft reset changes an operand register only to the value written there. -/
theorem readReg_writeReg_operand {off : Nat} {v : Word} (h : off = 0x04 → v.toNat % 2 ≠ 1) (r : OperandReg) (s : State) :
    readReg (writeReg s off v) r.offset = readReg s r.offset ∨
      (off = r.offset ∧ readReg (writeReg s off v) r.offset = v) := by
  by_cases h4 : off = 0x04
  · subst h4
    rw [writeReg_ctrl, writeCtrl_frame (h rfl)]
    exact .inl (by cases r <;> rfl)
  · obtain ⟨r', hoff, hr⟩ | hs := writeReg_cases h4 s v
    · rw [hr, readReg_setOperand]
      split
      · next heq => exact .inr ⟨by rw [hoff, heq], rfl⟩
      · exact .inl rfl
    · exact .inl (by rw [hs])

/-! ## Reads -/

theorem readReg_of_mem_registerMap {s : State} {off : Nat} {v : Word} (h : (off, v) ∈ registerMap s) :
    off < 0x40 ∧ off % 4 = 0 ∧ readReg s off = v := by
  have hall : ∀ p ∈ registerMap s, p.1 < 0x40 ∧ p.1 % 4 = 0 ∧ readReg s p.1 = p.2 := by
    simp [registerMap, readReg, Config.idValue]
  exact hall _ h

theorem readReg_reserved {off : Nat} (h : 0x40 ≤ off) (s : State) : readReg s off = 0 := by
  unfold readReg
  split <;> simp at h ⊢

/-! ## The state after a reset (70 R270) -/

theorem isReset_resetUnit (s : State) : isReset s (resetUnit s) := by
  simp [isReset, VitContext.reset]

/-- After a reset every register of the block reads 0, but ID (70 R270). -/
theorem registerMap_resetUnit (s : State) :
    ∀ p ∈ registerMap (resetUnit s), p.2 = if p.1 = 0 then 0x5A520007 else 0 := by
  have hstatus : statusWord (resetUnit s) = 0 := by
    rw [show statusWord (resetUnit s) = statusWord State.reset from rfl]
    decide
  simp [registerMap, hstatus, VitContext.reset]

/-! ## What a command keeps -/

/-- A command writes only RES0, RES1, STATUS, the context and memory (10_state R30, R31, R34). -/
theorem exec_frame {i : Instr} {s t : State} (h : exec i s = .next t) :
    t = { s with res0 := t.res0, res1 := t.res1, err := t.err, lastErr := t.lastErr, ctx := t.ctx, mem := t.mem } := by
  obtain ⟨c, -, rfl⟩ | ⟨outs, upd, hupd, -, -, rfl⟩ := exec_cases h
  · rfl
  · rw [hupd.frame]; rfl

/-- A command that fails, or that is no VSUM and no VIT.DECODE, keeps RES0 and RES1 (10_state R30). -/
theorem exec_results {i : Instr} {s t : State} (h : exec i s = .next t) :
    (t.res0 = s.res0 ∧ t.res1 = s.res1) ∨ (t.lastErr = .ok ∧ writesResults i = true) := by
  obtain ⟨c, -, rfl⟩ | ⟨outs, upd, hupd, -, -, rfl⟩ := exec_cases h
  · exact .inl ⟨rfl, rfl⟩
  · cases hw : writesResults i with
    | true => exact .inr ⟨rfl, rfl⟩
    | false => exact .inl (hupd.res hw _)

theorem writesResults_iff (i : Instr) : writesResults i = true ↔
    i = .vsumI16 ∨ i = .vsumI32 ∨ i = .vsumC16 ∨ i = .vsumC32 ∨ i = .vitDecode := by
  cases i <;> decide

/-- VIT.DECODE of an Uninitialized context is out of state, whatever LEN says (43_viterbi R215). -/
theorem exec_vitDecode_uninitialized {s : State} (h : s.ctx.vstate = .uninitialized) :
    exec .vitDecode s = .next (raise .vitState s) := by
  have hown : vitDecodeCheck s = some .vitState := if_pos (.inl h)
  rw [exec_vitDecode, execVitDecode, hown]
  split <;> exact runPhases_raise rfl

/-! ## What a step that is no reset keeps -/

theorem srst_clear_of_not_hostResets {s : State} {off : Nat} {v : Word} (hr : ¬hostResets s) (hw : nextWrites s off v)
    (h4 : off = 0x04) : v.toNat % 2 ≠ 1 :=
  fun hv => hr (.inr ⟨v, hv, h4 ▸ hw⟩)

section
variable {s t : State} (h : step s = .next t) (hr : ¬hostResets s)
include h hr

/-- An operand register holds its value until the host writes another. -/
theorem step_readReg_operand (r : OperandReg) :
    readReg t r.offset = readReg s r.offset ∨ nextWrites s r.offset (readReg t r.offset) := by
  cases stepCase_of_step h with
  | powerOn hp => exact absurd (.inl hp) hr
  | write hw _ =>
    obtain hkept | ⟨rfl, hv⟩ := readReg_writeReg_operand (srst_clear_of_not_hostResets hr hw) r (advance s)
    · exact .inl hkept
    · exact .inr (by rwa [hv])
  | command _ _ he => exact .inl (by rw [exec_frame he]; cases r <;> rfl)
  | idle | read | illegal | loadMem | storeMem => exact .inl (by cases r <;> rfl)

/-- CMD holds its value until the host writes another. -/
theorem step_cmd : t.cmd = s.cmd ∨ nextWrites s cmdOffset t.cmd := by
  cases stepCase_of_step h with
  | powerOn hp => exact absurd (.inl hp) hr
  | write hw _ => exact .inl (writeReg_keeps (srst_clear_of_not_hostResets hr hw) (advance s)).1
  | command hw _ he => exact .inr (by rwa [exec_frame he])
  | illegal hw _ => exact .inr hw
  | idle | read | loadMem | storeMem => exact .inl rfl

/-- A step that is no reset runs a legal command, or keeps RES0, RES1 and the context. -/
theorem step_command_or_keeps :
    (∃ c i, nextWrites s cmdOffset c ∧ decode c = .ok i ∧ exec i { advance s with cmd := c } = .next t) ∨
      (t.res0 = s.res0 ∧ t.res1 = s.res1 ∧ t.ctx = s.ctx) := by
  cases stepCase_of_step h with
  | powerOn hp => exact absurd (.inl hp) hr
  | write hw _ => exact .inr (writeReg_keeps (srst_clear_of_not_hostResets hr hw) (advance s)).2
  | command hw hd he => exact .inl ⟨_, _, hw, hd, he⟩
  | idle | read | illegal | loadMem | storeMem => exact .inr ⟨rfl, rfl, rfl⟩

end

/-! ## The statements -/

/-- Settles O34: `exec` writes none of the eight registers, and a step keeps each one that the host does not write. -/
theorem operandRegistersKept : Obligations.OperandRegistersKept := by
  refine ⟨fun i s t h => ?_, fun s t h hr => ?_⟩
  · rw [exec_frame h]
    exact ⟨rfl, rfl, rfl, rfl, rfl, rfl, rfl, rfl, rfl, rfl, rfl, rfl, rfl⟩
  · have hop := step_readReg_operand h hr
    exact ⟨(step_cmd h hr).resolve_left, (hop .srca).resolve_left, (hop .srcb).resolve_left, (hop .dst).resolve_left,
      (hop .dst2).resolve_left, (hop .len).resolve_left, (hop .shift).resolve_left, (hop .arg).resolve_left⟩

/-- Settles O35: only a command changes RES0 or RES1, and by `exec_results` a successful one that writes them. -/
theorem resultRegistersOnlyBySumAndDecode : Obligations.ResultRegistersOnlyBySumAndDecode := by
  intro s t h hr hne
  have hchanged : ¬(t.res0 = s.res0 ∧ t.res1 = s.res1) := not_and_or.2 hne
  obtain ⟨c, i, hw, hd, he⟩ | ⟨h0, h1, -⟩ := step_command_or_keeps h hr
  · obtain hkept | ⟨hok, hi⟩ := exec_results he
    · exact absurd hkept hchanged
    · exact ⟨hok, c, i, hw, hd, (writesResults_iff i).1 hi⟩
  · exact absurd ⟨h0, h1⟩ hchanged

/-- Settles O42: each access is the port's read or write at its offset. -/
theorem registerBlockAccesses : Obligations.RegisterBlockAccesses := by
  intro s v
  refine ⟨?_, step_of_nextWrites_operand .srca, step_of_nextWrites_operand .srcb, step_of_nextWrites_operand .dst,
    step_of_nextWrites_operand .dst2, step_of_nextWrites_operand .len, step_of_nextWrites_operand .shift,
    step_of_nextWrites_operand .arg, ?_⟩
  · rintro off (hmap | ⟨hlo, hhi, hal, rfl⟩) hn
    · obtain ⟨hlt, hal, rfl⟩ := readReg_of_mem_registerMap hmap
      exact step_of_nextReads (by omega) hal hn
    · rw [step_of_nextReads (by omega) hal hn, readReg_reserved hlo]
      rfl
  · have hoffs : ∀ off ∈ [0x00, 0x08, 0x2C, 0x30, 0x34, 0x38, 0x3C], off < 256 ∧ off % 4 = 0 ∧ off ≠ cmdOffset := by
      decide
    rintro off (hro | ⟨hlo, hhi, hal⟩) hn
    · obtain ⟨hlt, hal, hcmd⟩ := hoffs off hro
      rw [step_of_nextWrites hlt hal hcmd hn, writeReg_readOnly hro]
      rfl
    · have hcmd : off ≠ cmdOffset := by unfold cmdOffset; omega
      rw [step_of_nextWrites (by omega) hal hcmd hn, writeReg_reserved hlo]
      rfl

/-- Settles O43: the three cases of `writeCtrl`, and the read of the register at 0x04. -/
theorem ctrlWritesResetOrClear : Obligations.CtrlWritesResetOrClear := by
  intro s v
  refine ⟨fun hw h0 => ?_, fun hw h0 h1 => ?_, fun hw h0 h1 => ?_, fun hn => ?_⟩
  · refine ⟨resetUnit (advance s), ?_, isReset_resetUnit (advance s), rfl,
      fun off w hmem => registerMap_resetUnit (advance s) _ hmem, exec_vitDecode_uninitialized rfl⟩
    rw [step_of_nextWrites_ctrl hw, writeCtrl_srst h0]
  · rw [step_of_nextWrites_ctrl hw, writeCtrl_clrerr h0 h1]
    rfl
  · rw [step_of_nextWrites_ctrl hw, writeCtrl_neither h0 h1]
    rfl
  · exact step_of_nextReads (by decide) (by decide) hn

/-- Settles O46: the port finds no offset for such an access, so `perform` refuses it. -/
theorem undefinedAccessesRefused : Obligations.UndefinedAccessesRefused := by
  intro s off size v hoff hbad hn
  exact (blockOffset_undefined hoff hbad).imp (step_refused_of_blockOffset · hn) (step_refused_of_blockOffset · hn)

end Sys2Proof.Machine
end

