-- ==== Sys2Proof/Proofs/Encoding.lean ====
section
/-! PROOFS. The words that the decoder accepts (30_encoding R80 to R86). -/

namespace Sys2Proof

/-! ## The fields of a command word as numbers (30_encoding R80) -/

@[simp] theorem cmdOp_toNat (c : Word) : (cmdOp c).toNat = c.toNat % 2 ^ 8 := by
  rw [cmdOp, BitVec.extractLsb'_toNat, Nat.shiftRight_zero]

@[simp] theorem cmdType_toNat (c : Word) : (cmdType c).toNat = c.toNat / 2 ^ 8 % 8 := by
  rw [cmdType, BitVec.extractLsb'_toNat, Nat.shiftRight_eq_div_pow]

@[simp] theorem cmdRsv_toNat (c : Word) : (cmdRsv c).toNat = c.toNat / 2 ^ 11 := by
  rw [cmdRsv, BitVec.extractLsb'_toNat, Nat.shiftRight_eq_div_pow]
  exact Nat.mod_eq_of_lt (by have := c.isLt; omega)

theorem cmdRsv_eq_zero_iff (c : Word) : cmdRsv c = 0 ↔ c.toNat / 2 ^ 11 = 0 := by
  rw [← BitVec.toNat_inj, cmdRsv_toNat]
  rfl

/-! ## The checks of a command word (30_encoding R86) -/

theorem typeAssigned_iff (c : Word) : typeAssigned c = true ↔ c.toNat / 2 ^ 8 % 8 < 6 := by
  rw [typeAssigned, decide_eq_true_iff, cmdType_toNat]

theorem opAssigned_iff (c : Word) : opAssigned c = true ↔
    (0x01 ≤ c.toNat % 2 ^ 8 ∧ c.toNat % 2 ^ 8 ≤ 0x0B) ∨ (0x10 ≤ c.toNat % 2 ^ 8 ∧ c.toNat % 2 ^ 8 ≤ 0x17) ∨
      (0x20 ≤ c.toNat % 2 ^ 8 ∧ c.toNat % 2 ^ 8 ≤ 0x21) ∨ (0x30 ≤ c.toNat % 2 ^ 8 ∧ c.toNat % 2 ^ 8 ≤ 0x32) := by
  simp only [opAssigned, cmdOp_toNat, Bool.or_eq_true, Bool.and_eq_true, decide_eq_true_iff, or_assoc]

theorem typeListed_iff (c : Word) : typeListed c = true ↔ c.toNat / 2 ^ 8 % 8 ∈ typesOf (c.toNat % 2 ^ 8) := by
  rw [typeListed, List.contains_iff_mem, cmdOp_toNat, cmdType_toNat]

theorem wordWellFormed_iff (c : Word) : wordWellFormed c = true ↔
    c.toNat / 2 ^ 11 = 0 ∧ typeAssigned c = true ∧ opAssigned c = true ∧ typeListed c = true := by
  rw [wordWellFormed, Bool.and_eq_true, Bool.and_eq_true, Bool.and_eq_true, rsvClear, beq_iff_eq, cmdRsv_eq_zero_iff,
    and_assoc, and_assoc]

/-! ## The decoder accepts exactly the well-formed words -/

theorem wordWellFormed_encode (i : Instr) : wordWellFormed (encode i) = true := by
  cases i <;> decide

/-- A word with RSV 0 and the OP and TYPE of a row is the CMD word of the row's command (30_encoding R82). -/
theorem eq_encode_of_row {c : Word} (hrsv : cmdRsv c = 0) {r : OpRow} (hr : r ∈ opcodeMap) (hop : r.op = cmdOp c)
    (hty : r.ty = cmdType c) : c = encode r.instr := by
  obtain ⟨h0, h1, h2⟩ := opcodeMap_encode r hr
  exact word_ext_fields (hop.symm.trans h0.symm) (hty.symm.trans h1.symm) (hrsv.trans h2.symm)

theorem eq_encode_of_decode_eq_ok {c : Word} {i : Instr} (h : decode c = .ok i) : c = encode i := by
  obtain ⟨hrsv, r, hr, rfl, hop, hty⟩ := decode_ok_row h
  exact eq_encode_of_row hrsv hr hop hty

/-- The opcode map has a row for each TYPE that `typesOf` lists for an unreserved OP (30_encoding R82, R86). -/
theorem exists_row_of_typeListed {c : Word} (hop : opAssigned c = true) (hty : typeListed c = true) :
    ∃ r ∈ opcodeMap, r.op = cmdOp c ∧ r.ty = cmdType c := by
  have htable : ∀ op < 0x33,
      (0x01 ≤ op ∧ op ≤ 0x0B) ∨ (0x10 ≤ op ∧ op ≤ 0x17) ∨ (0x20 ≤ op ∧ op ≤ 0x21) ∨ (0x30 ≤ op ∧ op ≤ 0x32) →
        ∀ ty ∈ typesOf op, ∃ r ∈ opcodeMap, r.op.toNat = op ∧ r.ty.toNat = ty := by decide
  have hranges := (opAssigned_iff c).1 hop
  obtain ⟨r, hr, hrop, hrty⟩ := htable _ (by omega) hranges _ ((typeListed_iff c).1 hty)
  exact ⟨r, hr, BitVec.eq_of_toNat_eq (hrop.trans (cmdOp_toNat c).symm),
    BitVec.eq_of_toNat_eq (hrty.trans (cmdType_toNat c).symm)⟩

theorem exists_eq_encode_of_wordWellFormed {c : Word} (h : wordWellFormed c = true) : ∃ i, c = encode i := by
  obtain ⟨hrsv, -, hop, hty⟩ := (wordWellFormed_iff c).1 h
  obtain ⟨r, hr, hrop, hrty⟩ := exists_row_of_typeListed hop hty
  exact ⟨r.instr, eq_encode_of_row ((cmdRsv_eq_zero_iff c).2 hrsv) hr hrop hrty⟩

/-- The decoder, which reads the opcode map, rejects exactly the words that fail a check (30_encoding R85, R86). -/
theorem exists_decode_eq_error_iff (c : Word) : (∃ e, decode c = .error e) ↔ ¬wordWellFormed c = true := by
  constructor
  · rintro ⟨e, he⟩ hwf
    obtain ⟨i, rfl⟩ := exists_eq_encode_of_wordWellFormed hwf
    rw [decode_encode] at he
    cases he
  · intro hwf
    cases hd : decode c with
    | error e => exact ⟨e, rfl⟩
    | ok i => exact absurd (eq_encode_of_decode_eq_ok hd ▸ wordWellFormed_encode i) hwf

/-! ## The statement -/

/-- Settles O2: the decoder rejects the ill-formed words, and each check fails on its part of the reserved space. -/
theorem reservedWordsRejected : Obligations.ReservedWordsRejected := by
  intro c
  rw [exists_decode_eq_error_iff, wordWellFormed_iff, not_and_or, not_and_or, not_and_or, typeAssigned_iff,
    opAssigned_iff, typeListed_iff, Nat.not_lt]
  refine or_congr_right (or_congr_right (or_congr_left ?_))
  dsimp only
  omega

end Sys2Proof
end

section
/-! PROOFS. The vector arithmetic commands (40_vector_arith). -/

namespace Sys2Proof.Machine

/-! ## A command's rule, by the procedure it runs -/

section
variable {w : Word} {i : Instr} {n m : Nat} {α β : Type}

/-- A command's word is its own, and a failed check is reported by the shared phases (60_exceptions R242), so its rule
holds when its success does. -/
theorem ruleOf_of_success {own : State → Option ErrCode} {ins : State → List Buf} {outs : State → List OutBuf}
    {upd : State → State → State} {post : State → State → Prop} (hw : encode i = w)
    (hexec : ∀ s, exec i s = runPhases (own s) (ins s) (outs s) (upd s) s)
    (hsuccess : ∀ s, s.mem.wf = true → own s = none →
      (∀ b ∈ ins s ++ (outs s).map OutBuf.buf, bufOk s.platform b) → ∃ t, exec i s = .next t ∧ post s t) :
    ruleOf w i own ins (fun s => (outs s).map OutBuf.buf) post :=
  ⟨hw ▸ decode_encode i, fun s hwf => ⟨hsuccess s hwf, fun _ hc => (hexec s).trans (runPhases_raise hc)⟩⟩

/-- The same with the success written out: the state after the commit and the register updates. -/
theorem ruleOf_of_commit {ins : State → List Buf} {outs : State → List OutBuf} {upd : State → State → State}
    {post : State → State → Prop} (hw : encode i = w)
    (hexec : ∀ s, exec i s = runPhases none (ins s) (outs s) (upd s) s)
    (hpost : ∀ s, s.mem.wf = true → (∀ b ∈ ins s ++ (outs s).map OutBuf.buf, bufOk s.platform b) →
      post s (succeed (upd s { s with mem := commit s.mem (outs s) }))) :
    ruleOf w i noCheck ins (fun s => (outs s).map OutBuf.buf) post :=
  ruleOf_of_success (own := noCheck) hw hexec fun s hwf _ hok =>
    ⟨_, (hexec s).trans (runPhases_succeed ((firstError_eq_none _ _ _ _).2 ⟨rfl, hok⟩)), hpost s hwf hok⟩

/-- The rule of `ELEMWISE(Ti, To, 2, f)`: an element reads back in the range of its type. -/
theorem ruleOf_elemwise2 {Ti : ElemType α} {To : ElemType β} {norm : β → β} {f : α → α → Nat → β}
    {r : State → Nat → β} (hT : To.Lawful norm) (hexec : ∀ s, exec i s = elemwise2 Ti To f s)
    (hr : ∀ s j, norm (f (elemA Ti s j) (elemB Ti s j) s.shift.toNat) = r s j)
    (hw : encode i = w := by rfl) (hn : Ti.size = n := by rfl) (hm : To.size = m := by rfl) :
    ruleOf w i noCheck (inAB n) (outOfD m) (resultD To r) := by
  subst hn hm
  refine ruleOf_of_success hw hexec fun s hwf _ hok => ?_
  obtain ⟨t, ht, hframe, helem⟩ := elemwise2_completes hT f hwf hok
  exact ⟨t, (hexec s).trans ht, hframe, fun j hj => (helem j hj).trans (hr s j)⟩

/-- The rule of `ELEMWISE(Ti, To, 1, f)`. -/
theorem ruleOf_elemwise1 {Ti : ElemType α} {To : ElemType β} {norm : β → β} {f : α → Nat → β} {r : State → Nat → β}
    (hT : To.Lawful norm) (hexec : ∀ s, exec i s = elemwise1 Ti To f s)
    (hr : ∀ s j, norm (f (elemA Ti s j) s.shift.toNat) = r s j)
    (hw : encode i = w := by rfl) (hn : Ti.size = n := by rfl) (hm : To.size = m := by rfl) :
    ruleOf w i noCheck (inA n) (outOfD m) (resultD To r) := by
  subst hn hm
  refine ruleOf_of_success hw hexec fun s hwf _ hok => ?_
  obtain ⟨t, ht, hframe, helem⟩ := elemwise1_completes hT f hwf hok
  exact ⟨t, (hexec s).trans ht, hframe, fun j hj => (helem j hj).trans (hr s j)⟩

/-- The rule of a sum, its accumulator written over the indices. -/
theorem ruleOf_sumElems {T : ElemType α} {zero : α} {add : α → α → α} {res : α → Word × Word} {r0 r1 : State → Word}
    (hexec : ∀ s, exec i s = sumElems T zero add res s)
    (hr : ∀ s, res ((List.range s.len.toNat).foldl (fun acc j => add acc (elemA T s j)) zero) = (r0 s, r1 s))
    (hw : encode i = w := by rfl) (hn : T.size = n := by rfl) :
    ruleOf w i noCheck (inA n) (fun _ => [])
      (fun s t => t = { s with res0 := r0 s, res1 := r1 s, lastErr := .ok }) := by
  subst hn
  have hrun (s : State) :
      exec i s = runPhases none (inA T.size s) [] (fun t => { t with res0 := r0 s, res1 := r1 s }) s := by
    have hacc : res ((loadElems T s.mem s.srca.toNat s.opLen).foldl add zero) = (r0 s, r1 s) := by
      rw [loadElems, List.foldl_map]
      exact hr s
    simp only [hexec, sumElems, hacc]
    rfl
  exact ruleOf_of_commit (outs := fun _ => []) hw hrun fun _ _ _ => rfl

/-- The rule of a horizontal add. -/
theorem ruleOf_haddElems {T : ElemType α} {norm : α → α} {total : α → α → α → α → α} {r : State → α}
    (hT : T.Lawful norm) (hexec : ∀ s, exec i s = haddElems T total s)
    (hr : ∀ s, norm (total (elemA T s 0) (elemA T s 1) (elemA T s 2) (elemA T s 3)) = r s)
    (hw : encode i = w := by rfl) (hn : 4 * T.size = n := by rfl) :
    ruleOf w i noCheck (fun s => [s.bufA n]) (fun s => [s.bufD n])
      (fun s t => wroteOnly (s.bufD n) s t ∧ ∀ j < 4, loadElem T t.mem s.dst.toNat j = r s) := by
  subst hn
  refine ruleOf_of_success hw hexec fun s hwf _ hok => ?_
  obtain ⟨t, ht, hframe, helem⟩ := haddElems_completes hT total hwf hok
  exact ⟨t, (hexec s).trans ht, hframe, fun j hj => (helem j hj).trans (hr s)⟩

/-- The rule of a command that writes plain bytes at DST. -/
theorem ruleOf_bytesD {ins : State → List Buf} {size : State → Nat} {r : State → Nat → Byte}
    (hexec : ∀ s, exec i s = runPhases none (ins s) [⟨s.bufD (size s), (List.range (size s)).map (r s)⟩] id s)
    (hw : encode i = w := by rfl) :
    ruleOf w i noCheck ins (fun s => [s.bufD (size s)]) (resultBytes size r) := by
  refine ruleOf_of_success (own := noCheck) hw hexec fun s hwf _ hok => ?_
  rw [hexec]
  exact runPhases_bytesD hwf rfl hok

end

/-! ## Stored values -/

/-- A complex value is wrapped component by component. -/
theorem map_wrap_map {N : Nat} {f g : Int → Int} (h : ∀ v, wrap N (f v) = g v) (x : Cplx) :
    (x.map f).map (wrap N) = ⟨g x.re, g x.im⟩ := by
  simp only [Cplx.map, h]

theorem wrap_shiftWrap (N k : Nat) (v : Int) : wrap N (shiftWrap N k v) = wrap N (v / 2 ^ k) := by
  rw [shiftWrap, wrap_wrap, asr_eq_floor]

theorem wrap_shl (N k : Nat) (v : Int) : wrap N (shl N v k) = wrap N (v * 2 ^ k) := by
  rw [shl_eq_wrap, wrap_wrap]

theorem wrap_sat_eight (v : Int) : wrap 8 (sat 8 v) = min (max v (-128)) 127 := wrap_sat (by decide) v

/-- The quotient of a loaded element fits its type, so its store does not change it (40_vector_arith R131). -/
theorem wrap_asr_elemA {n : Nat} (hn : 1 ≤ n) (s : State) (j k : Nat) :
    wrap (8 * n) (asr (elemA (scalarType n) s j) k) = elemA (scalarType n) s j / 2 ^ k := by
  obtain ⟨hlo, hhi⟩ := scalarLoad_range hn s.mem (s.srca.toNat + j * n)
  exact (wrap_asr k hlo hhi).trans (asr_eq_floor _ k)

/-- So for each component of a complex element. -/
theorem map_wrap_asr_elemA {n : Nat} (hn : 1 ≤ n) (s : State) (j k : Nat) :
    ((elemA (complexType n) s j).map (asr · k)).map (wrap (8 * n)) =
      ⟨(elemA (complexType n) s j).re / 2 ^ k, (elemA (complexType n) s j).im / 2 ^ k⟩ := by
  obtain ⟨⟨hrelo, hrehi⟩, himlo, himhi⟩ := complexLoad_range hn s.mem (s.srca.toNat + j * (2 * n))
  exact congrArg₂ Cplx.mk ((wrap_asr k hrelo hrehi).trans (asr_eq_floor _ k))
    ((wrap_asr k himlo himhi).trans (asr_eq_floor _ k))

/-- A complex accumulator is the two accumulators of the components. -/
theorem foldl_add_map (g : Int → Int) (x : Nat → Cplx) (l : List Nat) (z : Cplx) :
    l.foldl (fun acc j => (acc.add (x j)).map g) z =
      ⟨l.foldl (fun acc j => g (acc + (x j).re)) z.re, l.foldl (fun acc j => g (acc + (x j).im)) z.im⟩ := by
  induction l generalizing z with
  | nil => rfl
  | cons j l ih => exact ih _

/-! ## Stored bytes -/

/-- Byte k of a stored value (00_scope R10). -/
theorem getElem_leBytes {n k : Nat} {v : Int} (hk : k < (leBytes n v).length) :
    (leBytes n v)[k] = BitVec.ofInt 8 (v / 2 ^ (8 * k)) := by
  simp only [leBytes, List.getElem_map, List.getElem_range, asr_eq_floor]

/-- A buffer that starts in the address space and passes its checks ends in it, an empty one too. -/
theorem end_le_of_bufOk {p : Platform} {b : Buf} (haddr : b.addr ≤ 2 ^ 32) (h : bufOk p b) :
    b.addr + b.size ≤ 2 ^ 32 := by
  obtain hempty | ⟨hrange, -⟩ := h
  · omega
  · exact hrange

/-- Byte k of element i of a stored sequence is byte k of the element. -/
theorem read_writeBytes_storeBytes {α : Type} {T : ElemType α} {norm : α → α} (hT : T.Lawful norm) {m : Memory}
    {a i k : Nat} {vs : List α} (hm : m.wf = true) (ha : a + vs.length * T.size ≤ 2 ^ 32) (hi : i < vs.length)
    (hk : k < T.size) :
    (m.writeBytes a (storeBytes T vs)).read (a + i * T.size + k) = (T.bytes vs[i])[k]'((hT.length _).symm ▸ hk) := by
  have hlen := storeBytes_length hT vs
  have hle : (i + 1) * T.size ≤ vs.length * T.size := Nat.mul_le_mul_right _ hi
  rw [Nat.add_mul] at hle
  rw [Nat.add_assoc, Memory.read_writeBytes_inside hm (by omega) (by omega),
    ← List.getElem_of_eq (storeBytes_slice hT vs i hi) (by simp; omega), List.getElem_take, List.getElem_drop]

/-! ## Two output buffers: DST, then DST2 (20_memory R58) -/

section
variable {α : Type} {T : ElemType α} {norm : α → α} {s : State} {x y : Nat → α} {L : Nat}

theorem outD_range_data_length (hT : T.Lawful norm) (s : State) (x : Nat → α) (L : Nat) :
    (s.outD T ((List.range L).map x) L).data.length = L * T.size := outD_data hT s (by simp)

theorem outD2_range_data_length (hT : T.Lawful norm) (s : State) (y : Nat → α) (L : Nat) :
    (s.outD2 T ((List.range L).map y) L).data.length = L * T.size := outD2_data hT s (by simp)

theorem read_commit_outD_outD2_outside (hT : T.Lawful norm) {a : Nat}
    (hD : a < s.dst.toNat ∨ s.dst.toNat + L * T.size ≤ a) (hD2 : a < s.dst2.toNat ∨ s.dst2.toNat + L * T.size ≤ a) :
    (commit s.mem [s.outD T ((List.range L).map x) L, s.outD2 T ((List.range L).map y) L]).read a = s.mem.read a := by
  refine commit_read_outside ?_ ?_ <;> rw [List.forall_mem_cons, List.forall_mem_singleton]
  · exact ⟨outD_range_data_length hT s x L, outD2_range_data_length hT s y L⟩
  · exact ⟨hD, hD2⟩

/-- DST2 holds its elements, whatever it overlaps. -/
theorem loadElem_commit_outD2 (hT : T.Lawful norm) (hm : s.mem.wf = true) (hD : s.dst.toNat + L * T.size ≤ 2 ^ 32)
    (hD2 : s.dst2.toNat + L * T.size ≤ 2 ^ 32) {j : Nat} (hj : j < L) :
    loadElem T (commit s.mem [s.outD T ((List.range L).map x) L, s.outD2 T ((List.range L).map y) L]) s.dst2.toNat j =
      norm (y j) := by
  have hwf : (s.mem.writeBytes s.dst.toNat (storeBytes T ((List.range L).map x))).wf = true :=
    Memory.writeBytes_wf (by rwa [← outD_range_data_length hT s x L] at hD) hm
  calc _ = norm (((List.range L).map y)[j]'(by simpa using hj)) :=
        loadElem_writeBytes hT (a := s.dst2.toNat) hwf (by simpa using hD2) (by simpa using hj)
    _ = norm (y j) := by simp

/-- DST holds the bytes of its elements wherever DST2 does not cover them. -/
theorem read_commit_outD_outD2_outD (hT : T.Lawful norm) (hm : s.mem.wf = true)
    (hD : s.dst.toNat + L * T.size ≤ 2 ^ 32) {j k : Nat} (hj : j < L) (hk : k < T.size)
    (hout : s.dst.toNat + j * T.size + k < s.dst2.toNat ∨ s.dst2.toNat + L * T.size ≤ s.dst.toNat + j * T.size + k) :
    (commit s.mem [s.outD T ((List.range L).map x) L, s.outD2 T ((List.range L).map y) L]).read
      (s.dst.toNat + j * T.size + k) = (T.bytes (x j))[k]'((hT.length _).symm ▸ hk) := by
  calc _ = (s.mem.writeBytes s.dst.toNat (storeBytes T ((List.range L).map x))).read (s.dst.toNat + j * T.size + k) :=
        Memory.read_writeBytes_outside (by rwa [outD2_range_data_length hT])
    _ = _ := read_writeBytes_storeBytes hT hm (by simpa using hD) (by simpa using hj) hk
    _ = _ := by simp only [List.getElem_map, List.getElem_range]

end

/-! ## The statements -/

/-- Settles O6: an element is a wrapped sum, which its store does not change. -/
theorem addWraps : Obligations.AddWraps :=
  ⟨ruleOf_elemwise2 int16_lawful exec_vaddI16 fun _ _ => wrap_wrap _ _,
   ruleOf_elemwise2 int32_lawful exec_vaddI32 fun _ _ => wrap_wrap _ _,
   ruleOf_elemwise2 complex16_lawful exec_vaddC16 fun _ _ => map_wrap_map (wrap_wrap 16) _,
   ruleOf_elemwise2 complex32_lawful exec_vaddC32 fun _ _ => map_wrap_map (wrap_wrap 32) _⟩

/-- Settles O7: an element is a wrapped difference. -/
theorem subWraps : Obligations.SubWraps :=
  ⟨ruleOf_elemwise2 int16_lawful exec_vsubI16 fun _ _ => wrap_wrap _ _,
   ruleOf_elemwise2 int32_lawful exec_vsubI32 fun _ _ => wrap_wrap _ _,
   ruleOf_elemwise2 complex16_lawful exec_vsubC16 fun _ _ => map_wrap_map (wrap_wrap 16) _,
   ruleOf_elemwise2 complex32_lawful exec_vsubC32 fun _ _ => map_wrap_map (wrap_wrap 32) _⟩

/-- Settles O8: the shift of the exact product is floor division, for every count. -/
theorem multiplyShiftsThenWraps : Obligations.MultiplyShiftsThenWraps :=
  ⟨ruleOf_elemwise2 complex16_lawful exec_vmulC16 fun _ _ => map_wrap_map (wrap_shiftWrap 16 _) _,
   ruleOf_elemwise2 complex32_lawful exec_vmulC32 fun _ _ => map_wrap_map (wrap_shiftWrap 32 _) _⟩

/-- Settles O9, as O8 with the conjugate product. -/
theorem conjugateMultiplyShiftsThenWraps : Obligations.ConjugateMultiplyShiftsThenWraps :=
  ⟨ruleOf_elemwise2 complex16_lawful exec_vcmulC16 fun _ _ => map_wrap_map (wrap_shiftWrap 16 _) _,
   ruleOf_elemwise2 complex32_lawful exec_vcmulC32 fun _ _ => map_wrap_map (wrap_shiftWrap 32 _) _⟩

/-- Settles O10, by the laws of the two writes: DST2's comes last. -/
theorem conjugateMultiplyWideSplits : Obligations.ConjugateMultiplyWideSplits := by
  refine ruleOf_of_commit (by rfl) exec_vcmulwC16 fun s hwf hok => ?_
  have hD : s.dst.toNat + s.len.toNat * int32.size ≤ 2 ^ 32 :=
    end_le_of_bufOk s.dst.isLt.le (hok (s.bufD (s.len.toNat * int32.size)) (by simp [State.outD, State.opLen]))
  have hD2 : s.dst2.toNat + s.len.toNat * int32.size ≤ 2 ^ 32 :=
    end_le_of_bufOk s.dst2.isLt.le (hok (s.bufD2 (s.len.toNat * int32.size)) (by simp [State.outD2, State.opLen]))
  refine ⟨rfl, fun a => read_commit_outD_outD2_outside int32_lawful, fun j hj => ?_, fun j hj k hk hout => ?_⟩
  · exact (loadElem_commit_outD2 int32_lawful hwf hD hD2 hj).trans (wrap_wrap _ _)
  · exact (read_commit_outD_outD2_outD int32_lawful hwf hD hj hk hout).trans (getElem_leBytes _)

/-- Settles O11: the statement's accumulator is the command's. -/
theorem sumScalar : Obligations.SumScalar :=
  ⟨ruleOf_sumElems exec_vsumI16 fun _ => rfl, ruleOf_sumElems exec_vsumI32 fun _ => rfl⟩

/-- Settles O12: the command's complex accumulator splits into the statement's two. -/
theorem sumComplex : Obligations.SumComplex :=
  ⟨ruleOf_sumElems exec_vsumC16 fun _ => congrArg complexResult (foldl_add_map _ _ _ _),
   ruleOf_sumElems exec_vsumC32 fun _ => congrArg complexResult (foldl_add_map _ _ _ _)⟩

/-- Settles O14: each lane holds the one wrapped total. -/
theorem haddBroadcasts : Obligations.HaddBroadcasts :=
  ⟨ruleOf_haddElems int32_lawful exec_vhaddI32 fun _ => wrap_wrap _ _,
   ruleOf_haddElems complex16_lawful exec_vhaddC16 fun _ => map_wrap_map (wrap_wrap 16) _⟩

/-- Settles O15: the shift is multiplication, wrapped, also by the counts it answers with 0 at once. -/
theorem shiftLeftWraps : Obligations.ShiftLeftWraps :=
  ⟨ruleOf_elemwise1 int16_lawful exec_vshlI16 fun _ _ => wrap_shl _ _ _,
   ruleOf_elemwise1 int32_lawful exec_vshlI32 fun _ _ => wrap_shl _ _ _,
   ruleOf_elemwise1 complex16_lawful exec_vshlC16 fun _ _ => map_wrap_map (wrap_shl 16 _) _,
   ruleOf_elemwise1 complex32_lawful exec_vshlC32 fun _ _ => map_wrap_map (wrap_shl 32 _) _⟩

/-- Settles O16: the quotient of a loaded component fits its type, so it is stored as it is. -/
theorem shiftRightFloors : Obligations.ShiftRightFloors :=
  ⟨ruleOf_elemwise1 int16_lawful exec_vshrI16 fun s j => wrap_asr_elemA (by decide) s j _,
   ruleOf_elemwise1 int32_lawful exec_vshrI32 fun s j => wrap_asr_elemA (by decide) s j _,
   ruleOf_elemwise1 complex16_lawful exec_vshrC16 fun s j => map_wrap_asr_elemA (by decide) s j _,
   ruleOf_elemwise1 complex32_lawful exec_vshrC32 fun s j => map_wrap_asr_elemA (by decide) s j _⟩

/-- Settles O17: a saturated component fits 8 bits. -/
theorem packSaturates : Obligations.PackSaturates :=
  ruleOf_elemwise1 complex8_lawful exec_vpackC16 fun _ _ => map_wrap_map wrap_sat_eight _

/-- Settles O18: the bytes written are those read. -/
theorem castCopiesBytes : Obligations.CastCopiesBytes := by
  refine ruleOf_bytesD fun s => ?_
  rw [exec_vcastC8, execVcastC8, Nat.mul_comm]
  rfl

end Sys2Proof.Machine
end

section
/-! PROOFS. The bitwise commands (41_bitwise). -/

namespace Sys2Proof.Machine

/-- The rule of a byte function over `n s` byte pairs; the last byte is written whole (41_bitwise R170). -/
theorem bytesOf_bytewise {w : Word} {i : Instr} {n : State → Nat} {g : Byte → Byte → Byte}
    (hexec : ∀ s, exec i s = bytewise (n s) g s) (hw : encode i = w := by rfl) : bytesOf w i n g :=
  ruleOf_bytesD hexec hw

/-- Settles O19: `BITWISE(g)` runs over ceil(LEN/8) byte pairs, whatever LEN is. -/
theorem bitwiseOverLength : Obligations.BitwiseOverLength :=
  ⟨bytesOf_bytewise exec_vand, bytesOf_bytewise exec_vor, bytesOf_bytewise exec_vxor, bytesOf_bytewise exec_vandn⟩

/-- Settles O20: `BYTE1(g)` runs over one byte pair and does not read LEN. -/
theorem bitwiseOverOneByte : Obligations.BitwiseOverOneByte :=
  ⟨bytesOf_bytewise exec_vand8, bytesOf_bytewise exec_vor8, bytesOf_bytewise exec_vxor8, bytesOf_bytewise exec_vandn8⟩

end Sys2Proof.Machine
end

section
/-! PROOFS. The transform dispatcher (42_fft). -/

namespace Sys2Proof.Machine

/-! ## The catalog (42_fft R190) -/

theorem inCatalog_iff (n : Nat) : inCatalog n = true ↔ n ∈ catalog := List.contains_iff_mem

/-- Settles O22: the spec's sizes are the model's, which lists the powers of two first, in another order. -/
theorem catalogSizes : Obligations.CatalogSizes :=
  ⟨fun n => (inCatalog_iff n).trans (List.Perm.mem_iff (by decide)), rfl, by decide⟩

/-! ## The engines' values and the elements of a buffer -/

/-- A complex16 value is already in the range of its type, so its store does not change it. -/
theorem map_wrap_toCplx (v : C16) : v.toCplx.map (wrap 16) = v.toCplx := by
  simp only [Cplx.map, C16.toCplx, wrap_eq_toInt, BitVec.ofInt_toInt]

theorem toCplx_injective : Function.Injective C16.toCplx := by
  intro v v' h
  obtain ⟨hre, him⟩ := Cplx.mk.inj h
  exact congrArg₂ C16.mk (BitVec.eq_of_toInt_eq hre) (BitVec.eq_of_toInt_eq him)

theorem sext_natCast (N k : Nat) : sext N k = (BitVec.ofNat N k).toInt := by
  rw [sext, wrap_eq_toInt, BitVec.ofInt_natCast]

/-- What the engines take is the element as 20_memory R53 reads it. -/
theorem loadC16_toCplx (m : Memory) (a i : Nat) : (loadC16 m a i).toCplx = loadElem complex16 m a i :=
  (congrArg₂ Cplx.mk (sext_natCast 16 _) (sext_natCast 16 _)).symm

/-- The snapshot of the input, as the engine of LEN takes it (42_fft R192). -/
def engineInput (s : State) : Fin s.len.toNat → C16 := fun k => loadC16 s.mem s.srca.toNat k.val

/-- The elements at SRCA determine the engine's input. -/
theorem eq_engineInput {s : State} {x : Fin s.len.toNat → C16} (hx : ∀ k, (x k).toCplx = elemA complex16 s k.val) :
    x = engineInput s :=
  funext fun k => toCplx_injective ((hx k).trans (loadC16_toCplx _ _ _).symm)

/-! ## The command -/

/-- A transform of a catalog size whose buffers pass writes the engine's image of the snapshot (42_fft R192, R195). -/
theorem transform_completes (dir : FftDir) {s : State} (hm : s.mem.wf = true) (hc : inCatalog s.len.toNat = true)
    (hok : ∀ b ∈ inA 4 s ++ outOfD 4 s, bufOk s.platform b) :
    ∃ t, transform dir s = .next t ∧ wroteOnly (s.bufD (s.len.toNat * 4)) s t ∧
      ∀ j : Fin s.len.toNat, loadElem complex16 t.mem s.dst.toNat j.val =
        (Config.fft dir s.len.toNat (engineInput s) j).toCplx := by
  obtain ⟨t, ht, hframe, helem⟩ := runPhases_outD complex16_lawful (L := s.len.toNat)
    (vs := (List.finRange s.len.toNat).map fun j => (Config.fft dir s.len.toNat (engineInput s) j).toCplx)
    (by simp) hm (if_pos hc) hok
  refine ⟨t, ht, hframe, fun j => ?_⟩
  simpa [map_wrap_toCplx] using helem j j.isLt

/-- Settles O23: either command is `transform` of its direction, and the input's elements fix what the engine takes. -/
theorem transformDispatch : Obligations.TransformDispatch := by
  intro i dir w hi
  obtain ⟨hw, hexec⟩ : encode i = w ∧ ∀ s, exec i s = transform dir s := by
    obtain ⟨rfl, rfl, rfl⟩ | ⟨rfl, rfl, rfl⟩ := hi
    · exact ⟨rfl, exec_fftC16⟩
    · exact ⟨rfl, exec_ifftC16⟩
  refine ruleOf_of_success hw hexec fun s hm hsize hok => ?_
  have hc : inCatalog s.len.toNat = true := by
    by_contra hn
    cases (if_neg hn).symm.trans hsize
  obtain ⟨t, ht, hframe, helem⟩ := transform_completes dir hm hc hok
  refine ⟨t, (hexec s).trans ht, hframe, fun x hx j => ?_⟩
  rw [eq_engineInput hx, helem j]

end Sys2Proof.Machine
end

section
/-! PROOFS. The Viterbi decoder (43_viterbi). -/

namespace Sys2Proof.Machine

/-! ## The rule of a command with own checks, and its success read back -/

section
variable {w : Word} {i : Instr} {own : State → Option ErrCode} {post : State → State → Prop}

/-- The rule of a command with own checks, its success written out as the state after the commit and the updates. -/
theorem ruleOf_of_checkedCommit {ins : State → List Buf} {outs : State → List OutBuf} {upd : State → State → State}
    (hw : encode i = w) (hexec : ∀ s, exec i s = runPhases (own s) (ins s) (outs s) (upd s) s)
    (hpost : ∀ s, s.mem.wf = true → own s = none → (∀ b ∈ ins s ++ (outs s).map OutBuf.buf, bufOk s.platform b) →
      post s (succeed (upd s { s with mem := commit s.mem (outs s) }))) :
    ruleOf w i own ins (fun s => (outs s).map OutBuf.buf) post :=
  ruleOf_of_success hw hexec fun s hwf hown hok =>
    ⟨_, (hexec s).trans (runPhases_succeed ((firstError_eq_none _ _ _ _).2 ⟨hown, hok⟩)), hpost s hwf hown hok⟩

/-- A command with a standard rule that succeeds passed its own checks and did what the rule says. -/
theorem post_of_runsStandard {ins outs : State → List Buf} (h : runsStandard i own ins outs post) {s t : State}
    (hown : own s ≠ some .ok) (hwf : s.mem.wf = true) (he : exec i s = .next t) (hok : t.lastErr = .ok) :
    own s = none ∧ post s t := by
  obtain ⟨hsucceed, hraise⟩ := h s hwf
  cases hf : firstError s.platform (own s) (ins s) (outs s) with
  | some c =>
    cases he.symm.trans (hraise c hf)
    subst hok
    exact absurd (firstError_code hf) (by simp [hown])
  | none =>
    obtain ⟨hpass, hbufs⟩ := (firstError_eq_none _ _ _ _).1 hf
    obtain ⟨t', he', hpost⟩ := hsucceed hpass hbufs
    cases he.symm.trans he'
    exact ⟨hpass, hpost⟩

end

/-! ## Packed bits (43_viterbi R217) -/

/-- A number given as the sum of its bits has those bits. -/
theorem sum_bits_eq_ofBits (b : Nat → Bool) (n : Nat) :
    ((List.range n).map fun i => if b i then 2 ^ i else 0).sum = Nat.ofBits fun i : Fin n => b i := by
  induction n generalizing b with
  | zero => rfl
  | succ n ih =>
    have hhead : (if b 0 then 2 ^ 0 else 0) = (b 0).toNat := by cases b 0 <;> rfl
    have htail : ((List.range n).map fun i => if b (i + 1) then 2 ^ (i + 1) else 0).sum =
        2 * ((List.range n).map fun i => if b (i + 1) then 2 ^ i else 0).sum := by
      rw [← List.sum_map_mul_left]
      refine congrArg List.sum (List.map_congr_left fun i _ => ?_)
      split <;> simp [pow_succ']
    rw [List.range_succ_eq_map, List.map_cons, List.sum_cons, List.map_map, Nat.ofBits_succ, add_comm]
    exact congrArg₂ _ (htail.trans (congrArg _ (ih fun i => b (i + 1)))) hhead

theorem getLsbD_pack8 (bits : List Bool) (t : Nat) {k : Nat} (hk : k < 8) :
    (pack8 bits t).getLsbD k = bits.getD (8 * t + k) false := by
  rw [pack8, sum_bits_eq_ofBits fun k => bits.getD (8 * t + k) false, BitVec.getLsbD_ofNat, Nat.testBit_ofBits_lt _ _ hk,
    decide_eq_true hk, Bool.true_and]

theorem packBits_length (bits : List Bool) : (packBits bits).length = (bits.length + 7) / 8 := by
  simp [packBits, byteCount]

/-- Packed bits stored at an address stand there. -/
theorem holdsBits_writeBytes {m : Memory} {a : Nat} (bits : List Bool) (hm : m.wf = true)
    (ha : a + (bits.length + 7) / 8 ≤ 2 ^ 32) : holdsBits (m.writeBytes a (packBits bits)) a bits := by
  intro i hi
  have hbyte : i / 8 < (packBits bits).length := by rw [packBits_length]; omega
  rw [Memory.read_writeBytes_inside hm (by rwa [packBits_length]) hbyte]
  simp only [packBits, List.getElem_map, List.getElem_range]
  rw [getLsbD_pack8 bits (i / 8) (Nat.mod_lt i (by decide)), Nat.div_add_mod]

/-! ## The inits (43_viterbi R212 to R214) -/

/-- The two inits, each with the trellis variant it selects. -/
def isInitOf (i : Instr) (v : VitVariant) : Prop :=
  (i = .vitInit ∧ v = .generic) ∨ (i = .vitInitsig ∧ v = .sig)

theorem exec_init {i : Instr} {v : VitVariant} (h : isInitOf i v) (s : State) : exec i s = vitInitFrame v s := by
  obtain ⟨rfl, rfl⟩ | ⟨rfl, rfl⟩ := h
  · exact exec_vitInit s
  · exact exec_vitInitsig s

theorem isSig_eq (v : VitVariant) : isSig v = decide (v = .sig) := by
  cases v <;> rfl

theorem acceptsRate_iff (p : Platform) (r : Word) : p.acceptsRate r = true ↔ r ≠ 0 ∧ r ∈ p.rates := by
  simp [Platform.acceptsRate]

theorem word_toNat_eq_zero_iff (v : Word) : v.toNat = 0 ↔ v = 0 := BitVec.toNat_inj (y := 0)

theorem opLen_eq_zero_iff (s : State) : s.opLen = 0 ↔ s.len = 0 := word_toNat_eq_zero_iff s.len

/-- The checks of an init in the words of 43_viterbi R212. -/
theorem vitInitCheck_eq (s : State) : vitInitCheck s =
    if s.arg = 0 ∨ s.arg ∉ s.platform.rates then some .vitRate else if s.len = 0 then some .vitFrame else none := by
  simp only [vitInitCheck, opLen_eq_zero_iff, Bool.not_eq_true', ← Bool.not_eq_true, acceptsRate_iff, not_and_or,
    not_not]

/-- Settles O27: an init has no buffers, and its update replaces the context. -/
theorem initStartsFrame : Obligations.InitStartsFrame := by
  intro i v w hi
  obtain ⟨hw, hstart⟩ : encode i = w ∧ isInitOf i v := by
    obtain ⟨rfl, rfl, rfl⟩ | ⟨rfl, rfl, rfl⟩ := hi
    · exact ⟨rfl, .inl ⟨rfl, rfl⟩⟩
    · exact ⟨rfl, .inr ⟨rfl, rfl⟩⟩
  refine ruleOf_of_checkedCommit (outs := fun _ => []) (upd := fun s t => { t with ctx := vitFrameStart v s }) hw
    (fun s => ?_) fun s _ _ _ => ?_
  · rw [exec_init hstart, vitInitFrame, vitInitCheck_eq]
  · rw [← isSig_eq]
    rfl

/-- The state with a frame started (43_viterbi R213, R214). -/
def frameStarted (v : VitVariant) (s : State) : State := { s with lastErr := .ok, ctx := vitFrameStart v s }

/-- The arguments that an init accepts (43_viterbi R212). -/
def initAccepts (s : State) : Prop := s.arg ∈ s.platform.rates ∧ s.arg ≠ 0 ∧ s.len ≠ 0

theorem vitInitCheck_cases (s : State) :
    (initAccepts s ∧ vitInitCheck s = none) ∨
      (¬initAccepts s ∧ (vitInitCheck s = some .vitRate ∨ vitInitCheck s = some .vitFrame)) := by
  rw [vitInitCheck_eq, initAccepts]
  split_ifs with hrate hlen
  · exact .inr ⟨fun ⟨hmem, h0, _⟩ => hrate.elim h0 (· hmem), .inl rfl⟩
  · exact .inr ⟨fun ⟨_, _, hl⟩ => hl hlen, .inr rfl⟩
  · obtain ⟨h0, hmem⟩ := not_or.1 hrate
    exact .inl ⟨⟨not_not.1 hmem, h0, hlen⟩, rfl⟩

/-- What an init can do: start a frame, or report the rate or the frame length. -/
theorem exec_init_cases {i : Instr} {v : VitVariant} (hi : isInitOf i v) {s t : State} (h : exec i s = .next t) :
    (initAccepts s ∧ t = frameStarted v s) ∨
      (¬initAccepts s ∧ (t = raise .vitRate s ∨ t = raise .vitFrame s)) := by
  rw [exec_init hi, vitInitFrame] at h
  obtain ⟨ha, hc⟩ | ⟨ha, hc | hc⟩ := vitInitCheck_cases s <;> rw [hc] at h <;> cases h
  · exact .inl ⟨ha, rfl⟩
  · exact .inr ⟨ha, .inl rfl⟩
  · exact .inr ⟨ha, .inr rfl⟩

/-! ## VIT.DECODE (43_viterbi R215 to R217, R225) -/

theorem vitSymbols_eq (s : State) : vitSymbols s = (List.range s.len.toNat).map fun j => (byteA s j).toInt := by
  refine List.map_congr_left fun j _ => ?_
  simp only [loadElem, int8, scalarType, sext_natCast]
  simp [Memory.memRead, Memory.readBytes, leValue, byteA]

theorem vitChunk_eq (s : State) : vitChunk s = chunkOf s := by
  rw [vitChunk, vitSymbols_eq]
  rfl

/-- The output of a chunk, none when it is empty. -/
def chunkOuts (s : State) : List OutBuf :=
  if s.len = 0 then [] else [⟨s.bufD (((chunkOf s).2.length + 7) / 8), packBits (chunkOf s).2⟩]

/-- The register updates of a chunk. -/
def chunkUpdate (s t : State) : State :=
  if s.len = 0 then { t with res0 := 0, res1 := 0 }
  else { t with ctx := vitContextAfter s, res0 := BitVec.ofNat 32 (chunkOf s).2.length, res1 := 0 }

theorem chunkUpdate_empty {s : State} (h0 : s.len = 0) :
    chunkUpdate s = fun t => { t with res0 := 0, res1 := 0 } :=
  funext fun _ => if_pos h0

theorem chunkUpdate_symbols {s : State} (h0 : s.len ≠ 0) : chunkUpdate s = fun t =>
    { t with ctx := vitContextAfter s, res0 := BitVec.ofNat 32 (chunkOf s).2.length, res1 := 0 } :=
  funext fun _ => if_neg h0

theorem chunkOuts_bufs (s : State) : (chunkOuts s).map OutBuf.buf =
    if s.len = 0 then [] else [s.bufD (((chunkOf s).2.length + 7) / 8)] := by
  unfold chunkOuts
  split <;> rfl

/-- An empty chunk is the case of no buffers. -/
theorem exec_vitDecode_eq_runPhases (s : State) : exec .vitDecode s =
    runPhases (vitDecodeCheck s) (if s.len = 0 then [] else [s.bufA s.len.toNat]) (chunkOuts s) (chunkUpdate s) s := by
  simp only [exec_vitDecode, execVitDecode, opLen_eq_zero_iff, vitChunk_eq, byteCount]
  by_cases h0 : s.len = 0
  · simp only [chunkOuts, chunkUpdate_empty h0, if_pos h0]
  · simp only [chunkOuts, chunkUpdate_symbols h0, if_neg h0]
    rfl

/-- The checks of VIT.DECODE by the two states it runs in. -/
theorem vitDecodeCheck_eq (s : State) : vitDecodeCheck s =
    if s.ctx.vstate ≠ .ready ∧ s.ctx.vstate ≠ .decoding then some .vitState
    else if s.ctx.consumed.toNat + s.len.toNat > s.ctx.frameLength.toNat then some .vitOverrun else none := by
  have hstate : s.ctx.vstate = .uninitialized ∨ s.ctx.vstate = .terminal ↔
      s.ctx.vstate ≠ .ready ∧ s.ctx.vstate ≠ .decoding := by
    cases s.ctx.vstate <;> decide
  simp only [vitDecodeCheck, hstate]
  rfl

theorem fits_of_vitDecodeCheck {s : State} (h : vitDecodeCheck s = none) :
    s.ctx.consumed.toNat + s.len.toNat ≤ s.ctx.frameLength.toNat := by
  rw [vitDecodeCheck_eq] at h
  split_ifs at h with hstate hover
  exact Nat.le_of_not_gt hover

/-- VIT-LEN (43_viterbi R219): a chunk inside its frame releases a number of bits that RES0 can hold. -/
theorem chunk_bits_lt {s : State} (h0 : s.len ≠ 0)
    (hfit : s.ctx.consumed.toNat + s.len.toNat ≤ s.ctx.frameLength.toNat) : (chunkOf s).2.length < 2 ^ 32 := by
  have hpos : s.len.toNat ≠ 0 := mt (word_toNat_eq_zero_iff s.len).1 h0
  refine Config.vitEngines.bitsFit _ _ _ _ _ _ ?_ ?_ <;> rw [List.length_map, List.length_range]
  · omega
  · exact hfit

/-- Symbols inside the frame are counted without wrap. -/
theorem consumed_add_toNat {s : State} (hfit : s.ctx.consumed.toNat + s.len.toNat ≤ s.ctx.frameLength.toNat) :
    (s.ctx.consumed + s.len).toNat = s.ctx.consumed.toNat + s.len.toNat := by
  have := s.ctx.frameLength.isLt
  exact BitVec.toNat_add_of_lt (by omega)

/-- The context after a chunk inside the frame, its end told by exact integers. -/
theorem vitContextAfter_eq {s : State} (hfit : s.ctx.consumed.toNat + s.len.toNat ≤ s.ctx.frameLength.toNat) :
    vitContextAfter s = { s.ctx with
      metrics := (chunkOf s).1
      consumed := s.ctx.consumed + s.len
      vstate := if s.ctx.consumed.toNat + s.len.toNat = s.ctx.frameLength.toNat then .terminal else .decoding } := by
  have hend : s.ctx.consumed + s.len = s.ctx.frameLength ↔
      s.ctx.consumed.toNat + s.len.toNat = s.ctx.frameLength.toNat := by
    rw [← BitVec.toNat_inj, consumed_add_toNat hfit]
  simp only [vitContextAfter, vitChunk_eq, hend]

/-- Settles O28: the success of VIT.DECODE is the commit of the packed bits and the register updates of its chunk. -/
theorem decodeAdvancesFrame : Obligations.DecodeAdvancesFrame := by
  unfold Obligations.DecodeAdvancesFrame
  simp only [← vitDecodeCheck_eq, ← chunkOuts_bufs]
  refine ruleOf_of_checkedCommit (by rfl) exec_vitDecode_eq_runPhases fun s hwf hown hok => ?_
  have hfit := fits_of_vitDecodeCheck hown
  rw [chunkOuts_bufs] at hok
  by_cases h0 : s.len = 0
  · refine ⟨fun _ => ?_, absurd h0⟩
    rw [chunkOuts, chunkUpdate_empty h0, if_pos h0]
    rfl
  · refine ⟨(absurd · h0), fun _ => ?_⟩
    rw [if_neg h0, if_neg h0] at hok
    rw [chunkOuts, chunkUpdate_symbols h0, if_neg h0, vitContextAfter_eq hfit]
    have hend : s.dst.toNat + ((chunkOf s).2.length + 7) / 8 ≤ 2 ^ 32 :=
      end_le_of_bufOk s.dst.isLt.le (hok (s.bufD (((chunkOf s).2.length + 7) / 8)) (by simp))
    have hres : (BitVec.ofNat 32 (chunkOf s).2.length).toNat = (chunkOf s).2.length :=
      (BitVec.toNat_ofNat _ _).trans (Nat.mod_eq_of_lt (chunk_bits_lt h0 hfit))
    refine ⟨rfl, hres, consumed_add_toNat hfit, fun a ha => ?_, holdsBits_writeBytes _ hwf hend⟩
    exact Memory.read_writeBytes_outside (by rwa [packBits_length])

/-- A decode whose own checks fail reports their code, before any buffer (60_exceptions R243). -/
theorem exec_vitDecode_raises {s : State} {c : ErrCode} (h : vitDecodeCheck s = some c) :
    exec .vitDecode s = .next (raise c s) := by
  rw [exec_vitDecode_eq_runPhases, h]
  exact runPhases_raise rfl

/-- What a successful decode leaves in the context, RES0 and memory. -/
theorem exec_vitDecode_ok {s t : State} (hwf : s.mem.wf = true) (he : exec .vitDecode s = .next t)
    (hok : t.lastErr = .ok) :
    vitDecodeCheck s = none ∧ (s.len = 0 → t.ctx = s.ctx) ∧
      (s.len ≠ 0 → t.ctx = vitContextAfter s ∧ t.res0.toNat = (chunkOf s).2.length ∧
        holdsBits t.mem s.dst.toNat (chunkOf s).2) := by
  have hrule := decodeAdvancesFrame.2
  simp only [← vitDecodeCheck_eq] at hrule
  obtain ⟨hown, hempty, hsymbols⟩ :=
    post_of_runsStandard hrule (fun h => (vitDecodeCheck_code h).2 rfl) hwf he hok
  refine ⟨hown, fun h0 => by rw [hempty h0], fun h0 => ?_⟩
  obtain ⟨ht, hres, -, -, hbits⟩ := hsymbols h0
  exact ⟨by rw [ht, vitContextAfter_eq (fits_of_vitDecodeCheck hown)], hres, hbits⟩

/-! ## The state machine (43_viterbi R211) -/

/-- In Ready and Decoding some of the frame is left. -/
theorem Inv.consumed_lt {s : State} (h : Inv s) (hv : s.ctx.vstate = .ready ∨ s.ctx.vstate = .decoding) :
    s.ctx.consumed.toNat < s.ctx.frameLength.toNat := by
  have hctx := h.ctx_ok
  unfold ctxOk at hctx
  obtain hv | hv := hv <;> simp only [hv] at hctx
  · obtain ⟨hzero, hframe, -⟩ := hctx
    rw [hzero]
    exact Nat.pos_of_ne_zero (mt (word_toNat_eq_zero_iff _).1 hframe)
  · exact hctx.2.1

/-- The column of the table that a successful decode takes. -/
theorem exec_vitDecode_vstate {s t : State} (hinv : Inv s) (hv : s.ctx.vstate = .ready ∨ s.ctx.vstate = .decoding)
    (he : exec .vitDecode s = .next t) (hok : t.lastErr = .ok) :
    t.ctx.vstate = if s.ctx.consumed.toNat + s.len.toNat = s.ctx.frameLength.toNat then .terminal
      else if s.ctx.vstate = .ready ∧ s.len = 0 then .ready else .decoding := by
  obtain ⟨hown, hempty, hsymbols⟩ := exec_vitDecode_ok hinv.mem_wf he hok
  by_cases h0 : s.len = 0
  · have hlt := hinv.consumed_lt hv
    have hlen : s.len.toNat = 0 := (word_toNat_eq_zero_iff s.len).2 h0
    rw [hempty h0, if_neg (by omega)]
    obtain hv | hv := hv <;> simp [hv, h0]
  · rw [(hsymbols h0).1, vitContextAfter_eq (fits_of_vitDecodeCheck hown), if_neg fun h : _ ∧ _ => h0 h.2]

/-- A command that fails, or is none of family VD, keeps the context (43_viterbi R210). -/
theorem exec_ctx {i : Instr} {s t : State} (h : exec i s = .next t) :
    t.ctx = s.ctx ∨ (t.lastErr = .ok ∧ isViterbi i = true) := by
  obtain ⟨c, -, rfl⟩ | ⟨outs, upd, hupd, -, -, rfl⟩ := exec_cases h
  · exact .inl rfl
  · cases hv : isViterbi i with
    | true => exact .inr ⟨rfl, rfl⟩
    | false => exact .inl (hupd.ctx hv _)

theorem step_of_hostResets {s : State} (h : hostResets s) : step s = .next (resetUnit (advance s)) := by
  obtain hp | ⟨v, hv, hw⟩ := h
  · exact step_of_nextInput hp
  · rw [step_of_nextWrites_ctrl hw, writeCtrl_srst hv]

/-- Settles O29: the table is read off what an init and a decode can do, and nothing else reaches the context. -/
theorem viterbiStateMachine : Obligations.ViterbiStateMachine := by
  intro s t hinv
  refine ⟨fun i hi he => ?_, fun he => ?_, fun i hi he => ?_, fun hr hs => ?_, fun hr hs hne => ?_⟩
  · obtain ⟨v, hv⟩ : ∃ v, isInitOf i v := hi.elim (⟨.generic, .inl ⟨·, rfl⟩⟩) (⟨.sig, .inr ⟨·, rfl⟩⟩)
    obtain ⟨ha, rfl⟩ | ⟨ha, rfl | rfl⟩ := exec_init_cases hv he
    · exact ⟨fun _ => rfl, absurd ha⟩
    · exact ⟨(absurd · ha), fun _ => ⟨rfl, .inl rfl⟩⟩
    · exact ⟨(absurd · ha), fun _ => ⟨rfl, .inr rfl⟩⟩
  · refine ⟨fun hv => ?_, fun hv => ⟨fun hover => ?_, fun hend hok => ?_, fun hpart hok => ?_⟩, fun hfail => ?_⟩
    · cases he.symm.trans (exec_vitDecode_raises (if_pos hv))
      rfl
    · have hown : vitDecodeCheck s = some .vitOverrun := by
        rw [vitDecodeCheck_eq, if_neg (by tauto), if_pos hover]
      cases he.symm.trans (exec_vitDecode_raises hown)
      rfl
    · rw [exec_vitDecode_vstate hinv hv he hok, if_pos hend]
    · rw [exec_vitDecode_vstate hinv hv he hok, if_neg hpart.ne]
    · exact (exec_ctx he).resolve_right fun h => hfail h.1
  · exact (exec_ctx he).resolve_right (by simp [hi])
  · cases hs.symm.trans (step_of_hostResets hr)
    rfl
  · obtain ⟨c, i, hw, hd, he⟩ | ⟨-, -, hkept⟩ := step_command_or_keeps hs hr
    · obtain hkept | ⟨-, hi⟩ := exec_ctx he
      · exact absurd (congrArg VitContext.vstate hkept) hne
      · exact ⟨c, i, hw, hd, hi⟩
    · exact absurd (congrArg VitContext.vstate hkept) hne

/-! ## The round trip (43_viterbi R221) -/

/-- At the start of a frame the chunk is the trellis' first, whatever context came before (43_viterbi R222). -/
theorem chunkOf_frameStarted (v : VitVariant) (s : State) : chunkOf (frameStarted v s) =
    Config.vitStep v s.arg s.len.toNat 0 (Config.vitInit v s.arg s.len.toNat)
      (((List.range s.len.toNat).map (byteA s)).map BitVec.toInt) := by
  rw [List.map_map]
  cases v <;> rfl

/-- A whole frame that encodes `b` releases `b`, by VIT-ROUNDTRIP-1. -/
theorem chunkOf_frameStarted_of_vitEnc {v : VitVariant} {s : State} {b : List Bool} (h0 : s.len ≠ 0)
    (hb : (List.range s.len.toNat).map (byteA s) = Config.vitEnc v s.arg b) : (chunkOf (frameStarted v s)).2 = b := by
  have hlen : (Config.vitEnc v s.arg b).length = s.len.toNat := by rw [← hb, List.length_map, List.length_range]
  have hpos : s.len.toNat ≠ 0 := mt (word_toNat_eq_zero_iff s.len).1 h0
  have hlt := s.len.isLt
  rw [← hlen] at hpos hlt
  rw [chunkOf_frameStarted, hb, ← hlen]
  exact Config.vitEngines.roundTrip v s.arg b (Nat.one_le_iff_ne_zero.2 hpos) hlt

/-- A chunk of the whole frame ends it. -/
theorem vitContextAfter_frameStarted (v : VitVariant) (s : State) :
    (vitContextAfter (frameStarted v s)).vstate = .terminal ∧
      (vitContextAfter (frameStarted v s)).consumed = s.len := by
  simp [vitContextAfter, frameStarted, vitFrameStart]

/-- Settles O30: the init gives the decode the context that VIT-ROUNDTRIP-1 speaks of. -/
theorem vitRoundTrip : Obligations.VitRoundTrip := by
  intro i v s t u hi hwf he hok hd hdok
  obtain ⟨⟨-, -, h0⟩, rfl⟩ | ⟨-, rfl | rfl⟩ := exec_init_cases hi he
  · obtain ⟨-, -, hsymbols⟩ := exec_vitDecode_ok (s := frameStarted v s) hwf hd hdok
    obtain ⟨hctx, hres, hbits⟩ := hsymbols h0
    obtain ⟨hend, hconsumed⟩ := vitContextAfter_frameStarted v s
    refine ⟨hctx ▸ hend, hctx ▸ hconsumed, fun b hb => ?_⟩
    rw [chunkOf_frameStarted_of_vitEnc h0 hb] at hres hbits
    exact ⟨hres, hbits⟩
  · cases hok
  · cases hok

end Sys2Proof.Machine
end

section
/-! PROOFS. Errors and their report (60_exceptions). -/

namespace Sys2Proof.Machine

/-- A command that succeeds keeps ERR: no commit and no register update touches it (60_exceptions R242). -/
theorem exec_raises_or_keeps_err {i : Instr} {s t : State} (h : exec i s = .next t) :
    (∃ code, code ≠ .ok ∧ t = raise code s) ∨ (t.lastErr = .ok ∧ t.err = s.err) := by
  obtain hraise | ⟨outs, upd, hupd, -, -, rfl⟩ := exec_cases h
  · exact .inl hraise
  · refine .inr ⟨rfl, ?_⟩
    rw [succeed_err, hupd.frame]

/-- A CMD write reports one code, of the decoder or of the command, or succeeds with ERR kept. -/
theorem writeCmd_raises_or_keeps_err {c : Word} {s t : State} (h : writeCmd c s = .next t) :
    (∃ code, code ≠ .ok ∧ t = raise code { s with cmd := c }) ∨ (t.lastErr = .ok ∧ t.err = s.err) := by
  cases hd : decode c with
  | ok i =>
    have he : exec i { s with cmd := c } = .next t := by simpa [writeCmd, hd] using h
    exact exec_raises_or_keeps_err he
  | error e =>
    have ht : raise .illegal { s with cmd := c } = t := by simpa [writeCmd, hd] using h
    exact .inl ⟨.illegal, by decide, ht.symm⟩

/-- Settles O33: a report is one `raise` after CMD is set, and only a success leaves LASTERR at OK. -/
theorem failingCommandOnlyReports : Obligations.FailingCommandOnlyReports := by
  intro s t c hw hstep
  rw [step_of_nextWrites_cmd hw] at hstep
  obtain ⟨code, hcode, rfl⟩ | ⟨hok, herr⟩ := writeCmd_raises_or_keeps_err hstep
  · exact ⟨fun _ => rfl, fun hok => absurd hok hcode⟩
  · exact ⟨absurd hok, fun _ => herr⟩

end Sys2Proof.Machine
end

section
/-! PROOFS. The decoder and the encoder (30_encoding R82, R85). -/

namespace Sys2Proof

theorem decode_eq_ok_iff (c : Word) (i : Instr) : decode c = .ok i ↔ c = encode i :=
  ⟨eq_encode_of_decode_eq_ok, fun h => h ▸ decode_encode i⟩

/-- Settles O1: a decoded word is a row of the opcode map, and each command's word decodes to it. -/
theorem decodeEncodeAgree : Obligations.DecodeEncodeAgree := decode_eq_ok_iff

/-- Settles O3, by evaluating the decoder on the ten words. -/
theorem tableWordsDecode : Obligations.TableWordsDecode := by
  unfold Obligations.TableWordsDecode
  decide

end Sys2Proof

namespace Sys2Proof.Machine

theorem step_of_nextWrites_cmd_ok {s : State} {c : Word} {i : Instr} (h : nextWrites s cmdOffset c)
    (hd : decode c = .ok i) : step s = exec i { advance s with cmd := c } := by
  simp only [step_of_nextWrites_cmd h, writeCmd, hd]

theorem step_of_nextWrites_cmd_error {s : State} {c : Word} {e : DecodeError} (h : nextWrites s cmdOffset c)
    (hd : decode c = .error e) : step s = .next (raise .illegal { advance s with cmd := c }) := by
  simp only [step_of_nextWrites_cmd h, writeCmd, hd]

/-- Settles O4: the CMD write of a legal word. -/
theorem stepRunsDecodedCommand : Obligations.StepRunsDecodedCommand := fun _ _ _ => step_of_nextWrites_cmd_ok

/-- Settles O5: the decoder rejects a word that is no command's, and its step is one `raise`. -/
theorem illegalWordRaises : Obligations.IllegalWordRaises := by
  intro s c hw hne
  cases hd : decode c with
  | ok i => exact absurd ((decode_eq_ok_iff c i).1 hd) (hne i)
  | error e => exact step_of_nextWrites_cmd_error hw hd

end Sys2Proof.Machine
end

section
/-! PROOFS. The invariant of the machine (10_state R24, R36; 20_memory R50; 43_viterbi R211). -/

namespace Sys2Proof.Machine

/-- The invariant speaks of five fields only. -/
theorem Inv.congr {s t : State} (h : Inv s) (hmem : t.mem = s.mem) (hplatform : t.platform = s.platform)
    (hctx : t.ctx = s.ctx) (hlast : t.lastErr = s.lastErr) (herr : t.err = s.err) : Inv t :=
  ⟨hmem ▸ h.mem_wf, hplatform ▸ hctx ▸ h.ctx_ok, hlast ▸ herr ▸ h.err_sticky⟩

theorem ctxOk_reset (p : Platform) (m : Metrics) : ctxOk p (VitContext.reset m) := ⟨rfl, rfl, rfl, rfl⟩

/-- Settles O40: memory is empty, the context Uninitialized, no code reported. -/
theorem resetMeetsInvariant : Obligations.ResetMeetsInvariant :=
  ⟨rfl, ctxOk_reset _ _, fun h => absurd rfl h⟩

theorem inv_resetUnit {s : State} (h : Inv s) : Inv (resetUnit s) :=
  ⟨h.mem_wf, ctxOk_reset _ _, fun hne => absurd rfl hne⟩

theorem inv_raise {s : State} (h : Inv s) (c : ErrCode) : Inv (raise c s) := ⟨h.mem_wf, h.ctx_ok, fun _ => rfl⟩

theorem inv_setOperand {s : State} (h : Inv s) (r : OperandReg) (v : Word) : Inv (setOperand r v s) := by
  cases r <;> exact h.congr rfl rfl rfl rfl rfl

theorem inv_writeCtrl {s : State} (h : Inv s) (v : Word) : Inv (writeCtrl v s) := by
  rw [writeCtrl_eq]
  split_ifs
  · exact inv_resetUnit h
  · exact ⟨h.mem_wf, h.ctx_ok, fun hne => absurd rfl hne⟩
  · exact h

theorem inv_writeReg {s : State} (h : Inv s) (off : Nat) (v : Word) : Inv (writeReg s off v) := by
  by_cases h4 : off = 0x04
  · subst h4
    exact inv_writeCtrl h v
  · obtain ⟨r, -, hr⟩ | hs := writeReg_cases h4 s v
    · rw [hr]; exact inv_setOperand h r v
    · rwa [hs]

/-- A command keeps memory canonical: its outputs are as long as their buffers, which passed the range check. -/
theorem exec_mem_wf {i : Instr} {s t : State} (h : exec i s = .next t) (hwf : s.mem.wf = true) : t.mem.wf = true := by
  obtain ⟨c, -, rfl⟩ | ⟨outs, upd, hupd, hdata, hok, rfl⟩ := exec_cases h
  · exact hwf
  · rw [succeed_mem, hupd.frame]
    exact commit_wf hdata (fun o ho => (hok o ho).imp_right And.left) hwf

theorem ctxOk_vitFrameStart {s : State} (v : VitVariant) (h : initAccepts s) : ctxOk s.platform (vitFrameStart v s) := by
  obtain ⟨hmem, h0, hlen⟩ := h
  exact ⟨rfl, hlen, (acceptsRate_iff _ _).2 ⟨h0, hmem⟩⟩

/-- In Ready and Decoding the frame has a length and its rate was accepted. -/
theorem Inv.acceptsRate {s : State} (h : Inv s) (hv : s.ctx.vstate = .ready ∨ s.ctx.vstate = .decoding) :
    s.platform.acceptsRate s.ctx.rate = true := by
  have hctx := h.ctx_ok
  unfold ctxOk at hctx
  obtain hv | hv := hv <;> simp only [hv] at hctx <;> exact hctx.2.2

theorem vstate_of_vitDecodeCheck {s : State} (h : vitDecodeCheck s = none) :
    s.ctx.vstate = .ready ∨ s.ctx.vstate = .decoding := by
  rw [vitDecodeCheck_eq] at h
  split_ifs at h with hstate
  tauto

/-- A chunk of some symbols that fits its frame leaves a context as VSTATE says. -/
theorem Inv.ctxOk_vitContextAfter {s : State} (h : Inv s) (hown : vitDecodeCheck s = none) (h0 : s.len ≠ 0) :
    ctxOk s.platform (vitContextAfter s) := by
  have hv := vstate_of_vitDecodeCheck hown
  have hfit := fits_of_vitDecodeCheck hown
  have hconsumed := consumed_add_toNat hfit
  have hrate := h.acceptsRate hv
  have hleft := h.consumed_lt hv
  have hpos : s.len.toNat ≠ 0 := mt (word_toNat_eq_zero_iff s.len).1 h0
  rw [vitContextAfter_eq hfit]
  by_cases hend : s.ctx.consumed.toNat + s.len.toNat = s.ctx.frameLength.toNat
  · rw [if_pos hend]
    have hframe : s.ctx.frameLength ≠ 0 := mt (word_toNat_eq_zero_iff _).2 (by omega)
    exact ⟨BitVec.eq_of_toNat_eq (hconsumed.trans hend), hframe, hrate⟩
  · rw [if_neg hend]
    exact ⟨by simp only; omega, by simp only; omega, hrate⟩

/-- Each command leaves the context as VSTATE says: only a success of family VD writes it. -/
theorem Inv.exec_ctxOk {i : Instr} {s t : State} (h : Inv s) (he : exec i s = .next t) : ctxOk s.platform t.ctx := by
  obtain hkept | ⟨hok, hvit⟩ := exec_ctx he
  · exact hkept ▸ h.ctx_ok
  · have hinit {v : VitVariant} (hi : isInitOf i v) : ctxOk s.platform t.ctx := by
      obtain ⟨ha, rfl⟩ | ⟨-, rfl | rfl⟩ := exec_init_cases hi he
      · exact ctxOk_vitFrameStart v ha
      · exact h.ctx_ok
      · exact h.ctx_ok
    cases i with
    | vitInit => exact hinit (.inl ⟨rfl, rfl⟩)
    | vitInitsig => exact hinit (.inr ⟨rfl, rfl⟩)
    | vitDecode =>
      obtain ⟨hown, hempty, hsymbols⟩ := exec_vitDecode_ok h.mem_wf he hok
      by_cases h0 : s.len = 0
      · exact hempty h0 ▸ h.ctx_ok
      · exact (hsymbols h0).1 ▸ h.ctxOk_vitContextAfter hown h0
    | _ => cases hvit

theorem inv_of_exec {i : Instr} {s t : State} (h : Inv s) (he : exec i s = .next t) : Inv t := by
  have hplatform : t.platform = s.platform := by rw [exec_frame he]
  refine ⟨exec_mem_wf he h.mem_wf, hplatform ▸ h.exec_ctxOk he, ?_⟩
  obtain ⟨c, -, rfl⟩ | ⟨hok, -⟩ := exec_raises_or_keeps_err he
  · exact fun _ => rfl
  · exact absurd hok

/-- Settles O41: each input keeps the invariant; a command by `inv_of_exec`. -/
theorem stepKeepsInvariant : Obligations.StepKeepsInvariant := by
  intro s t h hstep
  have hadvance : Inv (advance s) := h.congr rfl rfl rfl rfl rfl
  have hcmd (c : Word) : Inv { advance s with cmd := c } := h.congr rfl rfl rfl rfl rfl
  cases stepCase_of_step hstep with
  | idle => exact h
  | read | loadMem => exact h.congr rfl rfl rfl rfl rfl
  | write _ _ => exact inv_writeReg hadvance _ _
  | illegal => exact inv_raise (hcmd _) _
  | command _ _ he => exact inv_of_exec (hcmd _) he
  | @storeMem a b => exact ⟨Memory.write_wf b a.isLt h.mem_wf, h.ctx_ok, h.err_sticky⟩
  | powerOn => exact inv_resetUnit hadvance

end Sys2Proof.Machine
end

section
/-! PROOFS. What a command reads, and what it therefore ignores (30_encoding R83; 43_viterbi R224; 60_exceptions R246). -/

namespace Sys2Proof.Machine

/-! ## A command as data: its checks, its buffers and its updates -/

/-- What a command has computed from the snapshot before its commit (00_scope R12). -/
structure Phases where
  own : Option ErrCode
  ins : List Buf
  outs : List OutBuf
  /-- The Viterbi context it leaves, `none` to keep it. -/
  ctx : Option VitContext
  /-- RES0 and RES1, `none` to keep them. -/
  res : Option (Word × Word)

/-- The registers that the commit phase writes. -/
def Phases.update (P : Phases) (t : State) : State :=
  { t with
    ctx := P.ctx.getD t.ctx
    res0 := (P.res.map Prod.fst).getD t.res0
    res1 := (P.res.map Prod.snd).getD t.res1 }

def Phases.run (P : Phases) (s : State) : Result := runPhases P.own P.ins P.outs P.update s

/-- The state that a success leaves. -/
def Phases.done (P : Phases) (s : State) : State := succeed (P.update { s with mem := commit s.mem P.outs })

/-- On two states of one platform the same phases report the same code, or both succeed. -/
theorem Phases.run_cases (P : Phases) (hown : P.own ≠ some .ok) {s s' : State} (hp : s'.platform = s.platform) :
    (∃ c, c ≠ .ok ∧ P.run s = .next (raise c s) ∧ P.run s' = .next (raise c s')) ∨
      (P.run s = .next (P.done s) ∧ P.run s' = .next (P.done s')) := by
  cases hf : firstError s.platform P.own P.ins (P.outs.map OutBuf.buf) with
  | some c =>
    have hc : c ≠ .ok := by
      rintro rfl
      simpa [hown] using firstError_code hf
    exact .inl ⟨c, hc, runPhases_raise hf, runPhases_raise (hp ▸ hf)⟩
  | none => exact .inr ⟨runPhases_succeed hf, runPhases_succeed (hp ▸ hf)⟩

/-! ## States in which a command reads the same -/

/-- The states agree on what command `i` reads: memory, the platform, the registers listed for it, and the context if it
is VIT.DECODE. -/
structure SameReads (i : Instr) (s s' : State) : Prop where
  mem : s'.mem = s.mem
  platform : s'.platform = s.platform
  regs : ∀ r ∈ registersRead i, readReg s' r.offset = readReg s r.offset
  ctx : i = .vitDecode → s'.ctx = s.ctx

/-- One list of phases is what command `i` runs through from either state; OK is no code that its checks report. -/
def SamePhases (i : Instr) (s s' : State) : Prop :=
  ∃ P : Phases, exec i s = P.run s ∧ exec i s' = P.run s' ∧ P.own ≠ some .ok

section
variable {i : Instr} {s s' : State} {α β : Type}

theorem SameReads.srca (h : SameReads i s s') (hr : .srca ∈ registersRead i := by decide) : s'.srca = s.srca :=
  h.regs .srca hr

theorem SameReads.srcb (h : SameReads i s s') (hr : .srcb ∈ registersRead i := by decide) : s'.srcb = s.srcb :=
  h.regs .srcb hr

theorem SameReads.dst (h : SameReads i s s') (hr : .dst ∈ registersRead i := by decide) : s'.dst = s.dst :=
  h.regs .dst hr

theorem SameReads.dst2 (h : SameReads i s s') (hr : .dst2 ∈ registersRead i := by decide) : s'.dst2 = s.dst2 :=
  h.regs .dst2 hr

theorem SameReads.len (h : SameReads i s s') (hr : .len ∈ registersRead i := by decide) : s'.len = s.len :=
  h.regs .len hr

theorem SameReads.opShift (h : SameReads i s s') (hr : .shift ∈ registersRead i := by decide) : s'.opShift = s.opShift :=
  congrArg BitVec.toNat (h.regs .shift hr)

theorem SameReads.arg (h : SameReads i s s') (hr : .arg ∈ registersRead i := by decide) : s'.arg = s.arg :=
  h.regs .arg hr

/-- A command that writes no register and has no own checks is its buffers. -/
theorem samePhases_of_buffers {ins : State → List Buf} {outs : State → List OutBuf}
    (hexec : ∀ s, exec i s = runPhases none (ins s) (outs s) id s) (hins : ins s' = ins s) (houts : outs s' = outs s) :
    SamePhases i s s' :=
  ⟨⟨none, ins s, outs s, none, none⟩, hexec s, by rw [hexec, hins, houts]; rfl, nofun⟩

/-- `ELEMWISE(Ti, To, 2, f)`, with what SHIFT says to `f` given. -/
theorem samePhases_elemwise2 {Ti : ElemType α} {To : ElemType β} {f : α → α → Nat → β}
    (hexec : ∀ s, exec i s = elemwise2 Ti To f s) (h : SameReads i s s')
    (hf : ∀ a b, f a b s'.opShift = f a b s.opShift)
    (ha : .srca ∈ registersRead i := by decide) (hb : .srcb ∈ registersRead i := by decide)
    (hd : .dst ∈ registersRead i := by decide) (hl : .len ∈ registersRead i := by decide) : SamePhases i s s' :=
  samePhases_of_buffers hexec (by simp only [State.opLen, State.bufA, State.bufB, h.srca ha, h.srcb hb, h.len hl])
    (by simp only [State.opLen, State.outD, State.bufD, h.srca ha, h.srcb hb, h.dst hd, h.len hl, h.mem, hf])

/-- `ELEMWISE(Ti, To, 1, f)`, with what SHIFT says to `f` given. -/
theorem samePhases_elemwise1 {Ti : ElemType α} {To : ElemType β} {f : α → Nat → β}
    (hexec : ∀ s, exec i s = elemwise1 Ti To f s) (h : SameReads i s s') (hf : ∀ a, f a s'.opShift = f a s.opShift)
    (ha : .srca ∈ registersRead i := by decide) (hd : .dst ∈ registersRead i := by decide)
    (hl : .len ∈ registersRead i := by decide) : SamePhases i s s' :=
  samePhases_of_buffers hexec (by simp only [State.opLen, State.bufA, h.srca ha, h.len hl])
    (by simp only [State.opLen, State.outD, State.bufD, h.srca ha, h.dst hd, h.len hl, h.mem, hf])

theorem samePhases_sumElems {T : ElemType α} {zero : α} {add : α → α → α} {res : α → Word × Word}
    (hexec : ∀ s, exec i s = sumElems T zero add res s) (h : SameReads i s s')
    (ha : .srca ∈ registersRead i := by decide) (hl : .len ∈ registersRead i := by decide) : SamePhases i s s' := by
  refine ⟨⟨none, _, [], none, some _⟩, hexec s, (hexec s').trans ?_, nofun⟩
  simp only [sumElems, State.opLen, State.bufA, h.srca ha, h.len hl, h.mem]
  rfl

theorem samePhases_haddElems {T : ElemType α} {total : α → α → α → α → α}
    (hexec : ∀ s, exec i s = haddElems T total s) (h : SameReads i s s')
    (ha : .srca ∈ registersRead i := by decide) (hd : .dst ∈ registersRead i := by decide) : SamePhases i s s' :=
  samePhases_of_buffers hexec (by simp only [State.bufA, h.srca ha])
    (by simp only [State.outD, State.bufD, h.srca ha, h.dst hd, h.mem])

/-- A byte function over as many byte pairs from either state. -/
theorem samePhases_bytewise {n : State → Nat} {g : Byte → Byte → Byte} (hexec : ∀ s, exec i s = bytewise (n s) g s)
    (h : SameReads i s s') (hn : n s' = n s) (ha : .srca ∈ registersRead i := by decide)
    (hb : .srcb ∈ registersRead i := by decide) (hd : .dst ∈ registersRead i := by decide) : SamePhases i s s' :=
  samePhases_of_buffers hexec (by simp only [State.bufA, State.bufB, h.srca ha, h.srcb hb, hn])
    (by simp only [State.bufD, h.srca ha, h.srcb hb, h.dst hd, h.mem, hn])

/-- `BITWISE(g)` reads LEN. -/
theorem samePhases_bitwiseLen {g : Byte → Byte → Byte} (hexec : ∀ s, exec i s = bitwiseLen g s) (h : SameReads i s s')
    (ha : .srca ∈ registersRead i := by decide) (hb : .srcb ∈ registersRead i := by decide)
    (hd : .dst ∈ registersRead i := by decide) (hl : .len ∈ registersRead i := by decide) : SamePhases i s s' :=
  samePhases_bytewise hexec h (congrArg (byteCount ·.toNat) (h.len hl)) ha hb hd

/-- The phases of a transform, by what it reads. -/
def transformPhases (dir : FftDir) (m : Memory) (srca dst len : Word) : Phases where
  own := if inCatalog len.toNat then none else some .fftSize
  ins := [⟨srca.toNat, len.toNat * complex16.size⟩]
  outs := [⟨⟨dst.toNat, len.toNat * complex16.size⟩, storeBytes complex16 ((List.finRange len.toNat).map fun j =>
    (Config.fft dir len.toNat (fun k => loadC16 m srca.toNat k.val) j).toCplx)⟩]
  ctx := none
  res := none

theorem transform_eq_run (dir : FftDir) (s : State) :
    transform dir s = (transformPhases dir s.mem s.srca s.dst s.len).run s := rfl

theorem samePhases_transform {dir : FftDir} (hexec : ∀ s, exec i s = transform dir s) (h : SameReads i s s')
    (ha : .srca ∈ registersRead i := by decide) (hd : .dst ∈ registersRead i := by decide)
    (hl : .len ∈ registersRead i := by decide) : SamePhases i s s' := by
  refine ⟨transformPhases dir s.mem s.srca s.dst s.len, hexec s, ?_, ?_⟩
  · rw [hexec, transform_eq_run, h.mem, h.srca ha, h.dst hd, h.len hl]
  · unfold transformPhases
    split <;> exact nofun

theorem samePhases_vitInitFrame {v : VitVariant} (hi : isInitOf i v) (h : SameReads i s s')
    (hl : .len ∈ registersRead i := by decide) (hr : .arg ∈ registersRead i := by decide) : SamePhases i s s' := by
  have hcheck : vitInitCheck s' = vitInitCheck s := by
    unfold vitInitCheck State.opLen
    rw [h.platform, h.len hl, h.arg hr]
  have hstart : vitFrameStart v s' = vitFrameStart v s := by
    simp only [vitFrameStart, State.opLen, h.len hl, h.arg hr]
  refine ⟨⟨vitInitCheck s, [], [], some (vitFrameStart v s), none⟩, exec_init hi s, ?_, ?_⟩
  · rw [exec_init hi, vitInitFrame, hcheck, hstart]
    rfl
  · obtain ⟨-, hc⟩ | ⟨-, hc | hc⟩ := vitInitCheck_cases s <;> simp [hc]

/-- The phases of VIT.DECODE. -/
def decodePhases (s : State) : Phases where
  own := vitDecodeCheck s
  ins := if s.len = 0 then [] else [s.bufA s.len.toNat]
  outs := chunkOuts s
  ctx := if s.len = 0 then none else some (vitContextAfter s)
  res := some (if s.len = 0 then 0 else BitVec.ofNat 32 (chunkOf s).2.length, 0)

theorem exec_vitDecode_eq_run (s : State) : exec .vitDecode s = (decodePhases s).run s := by
  have hupdate : chunkUpdate s = (decodePhases s).update := by
    funext t
    unfold chunkUpdate Phases.update decodePhases
    split <;> rfl
  rw [exec_vitDecode_eq_runPhases, hupdate]
  rfl

theorem samePhases_vitDecode (h : SameReads .vitDecode s s') : SamePhases .vitDecode s s' := by
  have hctx := h.ctx rfl
  have hcheck : vitDecodeCheck s' = vitDecodeCheck s := by
    unfold vitDecodeCheck State.opLen
    rw [hctx, h.len]
  have hchunk : chunkOf s' = chunkOf s := by simp only [chunkOf, byteA, hctx, h.mem, h.srca, h.len]
  have hafter : vitContextAfter s' = vitContextAfter s := by
    simp only [vitContextAfter, vitChunk_eq, hchunk, hctx, h.len]
  have hphases : decodePhases s' = decodePhases s := by
    simp only [decodePhases, chunkOuts, State.bufA, State.bufD, hcheck, hchunk, hafter, h.srca, h.dst, h.len]
  refine ⟨decodePhases s, exec_vitDecode_eq_run s, hphases ▸ exec_vitDecode_eq_run s', fun hok => ?_⟩
  exact (vitDecodeCheck_code hok).2 rfl

end

/-- A command's outcome is a function of what it reads: one case for each procedure of 00_scope R12. -/
theorem samePhases_of_sameReads {i : Instr} {s s' : State} (h : SameReads i s s') : SamePhases i s s' := by
  cases i with
  | vaddI16 => exact samePhases_elemwise2 exec_vaddI16 h fun _ _ => rfl
  | vaddI32 => exact samePhases_elemwise2 exec_vaddI32 h fun _ _ => rfl
  | vaddC16 => exact samePhases_elemwise2 exec_vaddC16 h fun _ _ => rfl
  | vaddC32 => exact samePhases_elemwise2 exec_vaddC32 h fun _ _ => rfl
  | vsubI16 => exact samePhases_elemwise2 exec_vsubI16 h fun _ _ => rfl
  | vsubI32 => exact samePhases_elemwise2 exec_vsubI32 h fun _ _ => rfl
  | vsubC16 => exact samePhases_elemwise2 exec_vsubC16 h fun _ _ => rfl
  | vsubC32 => exact samePhases_elemwise2 exec_vsubC32 h fun _ _ => rfl
  | vmulC16 => exact samePhases_elemwise2 exec_vmulC16 h fun _ _ => by rw [h.opShift]
  | vmulC32 => exact samePhases_elemwise2 exec_vmulC32 h fun _ _ => by rw [h.opShift]
  | vcmulC16 => exact samePhases_elemwise2 exec_vcmulC16 h fun _ _ => by rw [h.opShift]
  | vcmulC32 => exact samePhases_elemwise2 exec_vcmulC32 h fun _ _ => by rw [h.opShift]
  | vcmulwC16 =>
    exact samePhases_of_buffers exec_vcmulwC16
      (by simp only [State.opLen, State.bufA, State.bufB, h.srca, h.srcb, h.len])
      (by simp only [State.opLen, State.outD, State.bufD, State.outD2, State.bufD2, h.srca, h.srcb, h.dst, h.dst2, h.len,
        h.mem])
  | vsumI16 => exact samePhases_sumElems exec_vsumI16 h
  | vsumI32 => exact samePhases_sumElems exec_vsumI32 h
  | vsumC16 => exact samePhases_sumElems exec_vsumC16 h
  | vsumC32 => exact samePhases_sumElems exec_vsumC32 h
  | vhaddI32 => exact samePhases_haddElems exec_vhaddI32 h
  | vhaddC16 => exact samePhases_haddElems exec_vhaddC16 h
  | vshlI16 => exact samePhases_elemwise1 exec_vshlI16 h fun _ => by rw [h.opShift]
  | vshlI32 => exact samePhases_elemwise1 exec_vshlI32 h fun _ => by rw [h.opShift]
  | vshlC16 => exact samePhases_elemwise1 exec_vshlC16 h fun _ => by rw [h.opShift]
  | vshlC32 => exact samePhases_elemwise1 exec_vshlC32 h fun _ => by rw [h.opShift]
  | vshrI16 => exact samePhases_elemwise1 exec_vshrI16 h fun _ => by rw [h.opShift]
  | vshrI32 => exact samePhases_elemwise1 exec_vshrI32 h fun _ => by rw [h.opShift]
  | vshrC16 => exact samePhases_elemwise1 exec_vshrC16 h fun _ => by rw [h.opShift]
  | vshrC32 => exact samePhases_elemwise1 exec_vshrC32 h fun _ => by rw [h.opShift]
  | vpackC16 => exact samePhases_elemwise1 exec_vpackC16 h fun _ => rfl
  | vcastC8 =>
    exact samePhases_of_buffers exec_vcastC8 (by simp only [State.opLen, State.bufA, h.srca, h.len])
      (by simp only [State.opLen, State.bufD, h.srca, h.dst, h.len, h.mem])
  | vand => exact samePhases_bitwiseLen exec_vand h
  | vor => exact samePhases_bitwiseLen exec_vor h
  | vxor => exact samePhases_bitwiseLen exec_vxor h
  | vandn => exact samePhases_bitwiseLen exec_vandn h
  | vand8 => exact samePhases_bytewise exec_vand8 h rfl
  | vor8 => exact samePhases_bytewise exec_vor8 h rfl
  | vxor8 => exact samePhases_bytewise exec_vxor8 h rfl
  | vandn8 => exact samePhases_bytewise exec_vandn8 h rfl
  | fftC16 => exact samePhases_transform exec_fftC16 h
  | ifftC16 => exact samePhases_transform exec_ifftC16 h
  | vitInit => exact samePhases_vitInitFrame (.inl ⟨rfl, rfl⟩) h
  | vitInitsig => exact samePhases_vitInitFrame (.inr ⟨rfl, rfl⟩) h
  | vitDecode => exact samePhases_vitDecode h

/-- States in which a command reads the same: it reports the same code in both, or does the same phases. -/
theorem exec_cases_of_sameReads {i : Instr} {s s' : State} (h : SameReads i s s') :
    (∃ c, c ≠ .ok ∧ exec i s = .next (raise c s) ∧ exec i s' = .next (raise c s')) ∨
      ∃ P : Phases, exec i s = .next (P.done s) ∧ exec i s' = .next (P.done s') := by
  obtain ⟨P, hs, hs', hown⟩ := samePhases_of_sameReads h
  rw [hs, hs']
  exact (P.run_cases hown h.platform).imp_right fun hdone => ⟨P, hdone⟩

/-! ## Registers that are not listed, ERR and LASTERR -/

theorem raise_setOperand (c : ErrCode) (r : OperandReg) (v : Word) (s : State) :
    raise c (setOperand r v s) = setOperand r v (raise c s) := by
  cases r <;> rfl

theorem Phases.done_setOperand (P : Phases) (r : OperandReg) (v : Word) (s : State) :
    P.done (setOperand r v s) = setOperand r v (P.done s) := by
  cases r <;> rfl

theorem sameReads_setOperand {i : Instr} {r : OperandReg} (hr : r ∉ registersRead i) (v : Word) (s : State) :
    SameReads i s (setOperand r v s) where
  mem := by cases r <;> rfl
  platform := by cases r <;> rfl
  regs := fun r' hr' => by rw [readReg_setOperand, if_neg (ne_of_mem_of_not_mem hr' hr)]
  ctx := fun _ => (setOperand_keeps r v s).2.2.2

/-- Settles O39: the command reads the same, and no phase looks at the register again. -/
theorem unlistedRegistersIgnored : Obligations.UnlistedRegistersIgnored := by
  intro i r s t v hr he
  obtain ⟨c, -, h1, h2⟩ | ⟨P, h1, h2⟩ := exec_cases_of_sameReads (sameReads_setOperand hr v s)
  · cases he.symm.trans h1
    rw [h2, raise_setOperand]
  · cases he.symm.trans h1
    rw [h2, Phases.done_setOperand]

/-- Settles O38: a command reads neither ERR nor LASTERR; a report sets both, a success only LASTERR. -/
theorem errNeverBlocks : Obligations.ErrNeverBlocks := by
  intro i s t e c he
  have hreads : SameReads i s { s with err := e, lastErr := c } :=
    ⟨rfl, rfl, fun r _ => by cases r <;> rfl, fun _ => rfl⟩
  obtain ⟨code, hcode, h1, h2⟩ | ⟨P, h1, h2⟩ := exec_cases_of_sameReads hreads
  · cases he.symm.trans h1
    rw [h2, raise_lastErr, if_neg hcode]
    rfl
  · cases he.symm.trans h1
    exact h2

/-! ## The metrics of an Uninitialized context (43_viterbi R224) -/

/-- Outcomes that the metrics before an init may tell apart: the same refusal, or next states that differ at most in the
metrics, and not once a context is initialised. -/
def AgreeButMetrics (m : Metrics) (r r' : Result) : Prop :=
  (∀ q, r = .refused q → r' = .refused q) ∧
    ∀ t, r = .next t → ∃ t', r' = .next t' ∧ withMetrics m t' = withMetrics m t ∧
      (t.ctx.vstate ≠ .uninitialized → t' = t)

theorem agreeButMetrics_refl (m : Metrics) (r : Result) : AgreeButMetrics m r r :=
  ⟨fun _ h => h, fun t h => ⟨t, h, rfl, fun _ => rfl⟩⟩

theorem agreeButMetrics_withMetrics (m : Metrics) {t : State} (h : t.ctx.vstate = .uninitialized) :
    AgreeButMetrics m (.next t) (.next (withMetrics m t)) :=
  ⟨nofun, fun _ ht => by cases ht; exact ⟨_, rfl, rfl, absurd h⟩⟩

@[simp] theorem withMetrics_platform (m : Metrics) (s : State) : (withMetrics m s).platform = s.platform := rfl

theorem readReg_withMetrics (m : Metrics) (s : State) (off : Nat) : readReg (withMetrics m s) off = readReg s off := by
  unfold readReg
  split <;> rfl

section
variable {s : State} (m : Metrics) (hu : s.ctx.vstate = .uninitialized)
include hu

/-- A commit keeps the context, or replaces it whole. -/
theorem Phases.done_agreeButMetrics (P : Phases) :
    AgreeButMetrics m (.next (P.done s)) (.next (P.done (withMetrics m s))) := by
  cases hctx : P.ctx with
  | none =>
    have hkept : (P.done s).ctx = s.ctx := by simp [Phases.done, Phases.update, hctx]
    have hdone : P.done (withMetrics m s) = withMetrics m (P.done s) := by
      simp [Phases.done, Phases.update, hctx, withMetrics, succeed]
    exact hdone ▸ agreeButMetrics_withMetrics m (hkept ▸ hu)
  | some c =>
    have hdone : P.done (withMetrics m s) = P.done s := by simp [Phases.done, Phases.update, hctx, withMetrics]
    exact hdone ▸ agreeButMetrics_refl m _

/-- An init replaces the context, VIT.DECODE is out of state, and no other command reads or writes the context. -/
theorem exec_agreeButMetrics (i : Instr) : AgreeButMetrics m (exec i s) (exec i (withMetrics m s)) := by
  by_cases hi : i = .vitDecode
  · subst hi
    rw [exec_vitDecode_uninitialized hu, exec_vitDecode_uninitialized (s := withMetrics m s) hu]
    exact agreeButMetrics_withMetrics m hu
  · have hreads : SameReads i s (withMetrics m s) := ⟨rfl, rfl, fun r _ => by cases r <;> rfl, (absurd · hi)⟩
    obtain ⟨c, -, h1, h2⟩ | ⟨P, h1, h2⟩ := exec_cases_of_sameReads hreads
    · rw [h1, h2]
      exact agreeButMetrics_withMetrics m hu
    · rw [h1, h2]
      exact P.done_agreeButMetrics m hu

theorem writeCmd_agreeButMetrics (c : Word) : AgreeButMetrics m (writeCmd c s) (writeCmd c (withMetrics m s)) := by
  unfold writeCmd
  split
  · exact exec_agreeButMetrics m (s := { s with cmd := c }) hu _
  · exact agreeButMetrics_withMetrics m hu

theorem writeReg_agreeButMetrics (off : Nat) (v : Word) :
    AgreeButMetrics m (.next (writeReg s off v)) (.next (writeReg (withMetrics m s) off v)) := by
  unfold writeReg
  split
  · unfold writeCtrl
    split
    · exact agreeButMetrics_refl m _
    · split <;> exact agreeButMetrics_withMetrics m hu
  all_goals exact agreeButMetrics_withMetrics m hu

theorem perform_agreeButMetrics (a : Input) : AgreeButMetrics m (perform a s) (perform a (withMetrics m s)) := by
  cases a with
  | readBlock addr size =>
    cases hb : blockOffset s.platform.base addr size with
    | ok off =>
      simp only [perform, withMetrics_platform, hb, readReg_withMetrics]
      exact agreeButMetrics_withMetrics m hu
    | error r =>
      simp only [perform, withMetrics_platform, hb]
      exact agreeButMetrics_refl m _
  | writeBlock addr size v =>
    cases hb : blockOffset s.platform.base addr size with
    | ok off =>
      simp only [perform, withMetrics_platform, hb]
      split
      · exact writeCmd_agreeButMetrics m hu v
      · exact writeReg_agreeButMetrics m hu off v
    | error r =>
      simp only [perform, withMetrics_platform, hb]
      exact agreeButMetrics_refl m _
  | loadMem addr => exact agreeButMetrics_withMetrics m hu
  | storeMem addr b => exact agreeButMetrics_withMetrics m hu
  | powerOnReset => exact agreeButMetrics_refl m _

end

/-- Settles O31: by the next input, which both states have. -/
theorem metricsUnobservedBeforeInit : Obligations.MetricsUnobservedBeforeInit := by
  intro s m hu
  change AgreeButMetrics m (step s) (step (withMetrics m s))
  cases hn : nextInput s with
  | none =>
    have hn' : nextInput (withMetrics m s) = none := hn
    simp only [step, hn, hn']
    exact agreeButMetrics_withMetrics m hu
  | some a =>
    rw [step_of_nextInput hn, step_of_nextInput (s := withMetrics m s) hn]
    exact perform_agreeButMetrics m (s := advance s) hu a

end Sys2Proof.Machine
end

section
/-! PROOFS. Memory, elements and the buffer checks (00_scope R10; 20_memory R52, R53, R55, R56, R68). -/

namespace Sys2Proof.Machine

/-! ## MemRead and MemWrite -/

/-- A little-endian value is the sum of its bytes times their powers of 256. -/
theorem leValue_map_range (b : Nat → Byte) (n : Nat) :
    leValue ((List.range n).map b) = ((List.range n).map fun j => (b j).toNat * 2 ^ (8 * j)).sum := by
  induction n generalizing b with
  | zero => rfl
  | succ n ih =>
    have htail : ((List.range n).map fun j => (b (j + 1)).toNat * 2 ^ (8 * (j + 1))).sum =
        256 * ((List.range n).map fun j => (b (j + 1)).toNat * 2 ^ (8 * j)).sum := by
      rw [← List.sum_map_mul_left]
      refine congrArg List.sum (List.map_congr_left fun j _ => ?_)
      rw [Nat.mul_succ, pow_add]
      ring
    rw [List.range_succ_eq_map, List.map_cons, List.map_map, leValue, List.map_cons, List.map_map, List.sum_cons]
    exact congrArg₂ _ (Nat.mul_one _).symm ((congrArg _ (ih fun j => b (j + 1))).trans htail.symm)

/-- Settles O55: the bytes stored are those of the value, and a store keeps the canonical form. -/
theorem memoryPrimitives : Obligations.MemoryPrimitives := by
  intro m a n v hm ha
  have hlen : a + (leBytes n v).length ≤ 2 ^ 32 := by rwa [leBytes_length]
  refine ⟨leValue_map_range _ n, fun j hj => ?_, fun c hc => ?_, Memory.writeBytes_wf hlen hm⟩
  · have hj' : j < (leBytes n v).length := by rwa [leBytes_length]
    rw [Memory.memWrite, Memory.read_writeBytes_inside hm hlen hj', getElem_leBytes, BitVec.toNat_ofInt]
    rfl
  · exact Memory.read_writeBytes_outside (by rwa [leBytes_length])

/-! ## Elements -/

/-- Bytes are read as one word whose low byte comes first (20_memory R52). -/
theorem ofNat_leValue_cons (b : Byte) (bs : List Byte) {n : Nat} (hi : BitVec n) (hn : bs.length * 8 = n)
    (h : BitVec.ofNat n (leValue bs) = hi) : BitVec.ofNat (n + 8) (leValue (b :: bs)) = hi ++ b := by
  subst hn h
  have hlt : leValue bs < 2 ^ (bs.length * 8) := Nat.mul_comm 8 _ ▸ leValue_lt bs
  apply BitVec.eq_of_toNat_eq
  rw [BitVec.toNat_append, BitVec.toNat_ofNat, BitVec.toNat_ofNat, Nat.mod_eq_of_lt hlt,
    ← Nat.shiftLeft_add_eq_or_of_lt b.isLt, Nat.shiftLeft_eq, leValue]
  have hb := b.isLt
  rw [Nat.mod_eq_of_lt (by rw [pow_add]; omega)]
  omega

theorem ofNat_leValue_singleton (b : Byte) : BitVec.ofNat 8 (leValue [b]) = b := by simp [leValue]

/-- A scalar element is the signed reading of its bytes' word. -/
theorem loadElem_scalarType {n : Nat} {m : Memory} {a i : Nat} (e : Nat) {w : BitVec (8 * n)} (he : a + i * n = e)
    (h : BitVec.ofNat (8 * n) (leValue (m.readBytes e n)) = w) : loadElem (scalarType n) m a i = w.toInt := by
  subst he h
  exact sext_natCast (8 * n) _

theorem loadElem_int16 (m : Memory) (a i : Nat) :
    loadElem int16 m a i = (m.read (a + 2 * i + 1) ++ m.read (a + 2 * i)).toInt :=
  loadElem_scalarType (a + 2 * i) (by omega) (ofNat_leValue_cons _ [_] _ rfl (ofNat_leValue_singleton _))

theorem loadElem_int32 (m : Memory) (a i : Nat) : loadElem int32 m a i =
    (m.read (a + 4 * i + 3) ++ m.read (a + 4 * i + 2) ++ m.read (a + 4 * i + 1) ++ m.read (a + 4 * i)).toInt :=
  loadElem_scalarType (a + 4 * i) (by omega) <| ofNat_leValue_cons _ [_, _, _] _ rfl <| ofNat_leValue_cons _ [_, _] _ rfl <|
    ofNat_leValue_cons _ [_] _ rfl (ofNat_leValue_singleton _)

/-- A complex element is its two components, re first (20_memory R53). -/
theorem loadElem_complexType (n : Nat) (m : Memory) (a i : Nat) : loadElem (complexType n) m a i =
    ⟨loadElem (scalarType n) m (a + 2 * n * i) 0, loadElem (scalarType n) m (a + 2 * n * i) 1⟩ := by
  simp [loadElem, complexType, scalarType, Nat.mul_comm i]

/-- Settles O56: each scalar by its bytes, each complex type by its components. -/
theorem elementLayout : Obligations.ElementLayout := by
  intro m a i
  have hbyte : loadElem int8 m a i = (m.read (a + i)).toInt :=
    loadElem_scalarType (a + i) (by omega) (ofNat_leValue_singleton _)
  exact ⟨hbyte, loadElem_int16 m a i, loadElem_int32 m a i, loadElem_complexType 1 m a i, loadElem_complexType 2 m a i,
    loadElem_complexType 4 m a i⟩

/-! ## The buffer checks -/

/-- ERR_BUS: no range error, and some buffer not admitted. -/
theorem checkBuffers_eq_bus (p : Platform) (bs : List Buf) : checkBuffers p bs = some .bus ↔
    (∀ b ∈ bs, 0 < b.size → b.addr + b.size ≤ 2 ^ 32) ∧ ∃ b ∈ bs, 0 < b.size ∧ p.memAdmit b.addr b.size = false := by
  have hrange : bs.any Buf.outOfRange = true ↔ ¬∀ b ∈ bs, 0 < b.size → b.addr + b.size ≤ 2 ^ 32 := by
    simp only [List.any_eq_true, outOfRange_iff, not_forall, not_le, exists_prop]
  have hadmit : bs.any (Buf.notAdmitted p) = true ↔ ∃ b ∈ bs, 0 < b.size ∧ p.memAdmit b.addr b.size = false := by
    simp only [List.any_eq_true, notAdmitted_iff]
  unfold checkBuffers
  split
  · next h => simpa using fun hle => absurd hle (hrange.1 h)
  · next h =>
    rw [← hadmit]
    have hle := not_not.1 (mt hrange.2 h)
    split
    · next h2 => simp only [h2, and_true, true_iff]; exact hle
    · next h2 => simp [h2]

/-- Settles O52: the three answers of `checkBuffers`. -/
theorem bufferChecks : Obligations.BufferChecks :=
  fun p bs => ⟨checkBuffers_eq_range p bs, checkBuffers_eq_bus p bs, checkBuffers_eq_none p bs⟩

end Sys2Proof.Machine
end

section
/-! PROOFS. STATUS, the resets, the host's memory accesses and the position (10_state R20, R24; 20_memory R64; 70 R270,
R272, R282). -/

namespace Sys2Proof.Machine

/-! ## STATUS -/

/-- A field above the lowest part of a word is a field of the rest. -/
theorem extractLsb'_append_of_high {v w k l : Nat} {x : BitVec v} {y : BitVec w} {r : BitVec l}
    (h : x.extractLsb' k l = r) : (x ++ y).extractLsb' (k + w) l = r := by
  rw [BitVec.extractLsb'_append_eq_of_le (Nat.le_add_left w k), Nat.add_sub_cancel, h]

/-- Settles O51: the fields of STATUS are the parts it is put together from. -/
theorem statusFields : Obligations.StatusFields := by
  refine ⟨fun s => ⟨BitVec.extractLsb'_append_eq_right, ?_, ?_, ?_, ?_, ?_⟩, by decide, by decide⟩
  · exact extractLsb'_append_of_high BitVec.extractLsb'_append_eq_right
  · exact extractLsb'_append_of_high (extractLsb'_append_of_high BitVec.extractLsb'_append_eq_right)
  · exact extractLsb'_append_of_high (extractLsb'_append_of_high (extractLsb'_append_of_high
      BitVec.extractLsb'_append_eq_right))
  · exact extractLsb'_append_of_high (extractLsb'_append_of_high (extractLsb'_append_of_high
      (extractLsb'_append_of_high BitVec.extractLsb'_append_eq_right)))
  · exact extractLsb'_append_of_high (extractLsb'_append_of_high (extractLsb'_append_of_high
      (extractLsb'_append_of_high BitVec.extractLsb'_append_eq_left)))

/-! ## Resets -/

/-- Settles O44: the power-on reset is `resetUnit` past the input. -/
theorem powerOnResets : Obligations.PowerOnResets :=
  fun s h => ⟨resetUnit (advance s), step_of_nextInput h, isReset_resetUnit (advance s), rfl⟩

/-- Settles O45: the registers of `State.reset` read as after any reset. -/
theorem resetValues : Obligations.ResetValues :=
  ⟨fun _ _ h => registerMap_resetUnit State.reset _ h, rfl⟩

/-! ## The host's accesses of memory -/

/-- Settles O47: a store is one byte's write, and a load reads one byte. -/
theorem hostMemoryAccesses : Obligations.HostMemoryAccesses := by
  intro s a b hwf
  refine ⟨fun h => ?_, fun h => ?_⟩
  · exact ⟨_, step_of_nextInput h, rfl, Memory.read_write_same a.toNat b hwf,
      fun c hc => Memory.read_write_other b hc s.mem⟩
  · have hlt : (s.mem.read a.toNat).toNat < 2 ^ 32 := (s.mem.read a.toNat).isLt.trans (by decide)
    exact ⟨_, step_of_nextInput h, rfl, _, rfl, (BitVec.toNat_setWidth _ _).trans (Nat.mod_eq_of_lt hlt)⟩

/-! ## The position -/

/-- The host's side of the state: the position, the inputs and the platform. -/
def hostSide (s : State) : Nat × List Input × Platform := (s.pos, s.inputs, s.platform)

theorem hostSide_writeReg (off : Nat) (v : Word) (s : State) : hostSide (writeReg s off v) = hostSide s := by
  by_cases h4 : off = 0x04
  · subst h4
    rw [writeReg_ctrl, writeCtrl_eq]
    split_ifs <;> rfl
  · obtain ⟨r, -, hr⟩ | hs := writeReg_cases h4 s v
    · rw [hr]
      cases r <;> rfl
    · rw [hs]

/-- An access moves the position past it and leaves the rest of the host's side alone. -/
theorem hostSide_of_stepCase {s t : State} (h : StepCase s t) (hn : nextInput s ≠ none) :
    hostSide t = hostSide (advance s) := by
  cases h with
  | idle hidle => exact absurd hidle hn
  | write _ _ => exact hostSide_writeReg _ _ _
  | command _ _ he =>
    rw [exec_frame he]
    rfl
  | read | illegal | loadMem | storeMem | powerOn => rfl

/-- Settles O48: with no input left the step is idle, and every access advances the position. -/
theorem positionAdvancesByOne : Obligations.PositionAdvancesByOne := by
  intro s t hstep
  refine ⟨fun hend => ?_, fun hlt => ?_⟩
  · have hn : nextInput s = none := List.getElem?_eq_none hend
    rw [step, hn] at hstep
    exact (Host.Outcome.next.inj hstep).symm
  · have hn : nextInput s ≠ none := fun h => absurd (List.getElem?_eq_none_iff.1 h) (not_le.2 hlt)
    have hside := hostSide_of_stepCase (stepCase_of_step hstep) hn
    simpa [hostSide] using hside

end Sys2Proof.Machine
end

section
/-! PROOFS. Every command: it completes, its codes, their order, and who writes the context (10_state R31;
43_viterbi R210; 60_exceptions R240, R243, R245). -/

namespace Sys2Proof.Machine

/-- Settles O32: the four phases end in a report or a success. -/
theorem everyCommandCompletes : Obligations.EveryCommandCompletes := by
  intro i s
  obtain ⟨own, ins, outs, upd, hs⟩ := exec_shape i s
  rw [hs.eq]
  exact runPhases_next own ins outs upd s

theorem isViterbi_iff (i : Instr) : isViterbi i = true ↔ i = .vitInit ∨ i = .vitInitsig ∨ i = .vitDecode := by
  cases i <;> decide

/-- Settles O36: only a command changes the context, and by `exec_ctx` a successful one of family VD. -/
theorem contextOnlyByViterbi : Obligations.ContextOnlyByViterbi := by
  intro s t h hr hne
  obtain ⟨c, i, hw, hd, he⟩ | ⟨-, -, hkept⟩ := step_command_or_keeps h hr
  · obtain hkept | ⟨hok, hi⟩ := exec_ctx he
    · exact absurd hkept hne
    · exact ⟨hok, c, i, hw, hd, (isViterbi_iff i).1 hi⟩
  · exact absurd hkept hne

/-! ## The codes that a command reports -/

/-- A command reports OK, one of its own checks' codes, or a code of the buffer checks. -/
theorem exec_lastErr_cases {i : Instr} {s t : State} (h : exec i s = .next t) :
    t.lastErr = .ok ∨ t.lastErr ∈ mayReport i ∨ t.lastErr = .range ∨ t.lastErr = .bus := by
  obtain ⟨own, ins, outs, upd, hs⟩ := exec_shape i s
  rw [hs.eq] at h
  obtain ⟨c, hc, rfl⟩ | ⟨-, rfl⟩ := runPhases_cases h
  · obtain hown | hbuf := firstError_code hc
    · exact .inr (.inl (hs.own_code c hown).1)
    · exact .inr (.inr hbuf)
  · exact .inl rfl

/-- A command that may report both codes of the buffer checks reports only its own. -/
theorem reports_of_bufferCodes {i : Instr} {s t : State} (hrange : .range ∈ mayReport i) (hbus : .bus ∈ mayReport i)
    (h : exec i s = .next t) : t.lastErr = .ok ∨ t.lastErr ∈ mayReport i := by
  obtain hok | hown | hc | hc := exec_lastErr_cases h
  · exact .inl hok
  · exact .inr hown
  · exact .inr (hc ▸ hrange)
  · exact .inr (hc ▸ hbus)

/-- An init has no buffers. -/
theorem reports_of_init {i : Instr} {v : VitVariant} (hi : isInitOf i v) {s t : State} (h : exec i s = .next t) :
    t.lastErr = .ok ∨ t.lastErr = .vitRate ∨ t.lastErr = .vitFrame := by
  obtain ⟨-, rfl⟩ | ⟨-, rfl | rfl⟩ := exec_init_cases hi h
  · exact .inl rfl
  · exact .inr (.inl rfl)
  · exact .inr (.inr rfl)

/-- Buffers that end inside the address space raise no ERR_RANGE. -/
theorem checkBuffers_code_of_inRange {p : Platform} {bs : List Buf} {c : ErrCode}
    (hin : ∀ b ∈ bs, b.addr + b.size ≤ 2 ^ 32) (h : checkBuffers p bs = some c) : c = .bus := by
  obtain rfl | hbus := checkBuffers_code h
  · obtain ⟨b, hb, -, hout⟩ := (checkBuffers_eq_range p bs).1 h
    exact absurd (hin b hb) (not_le.2 hout)
  · exact hbus

theorem firstError_code_of_inRange {p : Platform} {ins outs : List Buf} {c : ErrCode}
    (hin : ∀ b ∈ ins ++ outs, b.addr + b.size ≤ 2 ^ 32) (h : firstError p none ins outs = some c) : c = .bus := by
  obtain ⟨hins, houts⟩ := List.forall_mem_append.1 hin
  cases hi : checkBuffers p ins with
  | some c' =>
    have hc : c' = c := by simpa [firstError, hi] using h
    exact checkBuffers_code_of_inRange hins (hc ▸ hi)
  | none => exact checkBuffers_code_of_inRange houts (by simpa [firstError, hi] using h)

/-- A buffer of one byte ends inside the address space, so an 8-bit form reports no ERR_RANGE. -/
theorem reports_of_bitwiseOne {g : Byte → Byte → Byte} {s t : State} (h : bitwiseOne g s = .next t) :
    t.lastErr = .ok ∨ t.lastErr = .bus := by
  obtain ⟨c, hc, rfl⟩ | ⟨-, rfl⟩ := runPhases_cases h
  · refine .inr (firstError_code_of_inRange ?_ hc)
    simp only [List.map_cons, List.map_nil, List.cons_append, List.nil_append, List.forall_mem_cons]
    exact ⟨s.srca.isLt, s.srcb.isLt, s.dst.isLt, nofun⟩
  · exact .inl rfl

/-- Settles O37: ERR_RANGE is ruled out for the 8-bit forms, the buffer codes for the inits. -/
theorem reportedCodes : Obligations.ReportedCodes := by
  intro i s t h
  have hbyte {g : Byte → Byte → Byte} (hm : mayReport i = [.bus]) (hg : bitwiseOne g s = .next t) :
      t.lastErr = .ok ∨ t.lastErr ∈ mayReport i := by
    rw [hm, List.mem_singleton]
    exact reports_of_bitwiseOne hg
  have hinit {v : VitVariant} (hm : mayReport i = [.vitRate, .vitFrame]) (hi : isInitOf i v) :
      t.lastErr = .ok ∨ t.lastErr ∈ mayReport i := by
    rw [hm, List.mem_pair]
    exact reports_of_init hi h
  cases i with
  | vand8 => exact hbyte rfl ((exec_vand8 s).symm.trans h)
  | vor8 => exact hbyte rfl ((exec_vor8 s).symm.trans h)
  | vxor8 => exact hbyte rfl ((exec_vxor8 s).symm.trans h)
  | vandn8 => exact hbyte rfl ((exec_vandn8 s).symm.trans h)
  | vitInit => exact hinit rfl (.inl ⟨rfl, rfl⟩)
  | vitInitsig => exact hinit rfl (.inr ⟨rfl, rfl⟩)
  | _ => exact reports_of_bufferCodes (by decide) (by decide) h

/-! ## The order of the checks (60_exceptions R243) -/

/-- An error of the inputs is reported before any of the outputs. -/
theorem firstError_of_checkBuffers_ins {p : Platform} {ins outs : List Buf} {c : ErrCode}
    (h : checkBuffers p ins = some c) : firstError p none ins outs = some c := by
  simp [firstError, h]

/-- A size outside the catalog is reported before any buffer. -/
theorem transform_raises_fftSize {dir : FftDir} {s : State} (h : inCatalog s.opLen = false) :
    transform dir s = .next (raise .fftSize s) := by
  simp only [transform, h]
  exact runPhases_raise rfl

/-- Settles O53: own checks come first, then the inputs, then the outputs. -/
theorem errorPriority : Obligations.ErrorPriority := by
  refine fun s => ⟨fun hlen _ => ?_, fun hin hlen hadmit _ => ?_, fun hv _ => exec_vitDecode_uninitialized hv⟩
  · refine transform_raises_fftSize ?_
    rw [State.opLen, hlen]
    decide
  · have hpos : 0 < s.len.toNat * 2 := by
      have := mt (word_toNat_eq_zero_iff s.len).1 hlen
      omega
    have hbus : checkBuffers s.platform (inAB 2 s) = some .bus :=
      (checkBuffers_eq_bus _ _).2 ⟨fun b hb _ => hin b hb, s.bufB (s.len.toNat * 2), by simp [inAB], hpos, hadmit⟩
    exact runPhases_raise (firstError_of_checkBuffers_ins hbus)

/-! ## Forms that agree -/

/-- Settles O21: 1 to 8 bits are one byte. -/
theorem byteFormsMatchLengthForms : Obligations.ByteFormsMatchLengthForms := by
  intro s hlo hhi
  have hone : byteCount s.opLen = 1 := by
    unfold byteCount State.opLen
    omega
  have hlen (g : Byte → Byte → Byte) : bitwiseOne g s = bitwiseLen g s := by rw [bitwiseOne, bitwiseLen, hone]
  exact ⟨hlen _, hlen _, hlen _, hlen fun a b => a &&& ~~~b⟩

/-! ## Sums (40_vector_arith R115 to R118) -/

/-- A successful sum leaves its accumulator in RES0 and RES1. -/
theorem sumElems_ok {α : Type} {T : ElemType α} {zero : α} {add : α → α → α} {res : α → Word × Word} {s t : State}
    (h : sumElems T zero add res s = .next t) (hok : t.lastErr = .ok) :
    (t.res0, t.res1) = res ((List.range s.len.toNat).map (elemA T s) |>.foldl add zero) := by
  unfold sumElems at h
  obtain ⟨c, hc, rfl⟩ | ⟨-, rfl⟩ := runPhases_cases h
  · subst hok
    simpa using firstError_code hc
  · rfl

/-- A value wrapped to N bits keeps its sign in a register at least as wide. -/
theorem toInt_wordOf_wrap {N : Nat} (h1 : 1 ≤ N) (h32 : N ≤ 32) (v : Int) : (wordOf (wrap N v)).toInt = wrap N v := by
  have hlo := wrap_lower N v
  have hhi := wrap_upper h1 v
  have hpow : (2 : Int) ^ N ≤ 2 ^ 32 := pow_le_pow_right₀ (by norm_num) h32
  rw [wordOf, ← wrap_eq_toInt]
  exact wrap_of_range (by omega) (by omega)

/-- The accumulator of a scalar sum is the wrapped total. -/
theorem res_of_scalarSum {N : Nat} (h1 : 1 ≤ N) (h32 : N ≤ 32) {T : ElemType Int} {s t : State}
    (h : sumElems T 0 (fun acc x => wrap N (acc + x)) scalarResult s = .next t) (hok : t.lastErr = .ok) :
    t.res0.toInt = wrap N ((List.range s.len.toNat).map (elemA T s)).sum := by
  have hacc := foldl_wrap_add N ((List.range s.len.toNat).map (elemA T s)) 0
  rw [wrap_zero, zero_add] at hacc
  have hres := sumElems_ok h hok
  rw [hacc, scalarResult, Prod.mk.injEq] at hres
  rw [hres.1]
  exact toInt_wordOf_wrap h1 h32 _

/-- The accumulators of a complex sum are the wrapped totals of the components. -/
theorem res_of_complexSum {N : Nat} (h1 : 1 ≤ N) (h32 : N ≤ 32) {T : ElemType Cplx} {s t : State}
    (h : sumElems T ⟨0, 0⟩ (fun acc x => (acc.add x).map (wrap N)) complexResult s = .next t) (hok : t.lastErr = .ok) :
    t.res0.toInt = wrap N ((List.range s.len.toNat).map fun j => (elemA T s j).re).sum ∧
      t.res1.toInt = wrap N ((List.range s.len.toNat).map fun j => (elemA T s j).im).sum := by
  have hacc := foldl_wrap_cplx N ((List.range s.len.toNat).map (elemA T s)) 0 0
  rw [wrap_zero, zero_add, zero_add, List.map_map, List.map_map] at hacc
  have hres := sumElems_ok h hok
  rw [hacc, complexResult, Prod.mk.injEq] at hres
  rw [hres.1, hres.2]
  exact ⟨toInt_wordOf_wrap h1 h32 _, toInt_wordOf_wrap h1 h32 _⟩

/-- Settles O13: wrapping at each step is wrapping the total, which RES0 and RES1 hold with its sign. -/
theorem sumsAreWrappedTotals : Obligations.SumsAreWrappedTotals := fun _ _ hok =>
  ⟨(res_of_scalarSum (by decide) (by decide) · hok), (res_of_scalarSum (by decide) (by decide) · hok),
   (res_of_complexSum (by decide) (by decide) · hok), (res_of_complexSum (by decide) (by decide) · hok)⟩

end Sys2Proof.Machine
end

section
/-! PROOFS. What the transforms leave at DST (42_fft R197). -/

namespace Sys2Proof.Machine

/-! ## Zero elements -/

theorem append_eq_zero_iff {v w : Nat} (x : BitVec v) (y : BitVec w) : x ++ y = 0#(v + w) ↔ x = 0#v ∧ y = 0#w := by
  constructor
  · intro h
    have hx := congrArg (BitVec.extractLsb' w v) h
    have hy := congrArg (BitVec.extractLsb' 0 w) h
    rw [BitVec.extractLsb'_append_eq_left] at hx
    rw [BitVec.extractLsb'_append_eq_right] at hy
    exact ⟨by simpa using hx, by simpa using hy⟩
  · rintro ⟨rfl, rfl⟩
    exact BitVec.zero_append_zero

theorem loadElem_int16_eq_zero_iff (m : Memory) (a i : Nat) :
    loadElem int16 m a i = 0 ↔ m.read (a + 2 * i + 1) = 0 ∧ m.read (a + 2 * i) = 0 := by
  rw [loadElem_int16, ← BitVec.toInt_zero (w := 16), BitVec.toInt_inj, append_eq_zero_iff]
  rfl

/-- A complex16 element is zero when its four bytes are. -/
theorem loadElem_complex16_eq_zero_iff (m : Memory) (a i : Nat) :
    loadElem complex16 m a i = ⟨0, 0⟩ ↔ ∀ k < 4, m.read (a + 4 * i + k) = 0 := by
  have hbytes : (∀ k < 4, m.read (a + 4 * i + k) = 0) ↔ m.read (a + 4 * i) = 0 ∧ m.read (a + 4 * i + 1) = 0 ∧
      m.read (a + 4 * i + 2) = 0 ∧ m.read (a + 4 * i + 3) = 0 := by
    simp only [Nat.forall_lt_succ_left, Nat.not_lt_zero, IsEmpty.forall_iff, implies_true, and_true, Nat.reduceAdd,
      Nat.add_zero]
  have hre : loadElem (scalarType 2) m (a + 2 * 2 * i) 0 = 0 ↔
      m.read (a + 4 * i + 1) = 0 ∧ m.read (a + 4 * i) = 0 := loadElem_int16_eq_zero_iff m (a + 4 * i) 0
  have him : loadElem (scalarType 2) m (a + 2 * 2 * i) 1 = 0 ↔
      m.read (a + 4 * i + 3) = 0 ∧ m.read (a + 4 * i + 2) = 0 := loadElem_int16_eq_zero_iff m (a + 4 * i) 1
  rw [complex16, loadElem_complexType, Cplx.mk.injEq, hre, him, hbytes]
  exact ⟨fun ⟨⟨h1, h0⟩, h3, h2⟩ => ⟨h0, h1, h2, h3⟩, fun ⟨h0, h1, h2, h3⟩ => ⟨⟨h1, h0⟩, h3, h2⟩⟩

/-- FFT-ZERO-64, for a size given as 64. -/
theorem fft_zero {n : Nat} (hn : n = 64) : Config.fft .fwd n (fun _ => ⟨0, 0⟩) = fun _ => ⟨0, 0⟩ :=
  hn ▸ Config.fftEngines.zero64

/-- Settles O24: zero bytes are zero elements, of which FFT-ZERO-64 makes zero elements again. -/
theorem fftOfZeros64 : Obligations.FftOfZeros64 := by
  intro s hwf hlen hA hD hzero
  have hn : s.len.toNat = 64 := by rw [hlen]; rfl
  have hc : inCatalog s.len.toNat = true := by rw [hn]; decide
  have hok : ∀ b ∈ inA 4 s ++ outOfD 4 s, bufOk s.platform b := by
    simp only [inA, outOfD, hn, List.cons_append, List.nil_append, List.forall_mem_cons]
    exact ⟨hA, hD, by simp⟩
  have hx : ∀ k : Fin s.len.toNat, C16.toCplx ⟨0, 0⟩ = elemA complex16 s k.val := fun k => by
    refine ((loadElem_complex16_eq_zero_iff _ _ _).2 fun j hj => ?_).symm
    have := k.isLt
    rw [Nat.add_assoc]
    exact hzero _ (by omega)
  obtain ⟨t, ht, hframe, helem⟩ := transform_completes .fwd hwf hc hok
  rw [← eq_engineInput hx, fft_zero hn] at helem
  refine ⟨t, ht, by rw [hframe.1], fun j hj => ?_⟩
  have hbyte := (loadElem_complex16_eq_zero_iff _ _ _).1 (helem ⟨j / 4, by omega⟩) (j % 4) (by omega)
  rwa [Nat.add_assoc, Nat.div_add_mod] at hbyte

/-! ## The impulse -/

/-- Settles O25: the elements of an impulse are the engine's impulse, whose bins have one magnitude by FFT-IMPULSE. -/
theorem fftOfImpulse : Obligations.FftOfImpulse := by
  intro s hwf hc hok h0 hrest
  have hx : ∀ k : Fin s.len.toNat, C16.toCplx (if k.val = 0 then ⟨1, 0⟩ else ⟨0, 0⟩) = elemA complex16 s k.val := by
    intro k
    split
    · next hk => rw [hk, h0]; rfl
    · next hk => rw [hrest k.val k.isLt (Nat.pos_of_ne_zero hk)]; rfl
  obtain ⟨t, ht, hframe, helem⟩ := transform_completes .fwd hwf hc hok
  rw [← eq_engineInput hx] at helem
  refine ⟨t, ht, by rw [hframe.1], fun i hi j hj => ?_⟩
  dsimp only
  rw [helem ⟨i, hi⟩, helem ⟨j, hj⟩]
  exact Config.fftEngines.impulse s.len.toNat hc ⟨i, hi⟩ ⟨j, hj⟩

/-! ## The round trip -/

/-- A successful transform had a catalog size, and wrote the engine's image of the snapshot. -/
theorem exec_transform_ok {i : Instr} {dir : FftDir} {w : Word} {s t : State}
    (hi : (i = .fftC16 ∧ dir = .fwd ∧ w = 0x00000320#32) ∨ (i = .ifftC16 ∧ dir = .inv ∧ w = 0x00000321#32))
    (hwf : s.mem.wf = true) (he : exec i s = .next t) (hok : t.lastErr = .ok) :
    inCatalog s.len.toNat = true ∧ wroteOnly (s.bufD (s.len.toNat * 4)) s t ∧
      ∀ j : Fin s.len.toNat, loadElem complex16 t.mem s.dst.toNat j.val =
        (Config.fft dir s.len.toNat (engineInput s) j).toCplx := by
  have hown : (if inCatalog s.len.toNat then none else some ErrCode.fftSize) ≠ some .ok := by split <;> simp
  obtain ⟨hsize, hframe, helem⟩ := post_of_runsStandard (transformDispatch i dir w hi).2 hown hwf he hok
  exact ⟨by simpa using hsize, hframe, helem _ fun k => loadC16_toCplx _ _ _⟩

/-- Settles O26: the second command's input is the first's output, so FFT-ROUNDTRIP speaks of the two. -/
theorem fftRoundTrip : Obligations.FftRoundTrip := by
  intro s t u d hwf he hok he' hok' j hj
  obtain ⟨hc, ⟨ht, -⟩, helem⟩ := exec_transform_ok (.inl ⟨rfl, rfl, rfl⟩) hwf he hok
  have hmem : t.mem.wf = true := exec_mem_wf he hwf
  generalize t.mem = m at ht helem hmem
  subst ht
  obtain ⟨-, -, helem'⟩ := exec_transform_ok (.inr ⟨rfl, rfl, rfl⟩) hmem he' hok'
  have hinput := eq_engineInput (s := { s with mem := m, lastErr := .ok, srca := s.dst, dst := d })
    (x := Config.fft .fwd s.len.toNat (engineInput s)) fun k => (helem k).symm
  have hout := helem' ⟨j, hj⟩
  rw [← hinput] at hout
  dsimp only
  rw [hout, show elemA complex16 s j = (engineInput s ⟨j, hj⟩).toCplx from (loadC16_toCplx _ _ _).symm]
  exact Config.fftEngines.roundTrip s.len.toNat hc (engineInput s) ⟨j, hj⟩

end Sys2Proof.Machine
end

section
/-! PROOFS. Host programs: pseudo-instructions and the text of a command (30_encoding R87 to R89). -/

namespace Sys2Proof.Machine

/-! ## The registers that pseudo-instructions write -/

/-- The name of an operand register. -/
def OperandReg.regName : OperandReg → RegName
  | .srca => .srca
  | .srcb => .srcb
  | .dst => .dst
  | .dst2 => .dst2
  | .len => .len
  | .shift => .shift
  | .arg => .arg

theorem OperandReg.regName_offset (r : OperandReg) : r.regName.offset = r.offset := by cases r <;> rfl

theorem storeReg_regName (r : OperandReg) (v : Word) (s : State) : storeReg r.regName v s = setOperand r v s := by
  cases r <;> rfl

theorem exists_regName_of_mem_pseudoOperands {i : Instr} {n : RegName} (h : n ∈ pseudoOperands i) :
    ∃ r : OperandReg, r.regName = n := by
  have hall : ∀ n ∈ pseudoOperands i,
      n ∈ [OperandReg.srca, .srcb, .dst, .dst2, .len, .shift, .arg].map OperandReg.regName := by
    cases i <;> decide
  obtain ⟨r, -, hr⟩ := List.mem_map.1 (hall n h)
  exact ⟨r, hr⟩

/-! ## The writes of a pseudo-instruction, one after another -/

/-- The state with the host at another position. -/
def atPos (s : State) (p : Nat) : State := { s with pos := p }

/-- The state after the writes of a list of registers. -/
def afterWrites (ns : List RegName) (vs : List Word) (s : State) : State :=
  atPos ((ns.zip vs).foldl (fun t p => storeReg p.1 p.2 t) s) (s.pos + vs.length)

theorem advance_eq_atPos (s : State) : advance s = atPos s (s.pos + 1) := rfl

theorem atPos_atPos (s : State) (p q : Nat) : atPos (atPos s p) q = atPos s q := rfl

theorem storeReg_atPos (n : RegName) (v : Word) (s : State) (p : Nat) :
    storeReg n v (atPos s p) = atPos (storeReg n v s) p := by
  cases n <;> rfl

theorem foldl_storeReg_atPos (l : List (RegName × Word)) (s : State) (p : Nat) :
    l.foldl (fun t q => storeReg q.1 q.2 t) (atPos s p) = atPos (l.foldl (fun t q => storeReg q.1 q.2 t) s) p := by
  induction l generalizing s with
  | nil => rfl
  | cons q l ih => rw [List.foldl_cons, storeReg_atPos, ih, List.foldl_cons]

/-- The host's side after a write: only the position is another. -/
theorem storeReg_advance_host (n : RegName) (v : Word) (s : State) :
    (storeReg n v (advance s)).pos = s.pos + 1 ∧ (storeReg n v (advance s)).inputs = s.inputs ∧
      (storeReg n v (advance s)).platform = s.platform := by
  cases n <;> exact ⟨rfl, rfl, rfl⟩

theorem afterWrites_cons (n : RegName) (ns : List RegName) (v : Word) (vs : List Word) (s : State) :
    afterWrites (n :: ns) (v :: vs) s = afterWrites ns vs (storeReg n v (advance s)) := by
  have hpos := (storeReg_advance_host n v s).1
  rw [afterWrites, afterWrites, hpos, advance_eq_atPos, storeReg_atPos, foldl_storeReg_atPos, atPos_atPos,
    List.zip_cons_cons, List.foldl_cons, List.length_cons, Nat.add_assoc, Nat.add_comm 1]

theorem nextInput_of_drop {s : State} {a : Input} {rest : List Input} (h : s.inputs.drop s.pos = a :: rest) :
    nextInput s = some a ∧ s.inputs.drop (s.pos + 1) = rest := by
  refine ⟨?_, ?_⟩
  · rw [nextInput, ← List.head?_drop, h, List.head?_cons]
  · rw [← List.tail_drop, h, List.tail_cons]

theorem runSteps_succ_of_step {k : Nat} {s t : State} (h : step s = .next t) : runSteps (k + 1) s = runSteps k t := by
  rw [runSteps, h]

theorem runSteps_one (s : State) : runSteps 1 s = step s := by
  cases h : step s <;> simp only [runSteps, h]

/-- The writes run one step each, and leave the host at what follows them. -/
theorem runSteps_writes (k : Nat) (rest : List Input) (ns : List RegName) (hns : ∀ n ∈ ns, ∃ r : OperandReg, r.regName = n)
    (vs : List Word) (s : State) (hlen : vs.length = ns.length)
    (h : s.inputs.drop s.pos = encodeProgram s.platform (List.zipWith HostStmt.wr ns vs) ++ rest) :
    runSteps (vs.length + k) s = runSteps k (afterWrites ns vs s) ∧ (afterWrites ns vs s).platform = s.platform ∧
      (afterWrites ns vs s).inputs.drop (afterWrites ns vs s).pos = rest := by
  induction ns generalizing vs s with
  | nil =>
    obtain rfl := List.length_eq_zero_iff.1 hlen
    exact ⟨by rw [List.length_nil, Nat.zero_add]; rfl, rfl, h⟩
  | cons n ns ih =>
    obtain _ | ⟨v, vs⟩ := vs
    · cases hlen
    · obtain ⟨r, rfl⟩ := hns n List.mem_cons_self
      obtain ⟨hnext, hrest⟩ := nextInput_of_drop h
      have hwrite : nextWrites s r.offset v := r.regName_offset ▸ hnext
      have hstep : step s = .next (storeReg r.regName v (advance s)) := by
        rw [storeReg_regName, step_of_nextWrites_operand r hwrite]
      obtain ⟨hpos, hinputs, hplatform⟩ := storeReg_advance_host r.regName v s
      obtain ⟨hrun, hp, hdrop⟩ := ih (fun m hm => hns m (List.mem_cons_of_mem _ hm)) vs _ (Nat.succ.inj hlen)
        (by rw [hpos, hinputs, hplatform]; exact hrest)
      rw [afterWrites_cons]
      refine ⟨?_, hp.trans hplatform, hdrop⟩
      rw [List.length_cons, Nat.add_right_comm, runSteps_succ_of_step hstep, hrun]

/-- Settles O49: the writes fill the operand registers, and the CMD write runs the command. -/
theorem pseudoInstructionsRunTheirCommand : Obligations.PseudoInstructionsRunTheirCommand := by
  intro i operands s rest hlen h
  rw [encodeProgram, pseudo, List.map_append, List.append_assoc] at h
  obtain ⟨hrun, hplatform, hdrop⟩ :=
    runSteps_writes 1 _ (pseudoOperands i) (fun _ => exists_regName_of_mem_pseudoOperands) operands s hlen h
  have hnext : nextWrites (afterWrites (pseudoOperands i) operands s) cmdOffset (encode i) := by
    rw [nextWrites, hplatform]
    exact (nextInput_of_drop hdrop).1
  rw [hrun, runSteps_one, step_of_nextWrites_cmd_ok hnext (decode_encode i)]
  rfl

/-! ## The text of a command -/

/-- In a table without repeated names each entry is found under its own. -/
theorem lookupName_of_mem {α : Type} {table : List (String × α)} {name : String} {a : α}
    (hnodup : (table.map Prod.fst).Nodup) (h : (name, a) ∈ table) : lookupName table name.toList = some a := by
  induction table with
  | nil => cases h
  | cons e l ih =>
    obtain ⟨hne, hnodup⟩ := List.nodup_cons.1 hnodup
    obtain rfl | h := List.mem_cons.1 h
    · simp [lookupName]
    · have hother : (e.1.toList == name.toList) = false :=
        beq_false_of_ne fun heq => hne (List.mem_map.2 ⟨_, h, (String.toList_inj.1 heq).symm⟩)
      rw [lookupName, List.find?_cons, hother]
      exact ih hnodup h

theorem asmCommands_nodup : (asmCommands.map Prod.fst).Nodup := by decide

/-- What ends a word: a blank, or the semicolon of a comment. -/
def isSeparator (c : Char) : Bool := c == ';' || isBlank c

theorem isSeparator_eq_false_iff (c : Char) : isSeparator c = false ↔ c ≠ ';' ∧ isBlank c = false := by
  rw [isSeparator, Bool.or_eq_false_iff, beq_eq_false_iff_ne]

theorem toLower_of_isSeparator {c : Char} (h : isSeparator c = true) : c.toLower = c := by
  have hcases : c = ';' ∨ c = ' ' ∨ c = '\t' := by simpa [isSeparator, isBlank] using h
  obtain rfl | rfl | rfl := hcases <;> decide

/-- A mnemonic is one word, and none of the words of the other statements. -/
theorem asmCommands_word : ∀ e ∈ asmCommands, e.1.toList ≠ [] ∧ e.1.toList.all (!isSeparator ·) = true ∧
    ∀ w ∈ ["wr", "rd", "srst", "clrerr", "status"], e.1.toList ≠ w.toList := by
  decide

/-- A mnemonic without operands is its command. -/
theorem readStatement_mnemonic {name : String} {i : Instr} (he : (name, i) ∈ asmCommands) :
    readStatement name.toList [] = some [.command i] := by
  obtain ⟨-, -, hother⟩ := asmCommands_word _ he
  simp only [List.forall_mem_cons] at hother
  obtain ⟨hwr, hrd, hsrst, hclrerr, hstatus, -⟩ := hother
  unfold readStatement
  rw [if_neg hwr, if_neg hrd, if_neg hsrst, if_neg hclrerr, if_neg hstatus, lookupName_of_mem asmCommands_nodup he]
  rfl

/-- A separator in the line would be one in the mnemonic, since lower case keeps it. -/
theorem isSeparator_of_mem_line {name : String} {i : Instr} {line : List Char} (he : (name, i) ∈ asmCommands)
    (hline : line.map Char.toLower = name.toList) {c : Char} (hc : c ∈ line) : isSeparator c = false := by
  obtain ⟨-, hword, -⟩ := asmCommands_word _ he
  rw [← hline, List.all_map, List.all_eq_true] at hword
  have hlow : isSeparator c.toLower = false := by simpa using hword c hc
  by_contra h
  rw [toLower_of_isSeparator (by simpa using h)] at hlow
  exact h hlow

theorem trimText_of_not_blank {cs : List Char} (h : ∀ c ∈ cs, isBlank c = false) : trimText cs = cs := by
  have hdrop : ∀ l : List Char, (∀ c ∈ l, isBlank c = false) → l.dropWhile isBlank = l
    | [], _ => rfl
    | c :: l, hl => List.dropWhile_cons_of_neg (by simp [hl c])
  rw [trimText, hdrop cs h, hdrop cs.reverse fun c hc => h c (List.mem_reverse.1 hc), List.reverse_reverse]

/-- A line without blanks is one word with no operands. -/
theorem lineParts_of_not_blank {cs : List Char} (h : ∀ c ∈ cs, isBlank c = false) :
    lineParts cs = (cs.map Char.toLower, []) := by
  have htake : cs.takeWhile (fun c => !isBlank c) = cs := List.takeWhile_eq_self_iff.2 fun c hc => by simp [h c hc]
  have hdrop : cs.dropWhile (fun c => !isBlank c) = [] := List.dropWhile_eq_nil_iff.2 fun c hc => by simp [h c hc]
  simp [lineParts, htake, hdrop, trimText]

/-- A line that begins with a mnemonic in any letter case and then ends or goes on with a comment. -/
theorem assembleLine_of_mnemonic {name : String} {i : Instr} {line rest : List Char} (he : (name, i) ∈ asmCommands)
    (hline : line.map Char.toLower = name.toList) (hrest : rest.takeWhile (fun c => c != ';') = []) :
    assembleLine (line ++ rest) = some [.command i] := by
  have hsep : ∀ c ∈ line, c ≠ ';' ∧ isBlank c = false := fun c hc =>
    (isSeparator_eq_false_iff c).1 (isSeparator_of_mem_line he hline hc)
  have hblank : ∀ c ∈ line, isBlank c = false := fun c hc => (hsep c hc).2
  have hbody : (line ++ rest).takeWhile (fun c => c != ';') = line := by
    rw [List.takeWhile_append_of_pos fun c hc => bne_iff_ne.2 (hsep c hc).1, hrest, List.append_nil]
  have hline0 : line ≠ [] := by
    rintro rfl
    exact (asmCommands_word _ he).1 hline.symm
  rw [assembleLine, hbody, trimText_of_not_blank hblank, lineParts_of_not_blank hblank, hline]
  exact (if_neg hline0).trans (readStatement_mnemonic he)

/-- Settles O50: the comment is cut off, and the word is looked up in lower case. -/
theorem assemblerReadsMnemonics : Obligations.AssemblerReadsMnemonics := by
  intro name i line comment he hline
  refine ⟨?_, assembleLine_of_mnemonic he hline rfl⟩
  rw [← List.append_nil line]
  exact assembleLine_of_mnemonic he hline rfl

end Sys2Proof.Machine
end
